-- ==== Sys2Proof/Word.lean ====
section
/-!
DEFINITION. The word and byte types of CRCFRAME (00_scope.md R11: register values are 32-bit unsigned integers;
buffers hold bytes).
-/

namespace Sys2Proof

/-- A 32-bit register value or command word (00_scope.md R11). -/
abbrev Word := BitVec 32

/-- One byte of IBUF, OBUF or a frame (10_state.md R45, R46). -/
abbrev Byte := BitVec 8

end Sys2Proof
end

