-- ==== Sys2Proof/Syntax.lean ====
section
/-!
DEFINITION. The syntax of CRCFRAME: host transactions (30_encoding.md R86), registers (10_state.md R21) and the 24
operations of spec/opcode_table.json, 14 commands and 10 host accesses.
-/

namespace Sys2Proof

/-- The width of a host access (30_encoding.md R86: 1, 2 or 4 bytes). -/
inductive Width
  | byte
  | half
  | word
  deriving DecidableEq, Repr

/-- The number of bytes of a width. -/
def Width.bytes : Width → Nat
  | .byte => 1
  | .half => 2
  | .word => 4

/-- A byte offset in the 4096-byte REG region (20_memory.md R60). -/
abbrev RegOffset := BitVec 12

/-- The two byte buffers (20_memory.md R60). -/
inductive Buffer
  | ibuf
  | obuf
  deriving DecidableEq, Repr

/-- Where a host transaction goes: its region and its byte offset in the region (30_encoding.md R86). Region bases
are the platform's and stand in no rule (20_memory.md R60; log 8). -/
inductive Place
  | reg (off : RegOffset)
  | buf (b : Buffer) (off : Nat)
  deriving DecidableEq, Repr

/-- A host transaction (30_encoding.md R86): place, width, direction and, for a write, the 32 bits of data, of which
a buffer write uses the low 8·width bits. -/
inductive Access
  | read (p : Place) (w : Width)
  | write (p : Place) (w : Width) (data : Word)
  deriving DecidableEq, Repr

/-- What the block decodes: a command word taken from PEND (30_encoding.md R90) or a host transaction (R86). -/
inductive Code
  | command (w : Word)
  | access (a : Access)
  deriving DecidableEq, Repr

/-- The registers of 10_state.md R21. -/
inductive Reg
  | id
  | version
  | capIbuf
  | capObuf
  | capChunks
  | preambleHi
  | preambleLo
  | ctrl
  | status
  | cmd
  | errInfo
  | result
  | count
  | addr
  | len
  | type
  | typeFlags
  | crcPoly
  | crcInit
  | crcXorout
  | crcCfg
  | crcState
  | crcResult
  | crcDin
  | crcExpect
  | descLen
  | descType
  | descCrc
  | descPaddr
  deriving DecidableEq, Repr

/-- The operations of CRCFRAME, one constructor for each row of spec/opcode_table.json. -/
inductive Instr
  /-- NOP (44_host_access.md R204). -/
  | nop
  /-- CRC_INIT (40_crc_engine.md R113). -/
  | crcInit
  /-- CRC_BUF (40_crc_engine.md R114). -/
  | crcBuf
  /-- CRC_CHECK (40_crc_engine.md R116). -/
  | crcCheck
  /-- CHUNK_NEW (42_chunk.md R141). -/
  | chunkNew
  /-- CHUNK_PARSE (42_chunk.md R143). -/
  | chunkParse
  /-- CHUNK_SERIALIZE IDX (42_chunk.md R144). -/
  | chunkSerialize (idx : BitVec 16)
  /-- DESC_READ IDX (42_chunk.md R145). -/
  | descRead (idx : BitVec 16)
  /-- TYPE_CHECK (41_typecode.md R138). -/
  | typeCheck
  /-- FRAME_CLEAR (43_container.md R170). -/
  | frameClear
  /-- FRAME_PARSE (43_container.md R172). -/
  | frameParse
  /-- FRAME_SERIALIZE (43_container.md R175). -/
  | frameSerialize
  /-- CHUNK_FIND (43_container.md R177). -/
  | chunkFind
  /-- CHUNK_REMOVE (43_container.md R178). -/
  | chunkRemove
  /-- CRC_DIN_WRITE: a host write at REG offset 0x078 (40_crc_engine.md R112). -/
  | crcDinWrite (w : Width) (v : Word)
  /-- STATUS_W1C: a host write at REG offset 0x024 (44_host_access.md R206). -/
  | statusW1c (w : Width) (v : Word)
  /-- CTRL_WRITE_IRQ_EN: a host write at REG offset 0x020 with data bit 1 clear (44_host_access.md R205). -/
  | ctrlWriteIrqEn (w : Width) (v : Word)
  /-- CTRL_SOFT_RESET: a host write at REG offset 0x020 with data bit 1 set (44_host_access.md R207). -/
  | ctrlSoftReset (w : Width) (v : Word)
  /-- CMD_ISSUE: a host write at REG offset 0x028 (44_host_access.md R203). -/
  | cmdIssue (w : Width) (v : Word)
  /-- REG_READ: a host read of a REG offset (44_host_access.md R200). -/
  | regRead (off : RegOffset) (w : Width)
  /-- REG_WRITE: a host write at any other REG offset (44_host_access.md R201). -/
  | regWrite (off : RegOffset) (w : Width) (v : Word)
  /-- IBUF_WRITE: a host write in IBUF (44_host_access.md R208). -/
  | ibufWrite (off : Nat) (w : Width) (v : Word)
  /-- BUF_READ: a host read in IBUF or OBUF (44_host_access.md R209). -/
  | bufRead (b : Buffer) (off : Nat) (w : Width)
  /-- OBUF_WRITE: a host write in OBUF (44_host_access.md R210). -/
  | obufWrite (off : Nat) (w : Width) (v : Word)
  deriving DecidableEq, Repr

end Sys2Proof
end

