-- ==== Sys2Proof/WellFormed.lean ====
section
/-!
DEFINITION. Which terms of Instr stand for an operation of the block. A command's fields are well-formed by their
types; a host access must be the row that its offset and its data select (10_state.md R21, 44_host_access.md R201,
R205, R207).
-/

namespace Sys2Proof

/-- The REG offset of CTRL (10_state.md R21). -/
def offCtrl : RegOffset := 0x020

/-- The REG offset of STATUS (10_state.md R21). -/
def offStatus : RegOffset := 0x024

/-- The REG offset of CMD (10_state.md R21). -/
def offCmd : RegOffset := 0x028

/-- The REG offset of CRC_DIN (10_state.md R21). -/
def offCrcDin : RegOffset := 0x078

/-- The REG offsets whose writes are rows of their own in the opcode table. -/
def hasOwnWriteRow (off : RegOffset) : Bool :=
  off == offCtrl || off == offStatus || off == offCmd || off == offCrcDin

/-- Bit 1 of the data of a CTRL write: SOFT_RESET (10_state.md R25). It selects the row (log 12). -/
def softResetBit (v : Word) : Bool := v.getLsbD 1

/-- The well-formed operations: a REG_WRITE is at an offset that has no write row of its own; a CTRL write is the
row that its data bit 1 selects. -/
def wellFormed : Instr → Bool
  | .nop => true
  | .crcInit => true
  | .crcBuf => true
  | .crcCheck => true
  | .chunkNew => true
  | .chunkParse => true
  | .chunkSerialize _ => true
  | .descRead _ => true
  | .typeCheck => true
  | .frameClear => true
  | .frameParse => true
  | .frameSerialize => true
  | .chunkFind => true
  | .chunkRemove => true
  | .crcDinWrite _ _ => true
  | .statusW1c _ _ => true
  | .ctrlWriteIrqEn _ v => !softResetBit v
  | .ctrlSoftReset _ v => softResetBit v
  | .cmdIssue _ _ => true
  | .regRead _ _ => true
  | .regWrite off _ _ => !hasOwnWriteRow off
  | .ibufWrite _ _ _ => true
  | .bufRead _ _ _ => true
  | .obufWrite _ _ _ => true

end Sys2Proof
end

