-- ==== Sys2Proof/Decode.lean ====
section
/-!
DEFINITION. Decoding a command word (30_encoding.md R90 to R94) and a host transaction (R86; 44_host_access.md), and
the encoder written from the same tables.
-/

namespace Sys2Proof

/-- Why a command word is illegal, in the order of the checks of 30_encoding.md R91. Each is reported by the block
as IllegalCommand (R94). -/
inductive Illegal
  /-- OPC is not in the opcode map of 30_encoding.md R92. -/
  | unknownOpcode
  /-- RSV ≠ 0. -/
  | reservedNonzero
  /-- IDX ≠ 0 on an opcode without IDX. -/
  | indexNonzero
  deriving DecidableEq, Repr

/-- OPC, bits 7:0 of a command word (30_encoding.md R90). -/
def opcField (w : Word) : BitVec 8 := w.extractLsb' 0 8

/-- IDX, bits 23:8 of a command word (30_encoding.md R90). -/
def idxField (w : Word) : BitVec 16 := w.extractLsb' 8 16

/-- RSV, bits 31:24 of a command word (30_encoding.md R90). -/
def rsvField (w : Word) : BitVec 8 := w.extractLsb' 24 8

/-- The opcodes that use IDX: CHUNK_SERIALIZE and DESC_READ (30_encoding.md R91). -/
def usesIdx (opc : BitVec 8) : Bool := opc == 0x12 || opc == 0x13

/-- The opcode map of 30_encoding.md R92. -/
def opcodeMap (opc : BitVec 8) (idx : BitVec 16) : Option Instr :=
  if opc = 0x00 then some .nop
  else if opc = 0x01 then some .crcInit
  else if opc = 0x02 then some .crcBuf
  else if opc = 0x03 then some .crcCheck
  else if opc = 0x10 then some .chunkNew
  else if opc = 0x11 then some .chunkParse
  else if opc = 0x12 then some (.chunkSerialize idx)
  else if opc = 0x13 then some (.descRead idx)
  else if opc = 0x14 then some .typeCheck
  else if opc = 0x20 then some .frameClear
  else if opc = 0x21 then some .frameParse
  else if opc = 0x22 then some .frameSerialize
  else if opc = 0x23 then some .chunkFind
  else if opc = 0x24 then some .chunkRemove
  else none

/-- Decoding a command word (30_encoding.md R91): OPC, then RSV, then IDX. -/
def decodeCommand (w : Word) : Except Illegal Instr :=
  match opcodeMap (opcField w) (idxField w) with
  | none => .error .unknownOpcode
  | some i =>
    if rsvField w ≠ 0 then .error .reservedNonzero
    else if !usesIdx (opcField w) && idxField w != 0 then .error .indexNonzero
    else .ok i

/-- The operation that a host transaction is (44_host_access.md R200 to R210, 40_crc_engine.md R112). It is total:
an illegal transaction is its row's operation, which answers with a bus error (20_memory.md R62, R63). -/
def decodeAccess : Access → Instr
  | .read (.reg off) w => .regRead off w
  | .read (.buf b off) w => .bufRead b off w
  | .write (.reg off) w v =>
    if off = offCtrl then (if softResetBit v then .ctrlSoftReset w v else .ctrlWriteIrqEn w v)
    else if off = offStatus then .statusW1c w v
    else if off = offCmd then .cmdIssue w v
    else if off = offCrcDin then .crcDinWrite w v
    else .regWrite off w v
  | .write (.buf .ibuf off) w v => .ibufWrite off w v
  | .write (.buf .obuf off) w v => .obufWrite off w v

/-- Decoding whatever the block takes next. -/
def decode : Code → Except Illegal Instr
  | .command w => decodeCommand w
  | .access a => .ok (decodeAccess a)

/-- A command word from its fields, RSV = 0 (30_encoding.md R90: `00000000 iiiiiiiiiiiiiiii oooooooo`). -/
def commandWord (opc : BitVec 8) (idx : BitVec 16) : Word := (0#8 ++ idx) ++ opc

/-- The code of an operation: a command word by 30_encoding.md R92, a host transaction by R86 and 10_state.md
R21. -/
def encode : Instr → Code
  | .nop => .command (commandWord 0x00 0)
  | .crcInit => .command (commandWord 0x01 0)
  | .crcBuf => .command (commandWord 0x02 0)
  | .crcCheck => .command (commandWord 0x03 0)
  | .chunkNew => .command (commandWord 0x10 0)
  | .chunkParse => .command (commandWord 0x11 0)
  | .chunkSerialize idx => .command (commandWord 0x12 idx)
  | .descRead idx => .command (commandWord 0x13 idx)
  | .typeCheck => .command (commandWord 0x14 0)
  | .frameClear => .command (commandWord 0x20 0)
  | .frameParse => .command (commandWord 0x21 0)
  | .frameSerialize => .command (commandWord 0x22 0)
  | .chunkFind => .command (commandWord 0x23 0)
  | .chunkRemove => .command (commandWord 0x24 0)
  | .crcDinWrite w v => .access (.write (.reg offCrcDin) w v)
  | .statusW1c w v => .access (.write (.reg offStatus) w v)
  | .ctrlWriteIrqEn w v => .access (.write (.reg offCtrl) w v)
  | .ctrlSoftReset w v => .access (.write (.reg offCtrl) w v)
  | .cmdIssue w v => .access (.write (.reg offCmd) w v)
  | .regRead off w => .access (.read (.reg off) w)
  | .regWrite off w v => .access (.write (.reg off) w v)
  | .ibufWrite off w v => .access (.write (.buf .ibuf off) w v)
  | .bufRead b off w => .access (.read (.buf b off) w)
  | .obufWrite off w v => .access (.write (.buf .obuf off) w v)

/-- The command that the decoder reads from a word of the opcode table's numbering (bit 0 of `w` is bit 0 of the
command word). Bits from `nbits` up are 0. The table gives the host-access rows no bits (30_encoding.md R86: no
signal-level encoding is specified), so only command words are read here. -/
def decodeTableWord (nbits w : Nat) : Option Instr :=
  match decodeCommand (BitVec.ofNat 32 (w % 2 ^ nbits)) with
  | .ok i => some i
  | .error _ => none

/-- The register at a REG offset (10_state.md R21); `none` for a reserved or misaligned offset. -/
def regAt (off : RegOffset) : Option Reg :=
  if off = 0x000 then some .id
  else if off = 0x004 then some .version
  else if off = 0x008 then some .capIbuf
  else if off = 0x00C then some .capObuf
  else if off = 0x010 then some .capChunks
  else if off = 0x014 then some .preambleHi
  else if off = 0x018 then some .preambleLo
  else if off = offCtrl then some .ctrl
  else if off = offStatus then some .status
  else if off = offCmd then some .cmd
  else if off = 0x02C then some .errInfo
  else if off = 0x030 then some .result
  else if off = 0x034 then some .count
  else if off = 0x040 then some .addr
  else if off = 0x044 then some .len
  else if off = 0x048 then some .type
  else if off = 0x04C then some .typeFlags
  else if off = 0x060 then some .crcPoly
  else if off = 0x064 then some .crcInit
  else if off = 0x068 then some .crcXorout
  else if off = 0x06C then some .crcCfg
  else if off = 0x070 then some .crcState
  else if off = 0x074 then some .crcResult
  else if off = offCrcDin then some .crcDin
  else if off = 0x07C then some .crcExpect
  else if off = 0x080 then some .descLen
  else if off = 0x084 then some .descType
  else if off = 0x088 then some .descCrc
  else if off = 0x08C then some .descPaddr
  else none

/-- The REG offset of a register (10_state.md R21). -/
def offsetOf : Reg → RegOffset
  | .id => 0x000
  | .version => 0x004
  | .capIbuf => 0x008
  | .capObuf => 0x00C
  | .capChunks => 0x010
  | .preambleHi => 0x014
  | .preambleLo => 0x018
  | .ctrl => offCtrl
  | .status => offStatus
  | .cmd => offCmd
  | .errInfo => 0x02C
  | .result => 0x030
  | .count => 0x034
  | .addr => 0x040
  | .len => 0x044
  | .type => 0x048
  | .typeFlags => 0x04C
  | .crcPoly => 0x060
  | .crcInit => 0x064
  | .crcXorout => 0x068
  | .crcCfg => 0x06C
  | .crcState => 0x070
  | .crcResult => 0x074
  | .crcDin => offCrcDin
  | .crcExpect => 0x07C
  | .descLen => 0x080
  | .descType => 0x084
  | .descCrc => 0x088
  | .descPaddr => 0x08C

end Sys2Proof
end

