-- ==== Sys2Proof/Config.lean ====
section
/-!
DEFINITION. What an implementation fixes (00_scope.md R9) and the free values: what the spec leaves unspecified
(93_implementation_defined.md S1, S2, S3).
-/

namespace Sys2Proof.Config

/-- The design-time parameters of 00_scope.md R9. They are plain data in State, so that every statement about a
state is a statement about every instance (DESIGN CHOICE, safe: log 1). -/
structure Params where
  /-- IBUF_BYTES. -/
  ibufBytes : Nat
  /-- OBUF_BYTES. -/
  obufBytes : Nat
  /-- MAX_CHUNKS. -/
  maxChunks : Nat
  /-- PREAMBLE, first byte first. -/
  preamble : Vector Byte 8
  deriving DecidableEq, Repr

/-- The constraints of 00_scope.md R9. -/
abbrev Params.wf (p : Params) : Prop :=
  (1 ≤ p.ibufBytes ∧ p.ibufBytes ≤ 2 ^ 30) ∧ (1 ≤ p.obufBytes ∧ p.obufBytes ≤ 2 ^ 30) ∧
    (1 ≤ p.maxChunks ∧ p.maxChunks ≤ 65535)

/-- The reference instance CRCFRAME-R (00_scope.md R9). -/
def Params.reference : Params where
  ibufBytes := 65536
  obufBytes := 65536
  maxChunks := 64
  preamble := #v[0x89, 0x50, 0x4E, 0x47, 0x0D, 0x0A, 0x1A, 0x0A]

/-- The free byte at an address of a buffer whose contents became unspecified in a given draw
(93_implementation_defined.md S2, S3: any value per byte, drawn once and then held). No body: nothing constrains it
(log 4). -/
opaque unspecifiedByte : (draw : Nat) → (address : Nat) → Byte

/-- The free value of one read while BUSY = 1 (70_reset_and_hazards.md R261: each read is a fresh draw). No body:
nothing constrains it (log 5). -/
opaque unspecifiedWord : (draw : Nat) → Word

end Sys2Proof.Config
end

