-- ==== Sys2Proof/Machine/State.lean ====
section
/-!
DEFINITION. The state of CRCFRAME (10_state.md R20), the outcomes of a step and the state after a hardware reset
(70_reset_and_hazards.md R255).
-/

namespace Sys2Proof.Machine

/-- The bytes of IBUF or OBUF (10_state.md R45, R46). A listed cell was written since the contents last became
unspecified. An unlisted address was not: it holds no stored value, and reads as the free byte that `epoch`, the draw
in which the contents became unspecified, gives that address (log 4). -/
structure Memory where
  cells : List Host.Cell
  epoch : Nat
  deriving DecidableEq, Repr

/-- The canonical form: addresses strictly rising. A cell holds a written byte and an unlisted address holds none, so
no cell equals what an unlisted address holds. -/
abbrev Memory.wf (m : Memory) : Prop := m.cells.Pairwise fun x y => x.1 < y.1

/-- A descriptor (10_state.md R40). -/
structure Desc where
  len : Word
  type : Word
  crc : Word
  paddr : Word
  deriving DecidableEq, Repr

/-- The error kinds of 60_exceptions.md R226. The reserved codes 6, 7 and 12 to 15 have no constructor: they are
never reported. -/
inductive ErrCode
  | none
  | invalidTypeCode
  | truncatedInput
  | checksumMismatch
  | badPreamble
  | chunkNotFound
  | illegalCommand
  | rangeError
  | tableFull
  | outputOverflow
  deriving DecidableEq, Repr

/-- The stored fields of STATUS (10_state.md R26). BUSY is not stored: it is PEND ≠ none (R47; log 6). -/
structure Status where
  done : Bool
  err : Bool
  matched : Bool
  found : Bool
  errcode : ErrCode
  deriving DecidableEq, Repr

/-- STATUS with every field 0 (10_state.md R26). -/
def Status.clear : Status where
  done := false
  err := false
  matched := false
  found := false
  errcode := .none

/-- The stored registers of 10_state.md R21. COUNT, TYPE_FLAGS, CRC_RESULT and the constant registers are functions
of the state and stand in `State.readRegister`. -/
structure Regs where
  /-- CTRL.IRQ_EN (10_state.md R25). -/
  irqEn : Bool
  /-- STATUS (10_state.md R26). -/
  status : Status
  /-- ERR_INFO (10_state.md R31). -/
  errInfo : Word
  /-- RESULT (10_state.md R32). -/
  result : Word
  /-- ADDR (10_state.md R29). -/
  addr : Word
  /-- LEN (10_state.md R29). -/
  len : Word
  /-- TYPE (10_state.md R28). -/
  type : Word
  /-- CRC_POLY (10_state.md R34). -/
  crcPoly : Word
  /-- CRC_INIT (10_state.md R35). -/
  crcInit : Word
  /-- CRC_XOROUT (10_state.md R36). -/
  crcXorout : Word
  /-- CRC_CFG.REFIN (10_state.md R37). -/
  refin : Bool
  /-- CRC_CFG.REFOUT (10_state.md R37). -/
  refout : Bool
  /-- CRC_STATE (10_state.md R38). -/
  crcState : Word
  /-- CRC_EXPECT (10_state.md R44). -/
  crcExpect : Word
  /-- DESC_LEN, DESC_TYPE, DESC_CRC and DESC_PADDR (10_state.md R42). -/
  desc : Desc
  deriving DecidableEq, Repr

/-- The reset value of every register (10_state.md R21; 70_reset_and_hazards.md R255, R256). -/
def Regs.reset : Regs where
  irqEn := false
  status := Status.clear
  errInfo := 0
  result := 0
  addr := 0
  len := 0
  type := 0
  crcPoly := 0x04C11DB7
  crcInit := 0xFFFFFFFF
  crcXorout := 0xFFFFFFFF
  refin := true
  refout := true
  crcState := 0xFFFFFFFF
  crcExpect := 0
  desc := { len := 0, type := 0, crc := 0, paddr := 0 }

/-- What happens next at the block, as data (20_memory.md R73: an interleaving of host accesses and completion steps;
70_reset_and_hazards.md R255: the reset input; log 2). -/
inductive Event
  /-- The host performs an access. -/
  | access (a : Access)
  /-- The engine has a turn: it completes the pending command, if there is one (60_exceptions.md R231). -/
  | engine
  /-- The platform asserts the hardware reset (70_reset_and_hazards.md R255). -/
  | hardwareReset
  deriving DecidableEq, Repr

/-- OKAY or ERROR (30_encoding.md R86). -/
inductive BusStatus
  | okay
  | error
  deriving DecidableEq, Repr

/-- The response to a host access (30_encoding.md R86): its status and, for a read, the data returned. -/
structure Response where
  status : BusStatus
  data : Option Word
  deriving DecidableEq, Repr

/-- The state of CRCFRAME: the five pieces of 10_state.md R20, and the model's own fields `params` (log 1),
`inputs` (log 2), `resp` (log 3) and `draws` (log 5). -/
structure State where
  /-- REG (10_state.md R21). -/
  regs : Regs
  /-- IBUF (10_state.md R45). -/
  ibuf : Memory
  /-- OBUF (10_state.md R46). -/
  obuf : Memory
  /-- DT (10_state.md R41). -/
  dt : List Desc
  /-- PEND (10_state.md R47). -/
  pend : Option Word
  /-- The design parameters of this instance (00_scope.md R9); no step changes them. -/
  params : Config.Params
  /-- What the host, the engine and the reset input do next, first entry first. -/
  inputs : List Event
  /-- The response to the last host access, `none` before the first. -/
  resp : Option Response
  /-- The next free draw. -/
  draws : Nat
  deriving DecidableEq, Repr

/-- The reasons the machine can stop with a fault. -/
inductive Fault
  /-- A serializer would read an IBUF address that does not exist, for a descriptor whose payload leaves IBUF. Raised
  by CHUNK_SERIALIZE and FRAME_SERIALIZE. Safe: 10_state.md R41 says that no live descriptor is such, and
  `Safety.Inv` is kept by every step (log 9). -/
  | engineReadOutsideIbuf (addr : Nat)
  deriving DecidableEq, Repr

/-- The reasons the machine can refuse. -/
inductive Refusal
  /-- An instruction that has no meaning in the model. Raised by no arm of `exec`: every row has its meaning. Safe. -/
  | notModelled (mnemonic : String)
  deriving DecidableEq, Repr

/-- The state after a hardware reset (70_reset_and_hazards.md R255) of the reference instance CRCFRAME-R
(00_scope.md R9; log 1), with nothing to do (log 2), no access answered (log 3) and two draws taken, one for each
buffer's contents (log 4, log 5). -/
def State.reset : State where
  regs := Regs.reset
  ibuf := { cells := [], epoch := 0 }
  obuf := { cells := [], epoch := 1 }
  dt := []
  pend := none
  params := Config.Params.reference
  inputs := []
  resp := none
  draws := 2

end Sys2Proof.Machine
end

