-- ==== Sys2Proof/Machine/Operands.lean ====
section
/-!
DEFINITION. Operands: byte order (00_scope.md R14, 20_memory.md R61), legality of a host access (20_memory.md R61,
R62), the IBUF window of ADDR and LEN (10_state.md R29) and the index of a command word (30_encoding.md R91).
-/

namespace Sys2Proof.Machine

/-- BE32 of 00_scope.md R14: the most significant byte first. -/
def beBytes (v : Word) : List Byte :=
  [v.extractLsb' 24 8, v.extractLsb' 16 8, v.extractLsb' 8 8, v.extractLsb' 0 8]

/-- be32 of 00_scope.md R14, of four bytes, the first one given first. -/
def be32 (b0 b1 b2 b3 : Byte) : Word := ((b0 ++ b1) ++ b2) ++ b3

/-- typebytes of 00_scope.md R16 (10_state.md R28): the wire bytes of a packed type code. -/
def typeBytes (t : Word) : List Byte := beBytes t

/-- The bytes a host write of width `n` bytes stores, lowest address first (20_memory.md R61: byte a+i is
v[8i+7:8i]). -/
def laneBytes (n : Nat) (v : Word) : List Byte :=
  (List.range n).map fun i => v.extractLsb' (8 * i) 8

/-- The value a host read returns of the bytes it reads, lowest address first (20_memory.md R61: Σ byte(a+i)·2^(8i),
zero-extended to 32 bits). -/
def laneValue (bytes : List Byte) : Word :=
  BitVec.ofNat 32 (bytes.foldr (fun b acc => b.toNat + 256 * acc) 0)

/-- The low 8·n bits of a value, zero-extended: what an n-byte read can return of it. -/
def lowBytes (n : Nat) (v : Word) : Word := BitVec.ofNat 32 (v.toNat % 256 ^ n)

/-- A legal host access to REG: 32 bits wide at a multiple of 4 (20_memory.md R62). -/
def regAccessLegal (off : RegOffset) (w : Width) : Bool :=
  w == .word && off.toNat % 4 == 0

/-- A legal host access to a buffer of `size` bytes: aligned and inside it (20_memory.md R61). The sum is unbounded
(00_scope.md R12). -/
def bufAccessLegal (size off : Nat) (w : Width) : Bool :=
  off % w.bytes == 0 && decide (off + w.bytes ≤ size)

/-- The size of a buffer (20_memory.md R60). -/
def State.bufSize (s : State) : Buffer → Nat
  | .ibuf => s.params.ibufBytes
  | .obuf => s.params.obufBytes

/-- The window ADDR, LEN lies in IBUF: ADDR + LEN ≤ IBUF_BYTES in unbounded integers (10_state.md R29,
00_scope.md R12). -/
abbrev State.windowOk (s : State) : Prop :=
  s.regs.addr.toNat + s.regs.len.toNat ≤ s.params.ibufBytes

/-- The payload window of a descriptor lies in IBUF (10_state.md R41 (b)). -/
abbrev Desc.inIbuf (d : Desc) (ibufBytes : Nat) : Prop :=
  d.paddr.toNat + d.len.toNat ≤ ibufBytes

/-- DT[IDX] when IDX < |DT| (42_chunk.md R144, R145): IDX is zero-extended, never scaled (30_encoding.md R91). -/
def State.descAt (s : State) (idx : BitVec 16) : Option Desc := s.dt[idx.toNat]?

end Sys2Proof.Machine
end

