-- ==== Sys2Proof/Machine/CrcFunction.lean ====
section
/-!
DEFINITION. The parameterised CRC model (40_crc_engine.md R110) and the fixed CRC-32/ISO-HDLC function (R111).
-/

namespace Sys2Proof.Machine

/-- reflect8 of 40_crc_engine.md R110. -/
def reflect8 (b : Byte) : Byte := b.reverse

/-- reflect32 of 40_crc_engine.md R110. -/
def reflect32 (v : Word) : Word := v.reverse

/-- One turn of the loop of crc_step (40_crc_engine.md R110). -/
def crcShift (poly s : Word) : Word :=
  if s.msb then (s <<< 1) ^^^ poly else s <<< 1

/-- `n` turns of the loop of crc_step. -/
def crcShifts (poly : Word) : Nat → Word → Word
  | 0, s => s
  | n + 1, s => crcShifts poly n (crcShift poly s)

/-- crc_step of 40_crc_engine.md R110: one byte. -/
def crcStep (s : Word) (b : Byte) (poly : Word) (refin : Bool) : Word :=
  crcShifts poly 8 (s ^^^ ((if refin then reflect8 b else b).setWidth 32 <<< 24))

/-- crc_run of 40_crc_engine.md R110: the first byte first. -/
def crcRun (s : Word) : List Byte → (poly : Word) → (refin : Bool) → Word
  | [], _, _ => s
  | b :: bs, poly, refin => crcRun (crcStep s b poly refin) bs poly refin

/-- crc_final of 40_crc_engine.md R110. -/
def crcFinal (s : Word) (refout : Bool) (xorout : Word) : Word :=
  (if refout then reflect32 s else s) ^^^ xorout

/-- crc32_hdlc of 40_crc_engine.md R111: CRC-32/ISO-HDLC with its fixed constants. -/
def crcHdlc (bytes : List Byte) : Word :=
  crcFinal (crcRun 0xFFFFFFFF bytes 0x04C11DB7 true) true 0xFFFFFFFF

/-- CRC_RESULT (10_state.md R39), a function of CRC_STATE, REFOUT and CRC_XOROUT at every moment. -/
def State.crcResult (s : State) : Word :=
  crcFinal s.regs.crcState s.regs.refout s.regs.crcXorout

end Sys2Proof.Machine
end

