-- ==== Sys2Proof/Machine/Flags.lean ====
section
/-!
DEFINITION. Flags: the type-code predicates and TYPE_FLAGS (41_typecode.md R130 to R137), the STATUS word
(10_state.md R26), the error codes (60_exceptions.md R226), BUSY (10_state.md R47) and IRQ (R48).
-/

namespace Sys2Proof.Machine

/-- alpha(b): an ASCII letter (41_typecode.md R130). -/
def alpha (b : Byte) : Bool :=
  (0x41#8 ≤ b && b ≤ 0x5A#8) || (0x61#8 ≤ b && b ≤ 0x7A#8)

/-- upper(b): alpha(b) and b[5] = 0 (41_typecode.md R131). -/
def upper (b : Byte) : Bool := alpha b && !b.getLsbD 5

/-- lower(b): alpha(b) and b[5] = 1 (41_typecode.md R131). -/
def lower (b : Byte) : Bool := alpha b && b.getLsbD 5

/-- A type code is alphabetic: alpha holds for all four bytes (41_typecode.md R130). -/
def alphabetic (t : Word) : Bool := (typeBytes t).all alpha

/-- A word with one flag at bit `n`. -/
def flagBit (n : Nat) (b : Bool) : Word := if b then 1#32 <<< n else 0#32

/-- The word of TYPE_FLAGS for the four bytes of a type code (41_typecode.md R132): ALPHA, CRITICAL, PUBLIC,
RESERVED_VALID, SAFE_TO_COPY and VALID, which equals RESERVED_VALID (R137). -/
def typeFlagsOf (t0 t1 t2 t3 : Byte) : Word :=
  let a := alpha t0 && alpha t1 && alpha t2 && alpha t3
  flagBit 0 a ||| flagBit 1 (a && upper t0) ||| flagBit 2 (a && upper t1) ||| flagBit 3 (a && upper t2) |||
    flagBit 4 (a && lower t3) ||| flagBit 5 (a && upper t2)

/-- TYPE_FLAGS as a function of TYPE (41_typecode.md R132; byte 0 is TYPE[31:24], 10_state.md R28). -/
def typeFlags (t : Word) : Word :=
  typeFlagsOf (t.extractLsb' 24 8) (t.extractLsb' 16 8) (t.extractLsb' 8 8) (t.extractLsb' 0 8)

/-- The number of an error kind in STATUS.ERRCODE (60_exceptions.md R226). -/
def ErrCode.code : ErrCode → BitVec 4
  | .none => 0
  | .invalidTypeCode => 1
  | .truncatedInput => 2
  | .checksumMismatch => 3
  | .badPreamble => 4
  | .chunkNotFound => 5
  | .illegalCommand => 8
  | .rangeError => 9
  | .tableFull => 10
  | .outputOverflow => 11

/-- The STATUS word (10_state.md R26): BUSY 0, DONE 1, ERR 2, MATCH 3, FOUND 4, ERRCODE 11:8, the rest 0. -/
def Status.toWord (st : Status) (busy : Bool) : Word :=
  flagBit 0 busy ||| flagBit 1 st.done ||| flagBit 2 st.err ||| flagBit 3 st.matched ||| flagBit 4 st.found |||
    (st.errcode.code.setWidth 32 <<< 8)

/-- STATUS.BUSY: PEND ≠ none (10_state.md R47; log 6). -/
def State.busy (s : State) : Bool := s.pend.isSome

/-- The IRQ output: CTRL.IRQ_EN AND STATUS.DONE (10_state.md R48). -/
def State.irq (s : State) : Bool := s.regs.irqEn && s.regs.status.done

end Sys2Proof.Machine
end

