-- ==== Sys2Proof/Machine/Ops.lean ====
section
/-!
DEFINITION. The named operations over memory and registers: buffer reads and writes (00_scope.md R13), completion and
the two kinds of abnormal event (60_exceptions.md R225, R231; 20_memory.md R63), command issue (44_host_access.md
R203), the two resets (70_reset_and_hazards.md R255, R256), and the reading and writing of registers
(44_host_access.md R200, R201).
-/

namespace Sys2Proof.Machine

/-- The byte stored at an address, if the address is listed. -/
def cellLookup : List Host.Cell → Nat → Option Byte
  | [], _ => none
  | (a, b) :: cs, x => if x = a then some b else cellLookup cs x

/-- Store a byte, keeping the addresses rising. -/
def cellInsert (x : Nat) (v : Byte) : List Host.Cell → List Host.Cell
  | [] => [(x, v)]
  | (a, b) :: cs =>
    if x < a then (x, v) :: (a, b) :: cs
    else if x = a then (x, v) :: cs
    else (a, b) :: cellInsert x v cs

/-- What an address reads as: its stored byte, or the free byte of the draw that filled the buffer
(93_implementation_defined.md S2, S3; log 4). -/
def Memory.read (m : Memory) (a : Nat) : Byte :=
  (cellLookup m.cells a).getD (Config.unspecifiedByte m.epoch a)

/-- Store one byte. -/
def Memory.write (m : Memory) (a : Nat) (v : Byte) : Memory :=
  { m with cells := cellInsert a v m.cells }

/-- MemRead of 00_scope.md R13: the n bytes from address a. -/
def Memory.readBytes (m : Memory) (a : Nat) : Nat → List Byte
  | 0 => []
  | n + 1 => m.read a :: m.readBytes (a + 1) n

/-- MemWrite of 00_scope.md R13: the bytes of a sequence from address a. -/
def Memory.writeBytes (m : Memory) (a : Nat) : List Byte → Memory
  | [] => m
  | b :: bs => (m.write a b).writeBytes (a + 1) bs

/-- be32 of the four bytes from an address (00_scope.md R14, 20_memory.md R64). -/
def Memory.readBe32 (m : Memory) (a : Nat) : Word :=
  be32 (m.read a) (m.read (a + 1)) (m.read (a + 2)) (m.read (a + 3))

/-- A buffer whose contents become unspecified: any value per byte, drawn in draw `d` and then held
(93_implementation_defined.md S2, S3; log 4). -/
def Memory.unspecified (d : Nat) : Memory := { cells := [], epoch := d }

/-- The bytes of a buffer region (20_memory.md R60). -/
def State.bufOf (s : State) : Buffer → Memory
  | .ibuf => s.ibuf
  | .obuf => s.obuf

/-- The bytes of the window ADDR, LEN (10_state.md R29). -/
def State.window (s : State) : List Byte :=
  s.ibuf.readBytes s.regs.addr.toNat s.regs.len.toNat

/-- CRC_STATE <- v. -/
def State.setCrcState (s : State) (v : Word) : State :=
  { s with regs := { s.regs with crcState := v } }

/-- RESULT <- v (10_state.md R32). -/
def State.setResult (s : State) (v : Word) : State :=
  { s with regs := { s.regs with result := v } }

/-- STATUS.MATCH <- b (10_state.md R26). -/
def State.setMatch (s : State) (b : Bool) : State :=
  { s with regs := { s.regs with status := { s.regs.status with matched := b } } }

/-- STATUS.FOUND <- b (10_state.md R26). -/
def State.setFound (s : State) (b : Bool) : State :=
  { s with regs := { s.regs with status := { s.regs.status with found := b } } }

/-- Load DESC_LEN, DESC_TYPE, DESC_CRC and DESC_PADDR (10_state.md R42). -/
def State.loadDesc (s : State) (d : Desc) : State :=
  { s with regs := { s.regs with desc := d } }

/-- DT <- ds (10_state.md R41). -/
def State.setTable (s : State) (ds : List Desc) : State := { s with dt := ds }

/-- MemWrite(OBUF, 0, bytes): a serializer's output (10_state.md R46). -/
def State.writeOutput (s : State) (bytes : List Byte) : State :=
  { s with obuf := s.obuf.writeBytes 0 bytes }

/-- The end of the completion step (60_exceptions.md R231): PEND <- none, so BUSY <- 0, and DONE <- 1. -/
def State.complete (s : State) : State :=
  { s with pend := none, regs := { s.regs with status := { s.regs.status with done := true } } }

/-- raise Error(code, info) (00_scope.md R15, 60_exceptions.md R231): ERR, ERRCODE and ERR_INFO are written and the
command completes. Every command error is taken here. -/
def State.raiseError (s : State) (code : ErrCode) (info : Word) : State :=
  State.complete
    { s with
      regs := { s.regs with errInfo := info, status := { s.regs.status with err := true, errcode := code } } }

/-- The OKAY response to a host write (30_encoding.md R86). -/
def State.respondWrite (s : State) : State :=
  { s with resp := some { status := .okay, data := none } }

/-- The OKAY response to a host read, with the data returned (30_encoding.md R86). -/
def State.respondRead (s : State) (v : Word) : State :=
  { s with resp := some { status := .okay, data := some v } }

/-- A bus error on a host write (20_memory.md R63): the response only, no state of the block. -/
def State.busErrorWrite (s : State) : State :=
  { s with resp := some { status := .error, data := none } }

/-- A bus error on a host read (20_memory.md R63): the response only, with data 0. -/
def State.busErrorRead (s : State) : State :=
  { s with resp := some { status := .error, data := some 0 } }

/-- A host write that BUSY = 1 disables (44_host_access.md R202). An illegal access gets its bus error first
(20_memory.md R63; log 7); an ignored write gets an OKAY response and has no effect. -/
def State.hostWrite (s : State) (legal : Bool) (effect : State) : State :=
  if legal then (if s.busy then s.respondWrite else effect.respondWrite) else s.busErrorWrite

/-- A host write that is performed even while BUSY = 1: a CTRL write (44_host_access.md R202, R205). -/
def State.hostWriteAlways (s : State) (legal : Bool) (effect : State) : State :=
  if legal then effect.respondWrite else s.busErrorWrite

/-- issue(w) (44_host_access.md R203). -/
def State.issue (s : State) (w : Word) : State :=
  { s with pend := some w, regs := { s.regs with status := Status.clear, result := 0, errInfo := 0 } }

/-- PEND decodes to CHUNK_SERIALIZE or FRAME_SERIALIZE (44_host_access.md R207). -/
def isSerializer (w : Word) : Bool :=
  match decodeCommand w with
  | .ok (.chunkSerialize _) => true
  | .ok .frameSerialize => true
  | _ => false

/-- A serializer is pending. -/
def State.serializerPending (s : State) : Bool :=
  match s.pend with
  | none => false
  | some w => isSerializer w

/-- Every register, DT and PEND at the reset value (70_reset_and_hazards.md R255, R256). -/
def State.resetRegisters (s : State) : State :=
  { s with regs := Regs.reset, dt := [], pend := none }

/-- A soft reset (44_host_access.md R207, 70_reset_and_hazards.md R256): IBUF is kept; OBUF is kept unless a pending
serializer is aborted, and is then unspecified. -/
def State.softReset (s : State) : State :=
  if s.serializerPending then
    State.resetRegisters { s with obuf := Memory.unspecified s.draws, draws := s.draws + 1 }
  else s.resetRegisters

/-- A hardware reset (70_reset_and_hazards.md R255): as a soft reset, and IBUF and OBUF become unspecified. What the
outside does next, the last response and the count of draws are not the block's state and stay (log 14). -/
def State.hardwareReset (s : State) : State :=
  State.resetRegisters
    { s with
      ibuf := Memory.unspecified s.draws
      obuf := Memory.unspecified (s.draws + 1)
      draws := s.draws + 2 }

/-- The byte of a CRC_DIN write into the programmable engine (40_crc_engine.md R112): only v[7:0] is used. -/
def State.feedByte (s : State) (v : Word) : State :=
  s.setCrcState (crcStep s.regs.crcState (v.extractLsb' 0 8) s.regs.crcPoly s.regs.refin)

/-- STATUS write-1-to-clear (44_host_access.md R206): v[1] = 1 clears DONE and nothing else. -/
def State.clearDone (s : State) (v : Word) : State :=
  if v.getLsbD 1 then { s with regs := { s.regs with status := { s.regs.status with done := false } } } else s

/-- A CTRL write (44_host_access.md R205): IRQ_EN <- v[0], then a soft reset (R207) when v[1] = 1. -/
def State.writeCtrl (s : State) (v : Word) : State :=
  let s' := { s with regs := { s.regs with irqEn := v.getLsbD 0 } }
  if softResetBit v then s'.softReset else s'

/-- What a legal write of v to a register does while BUSY = 0 (44_host_access.md R201). Read-only registers ignore
it. -/
def State.writeRegister (s : State) (v : Word) : Reg → State
  | .ctrl => s.writeCtrl v
  | .status => s.clearDone v
  | .cmd => s.issue v
  | .crcDin => s.feedByte v
  | .addr => { s with regs := { s.regs with addr := v } }
  | .len => { s with regs := { s.regs with len := v } }
  | .type => { s with regs := { s.regs with type := v } }
  | .crcPoly => { s with regs := { s.regs with crcPoly := v } }
  | .crcInit => { s with regs := { s.regs with crcInit := v } }
  | .crcXorout => { s with regs := { s.regs with crcXorout := v } }
  | .crcState => s.setCrcState v
  | .crcExpect => { s with regs := { s.regs with crcExpect := v } }
  | .crcCfg => { s with regs := { s.regs with refin := v.getLsbD 0, refout := v.getLsbD 1 } }
  | .id => s
  | .version => s
  | .capIbuf => s
  | .capObuf => s
  | .capChunks => s
  | .preambleHi => s
  | .preambleLo => s
  | .errInfo => s
  | .result => s
  | .count => s
  | .typeFlags => s
  | .crcResult => s
  | .descLen => s
  | .descType => s
  | .descCrc => s
  | .descPaddr => s

/-- The same at a REG offset: a reserved offset ignores the write (10_state.md R21). -/
def State.writeOffset (s : State) (off : RegOffset) (v : Word) : State :=
  match regAt off with
  | none => s
  | some r => s.writeRegister v r

/-- PREAMBLE as a byte sequence (00_scope.md R9). -/
def State.preamble (s : State) : List Byte := s.params.preamble.toList

/-- The value of a register (10_state.md R21 to R44); a write-only register reads 0 (44_host_access.md R200). -/
def State.readRegister (s : State) : Reg → Word
  | .id => 0x43524346
  | .version => 0x00010000
  | .capIbuf => BitVec.ofNat 32 s.params.ibufBytes
  | .capObuf => BitVec.ofNat 32 s.params.obufBytes
  | .capChunks => BitVec.ofNat 32 s.params.maxChunks
  | .preambleHi => be32 s.params.preamble[0] s.params.preamble[1] s.params.preamble[2] s.params.preamble[3]
  | .preambleLo => be32 s.params.preamble[4] s.params.preamble[5] s.params.preamble[6] s.params.preamble[7]
  | .ctrl => flagBit 0 s.regs.irqEn
  | .status => s.regs.status.toWord s.busy
  | .cmd => 0
  | .errInfo => s.regs.errInfo
  | .result => s.regs.result
  | .count => BitVec.ofNat 32 s.dt.length
  | .addr => s.regs.addr
  | .len => s.regs.len
  | .type => s.regs.type
  | .typeFlags => typeFlags s.regs.type
  | .crcPoly => s.regs.crcPoly
  | .crcInit => s.regs.crcInit
  | .crcXorout => s.regs.crcXorout
  | .crcCfg => flagBit 0 s.regs.refin ||| flagBit 1 s.regs.refout
  | .crcState => s.regs.crcState
  | .crcResult => s.crcResult
  | .crcDin => 0
  | .crcExpect => s.regs.crcExpect
  | .descLen => s.regs.desc.len
  | .descType => s.regs.desc.type
  | .descCrc => s.regs.desc.crc
  | .descPaddr => s.regs.desc.paddr

/-- The value at a REG offset: a reserved offset reads 0 (10_state.md R21). -/
def State.readOffset (s : State) (off : RegOffset) : Word :=
  match regAt off with
  | none => 0
  | some r => s.readRegister r

/-- The registers whose reads are unspecified while BUSY = 1 (70_reset_and_hazards.md R261). -/
def regFreeWhileBusy : Reg → Bool
  | .result => true
  | .errInfo => true
  | .count => true
  | .descLen => true
  | .descType => true
  | .descCrc => true
  | .descPaddr => true
  | .crcState => true
  | .crcResult => true
  | .id => false
  | .version => false
  | .capIbuf => false
  | .capObuf => false
  | .capChunks => false
  | .preambleHi => false
  | .preambleLo => false
  | .ctrl => false
  | .status => false
  | .cmd => false
  | .addr => false
  | .len => false
  | .type => false
  | .typeFlags => false
  | .crcPoly => false
  | .crcInit => false
  | .crcXorout => false
  | .crcCfg => false
  | .crcDin => false
  | .crcExpect => false

/-- The read at a REG offset is unspecified while BUSY = 1. -/
def offsetFreeWhileBusy (off : RegOffset) : Bool :=
  match regAt off with
  | none => false
  | some r => regFreeWhileBusy r

/-- The answer to a legal read of `n` bytes whose value is unspecified: a fresh draw on every read
(70_reset_and_hazards.md R261; log 5). -/
def State.respondFree (s : State) (n : Nat) : State :=
  State.respondRead { s with draws := s.draws + 1 } (lowBytes n (Config.unspecifiedWord s.draws))

/-- The bytes of a legal n-byte host read, as a value (20_memory.md R61). -/
def State.readLanes (s : State) (b : Buffer) (off n : Nat) : Word :=
  laneValue ((s.bufOf b).readBytes off n)

/-- The effect of a legal host write in IBUF (44_host_access.md R208). -/
def State.storeIbuf (s : State) (off n : Nat) (v : Word) : State :=
  { s with ibuf := s.ibuf.writeBytes off (laneBytes n v) }

/-- The effect of a legal host write in OBUF (44_host_access.md R210). -/
def State.storeObuf (s : State) (off n : Nat) (v : Word) : State :=
  { s with obuf := s.obuf.writeBytes off (laneBytes n v) }

/-- The first descriptor of a type in DT order, with its index (43_container.md R177, R178). -/
def findFirst (t : Word) : List Desc → Option (Nat × Desc)
  | [] => none
  | d :: ds =>
    if d.type = t then some (0, d)
    else
      match findFirst t ds with
      | none => none
      | some (i, e) => some (i + 1, e)

end Sys2Proof.Machine
end

