-- ==== Sys2Proof/Machine/Records.lean ====
section
/-!
DEFINITION. Chunk records and frames: serialized bytes (42_chunk.md R140, 30_encoding.md R87, R88), the record parser
(42_chunk.md R142) and the frame parser (43_container.md R171, R172).
-/

namespace Sys2Proof.Machine

/-- chunk_bytes(d) of 42_chunk.md R140: length, type, the payload as IBUF holds it now (R146), the stored
checksum. -/
def chunkBytes (ibuf : Memory) (d : Desc) : List Byte :=
  beBytes d.len ++ typeBytes d.type ++ ibuf.readBytes d.paddr.toNat d.len.toNat ++ beBytes d.crc

/-- The length of a serialized record, 12 + d.len (42_chunk.md R140), unbounded. -/
def recordLength (d : Desc) : Nat := 12 + d.len.toNat

/-- The length of the frame of a table: 8 + Σ (12 + len) (43_container.md R175), unbounded. -/
def frameLength (ds : List Desc) : Nat := 8 + (ds.map recordLength).sum

/-- The bytes of the frame of a table (43_container.md R175). -/
def frameBytes (preamble : List Byte) (ibuf : Memory) (ds : List Desc) : List Byte :=
  preamble ++ ds.flatMap (chunkBytes ibuf)

/-- The ERR_INFO of OutputOverflow: min(total, 0xFFFFFFFF) (60_exceptions.md R229; log 11). -/
def overflowInfo (total : Nat) : Word := BitVec.ofNat 32 (min total 0xFFFFFFFF)

/-- The first descriptor whose payload leaves IBUF (log 9). -/
def firstOutside (ibufBytes : Nat) (ds : List Desc) : Option Desc :=
  ds.find? fun d => !decide (d.inIbuf ibufBytes)

/-- chunk_parse(p, avail) of 42_chunk.md R142: the descriptor and the bytes consumed, or the error. The payload sums
are unbounded. -/
def chunkParse (ibuf : Memory) (p avail : Nat) : Except ErrCode (Desc × Nat) :=
  if avail < 4 then .error .truncatedInput
  else
    let len := ibuf.readBe32 p
    if avail < 8 then .error .truncatedInput
    else
      let type := ibuf.readBe32 (p + 4)
      if avail < 8 + len.toNat then .error .truncatedInput
      else
        let payload := ibuf.readBytes (p + 8) len.toNat
        if avail < 12 + len.toNat then .error .truncatedInput
        else
          let crc := ibuf.readBe32 (p + 8 + len.toNat)
          if crcHdlc (typeBytes type ++ payload) ≠ crc then .error .checksumMismatch
          else if !alphabetic type then .error .invalidTypeCode
          else
            .ok ({ len := len, type := type, crc := crc, paddr := BitVec.ofNat 32 (p + 8) }, 12 + len.toNat)

/-- preamble_ok(a, n) of 43_container.md R171. -/
def preambleOk (preamble : List Byte) (ibuf : Memory) (a n : Nat) : Bool :=
  decide (8 ≤ n) && ibuf.readBytes a 8 == preamble

/-- The loop of 43_container.md R172 over the window (a, n), with p bytes consumed and the descriptors `ds` so far:
the new table, or the error and the IBUF address of the record that failed. `fuel` bounds the turns; every record
takes at least 12 bytes, so n turns are enough (log 13). -/
def frameLoop (ibuf : Memory) (maxChunks a n : Nat) :
    (fuel p : Nat) → (ds : List Desc) → Except (ErrCode × Nat) (List Desc)
  | 0, _, ds => .ok ds
  | fuel + 1, p, ds =>
    if p < n then
      match chunkParse ibuf (a + p) (n - p) with
      | .error code => .error (code, a + p)
      | .ok (d, k) =>
        if ds.length = maxChunks then .error (.tableFull, a + p)
        else frameLoop ibuf maxChunks a n fuel (p + k) (ds ++ [d])
    else .ok ds

end Sys2Proof.Machine
end

