-- ==== Sys2Proof/Machine/HostAccess.lean ====
section
/-!
DEFINITION. The meanings of NOP and of the host accesses (44_host_access.md R200 to R210, 40_crc_engine.md R112).
-/

namespace Sys2Proof.Machine

/-- The outcome of an operation of this block. -/
abbrev Out := Host.Outcome State Fault Refusal

/-- NOP (44_host_access.md R204). -/
def execNop (s : State) : Out := .next s.complete

/-- CRC_DIN_WRITE (40_crc_engine.md R112). -/
def execCrcDinWrite (w : Width) (v : Word) (s : State) : Out :=
  .next (s.hostWrite (regAccessLegal offCrcDin w) (s.feedByte v))

/-- STATUS_W1C (44_host_access.md R206). -/
def execStatusW1c (w : Width) (v : Word) (s : State) : Out :=
  .next (s.hostWrite (regAccessLegal offStatus w) (s.clearDone v))

/-- CTRL_WRITE_IRQ_EN (44_host_access.md R205), performed even while BUSY = 1. -/
def execCtrlWriteIrqEn (w : Width) (v : Word) (s : State) : Out :=
  .next (s.hostWriteAlways (regAccessLegal offCtrl w) (s.writeCtrl v))

/-- CTRL_SOFT_RESET (44_host_access.md R205, then R207), performed even while BUSY = 1. -/
def execCtrlSoftReset (w : Width) (v : Word) (s : State) : Out :=
  .next (s.hostWriteAlways (regAccessLegal offCtrl w) (s.writeCtrl v))

/-- CMD_ISSUE (44_host_access.md R203); while BUSY = 1 the command is lost (70_reset_and_hazards.md R263). -/
def execCmdIssue (w : Width) (v : Word) (s : State) : Out :=
  .next (s.hostWrite (regAccessLegal offCmd w) (s.issue v))

/-- REG_READ (44_host_access.md R200; 70_reset_and_hazards.md R261 while BUSY = 1). -/
def execRegRead (off : RegOffset) (w : Width) (s : State) : Out :=
  .next <|
    if regAccessLegal off w then
      (if s.busy && offsetFreeWhileBusy off then s.respondFree 4 else s.respondRead (s.readOffset off))
    else s.busErrorRead

/-- REG_WRITE (44_host_access.md R201). -/
def execRegWrite (off : RegOffset) (w : Width) (v : Word) (s : State) : Out :=
  .next <|
    if off = offCtrl then s.hostWriteAlways (regAccessLegal off w) (s.writeCtrl v)
    else s.hostWrite (regAccessLegal off w) (s.writeOffset off v)

/-- IBUF_WRITE (44_host_access.md R208). -/
def execIbufWrite (off : Nat) (w : Width) (v : Word) (s : State) : Out :=
  .next (s.hostWrite (bufAccessLegal s.params.ibufBytes off w) (s.storeIbuf off w.bytes v))

/-- BUF_READ (44_host_access.md R209; 70_reset_and_hazards.md R261 for OBUF while BUSY = 1). -/
def execBufRead (b : Buffer) (off : Nat) (w : Width) (s : State) : Out :=
  .next <|
    if bufAccessLegal (s.bufSize b) off w then
      (if s.busy && b == .obuf then s.respondFree w.bytes else s.respondRead (s.readLanes b off w.bytes))
    else s.busErrorRead

/-- OBUF_WRITE (44_host_access.md R210). -/
def execObufWrite (off : Nat) (w : Width) (v : Word) (s : State) : Out :=
  .next (s.hostWrite (bufAccessLegal s.params.obufBytes off w) (s.storeObuf off w.bytes v))

end Sys2Proof.Machine
end

