-- ==== Sys2Proof/Machine/Chunk.lean ====
section
/-!
DEFINITION. The meanings of the chunk commands (42_chunk.md R141, R143, R144, R145).
-/

namespace Sys2Proof.Machine

/-- The descriptor CHUNK_NEW builds from TYPE and the window (42_chunk.md R141). -/
def State.newDesc (s : State) : Desc where
  len := s.regs.len
  type := s.regs.type
  crc := crcHdlc (typeBytes s.regs.type ++ s.window)
  paddr := s.regs.addr

/-- Append a descriptor, load DESC_* from it and set RESULT (42_chunk.md R141, R143; 43_container.md R179). -/
def State.appendDesc (s : State) (d : Desc) (result : Word) : State :=
  ((s.setTable (s.dt ++ [d])).loadDesc d).setResult result

/-- CHUNK_NEW (42_chunk.md R141): RangeError, then InvalidTypeCode, then TableFull. -/
def execChunkNew (s : State) : Out :=
  .next <|
    if ¬ s.windowOk then s.raiseError .rangeError 0
    else if !alphabetic s.regs.type then s.raiseError .invalidTypeCode s.regs.type
    else if s.dt.length = s.params.maxChunks then s.raiseError .tableFull 0
    else (s.appendDesc s.newDesc (BitVec.ofNat 32 s.dt.length)).complete

/-- CHUNK_PARSE (42_chunk.md R143): RangeError, then the record's own error, then TableFull. -/
def execChunkParse (s : State) : Out :=
  .next <|
    if ¬ s.windowOk then s.raiseError .rangeError 0
    else
      match chunkParse s.ibuf s.regs.addr.toNat s.regs.len.toNat with
      | .error code => s.raiseError code s.regs.addr
      | .ok (d, k) =>
        if s.dt.length = s.params.maxChunks then s.raiseError .tableFull s.regs.addr
        else (s.appendDesc d (BitVec.ofNat 32 k)).complete

/-- CHUNK_SERIALIZE IDX (42_chunk.md R144): RangeError, then OutputOverflow; OBUF is written from offset 0. -/
def execChunkSerialize (idx : BitVec 16) (s : State) : Out :=
  match s.descAt idx with
  | none => .next (s.raiseError .rangeError (idx.setWidth 32))
  | some d =>
    if s.params.obufBytes < recordLength d then
      .next (s.raiseError .outputOverflow (overflowInfo (recordLength d)))
    else if d.inIbuf s.params.ibufBytes then
      .next ((s.writeOutput (chunkBytes s.ibuf d)).setResult (BitVec.ofNat 32 (recordLength d))).complete
    else .fault (.engineReadOutsideIbuf d.paddr.toNat)

/-- DESC_READ IDX (42_chunk.md R145). -/
def execDescRead (idx : BitVec 16) (s : State) : Out :=
  .next <|
    match s.descAt idx with
    | none => s.raiseError .rangeError (idx.setWidth 32)
    | some d => ((s.loadDesc d).setResult (idx.setWidth 32)).complete

end Sys2Proof.Machine
end

