-- ==== Sys2Proof/Machine/Container.lean ====
section
/-!
DEFINITION. The meanings of the container commands (43_container.md R170, R172, R175, R177, R178).
-/

namespace Sys2Proof.Machine

/-- FRAME_CLEAR (43_container.md R170). -/
def execFrameClear (s : State) : Out := .next (s.setTable []).complete

/-- An error of FRAME_PARSE empties DT (43_container.md R173). -/
def State.rejectFrame (s : State) (code : ErrCode) (info : Word) : State :=
  (s.setTable []).raiseError code info

/-- FRAME_PARSE (43_container.md R172): RangeError, BadPreamble, then record by record. -/
def execFrameParse (s : State) : Out :=
  .next <|
    let a := s.regs.addr.toNat
    let n := s.regs.len.toNat
    if ¬ s.windowOk then s.rejectFrame .rangeError 0
    else if !preambleOk s.preamble s.ibuf a n then s.rejectFrame .badPreamble s.regs.addr
    else
      match frameLoop s.ibuf s.params.maxChunks a n n 8 [] with
      | .error (code, p) => s.rejectFrame code (BitVec.ofNat 32 p)
      | .ok ds => ((s.setTable ds).setResult (BitVec.ofNat 32 ds.length)).complete

/-- FRAME_SERIALIZE (43_container.md R175): OutputOverflow, or the frame in OBUF from offset 0. -/
def execFrameSerialize (s : State) : Out :=
  if s.params.obufBytes < frameLength s.dt then
    .next (s.raiseError .outputOverflow (overflowInfo (frameLength s.dt)))
  else
    match firstOutside s.params.ibufBytes s.dt with
    | some d => .fault (.engineReadOutsideIbuf d.paddr.toNat)
    | none =>
      .next
        ((s.writeOutput (frameBytes s.preamble s.ibuf s.dt)).setResult
          (BitVec.ofNat 32 (frameLength s.dt))).complete

/-- CHUNK_FIND (43_container.md R177): not found is a result, not an error. -/
def execChunkFind (s : State) : Out :=
  .next <|
    match findFirst s.regs.type s.dt with
    | none => (s.setFound false).complete
    | some (i, d) => (((s.setFound true).setResult (BitVec.ofNat 32 i)).loadDesc d).complete

/-- CHUNK_REMOVE (43_container.md R178). -/
def execChunkRemove (s : State) : Out :=
  .next <|
    match findFirst s.regs.type s.dt with
    | none => s.raiseError .chunkNotFound s.regs.type
    | some (i, d) => (((s.setTable (s.dt.eraseIdx i)).loadDesc d).setResult (BitVec.ofNat 32 i)).complete

end Sys2Proof.Machine
end

