-- ==== Sys2Proof/Machine/CrcEngine.lean ====
section
/-!
DEFINITION. The meanings of the CRC commands (40_crc_engine.md R113, R114, R116).
-/

namespace Sys2Proof.Machine

/-- CRC_INIT (40_crc_engine.md R113). -/
def execCrcInit (s : State) : Out := .next (s.setCrcState s.regs.crcInit).complete

/-- CRC_BUF (40_crc_engine.md R114). -/
def execCrcBuf (s : State) : Out :=
  .next <|
    if s.windowOk then
      (s.setCrcState (crcRun s.regs.crcState s.window s.regs.crcPoly s.regs.refin)).complete
    else s.raiseError .rangeError 0

/-- CRC_CHECK (40_crc_engine.md R116). -/
def execCrcCheck (s : State) : Out :=
  .next (s.setMatch (s.crcResult == s.regs.crcExpect)).complete

end Sys2Proof.Machine
end

