-- ==== Sys2Proof/Machine/TypeCode.lean ====
section
/-!
DEFINITION. The meaning of TYPE_CHECK (41_typecode.md R138).
-/

namespace Sys2Proof.Machine

/-- TYPE_CHECK (41_typecode.md R138). -/
def execTypeCheck (s : State) : Out :=
  .next (if alphabetic s.regs.type then s.complete else s.raiseError .invalidTypeCode s.regs.type)

end Sys2Proof.Machine
end

