-- ==== Sys2Proof/Machine/Dispatch.lean ====
section
/-! DEFINITION. The meaning of every operation of spec/opcode_table.json, one arm each. -/

namespace Sys2Proof.Machine

/-- The meaning of an operation. A command's arm is the completion step of that command (60_exceptions.md R231). -/
def exec (i : Instr) (s : State) : Host.Outcome State Fault Refusal :=
  match i with
  | .nop => Sys2Proof.Machine.execNop s
  | .crcInit => Sys2Proof.Machine.execCrcInit s
  | .crcBuf => Sys2Proof.Machine.execCrcBuf s
  | .crcCheck => Sys2Proof.Machine.execCrcCheck s
  | .chunkNew => Sys2Proof.Machine.execChunkNew s
  | .chunkParse => Sys2Proof.Machine.execChunkParse s
  | .chunkSerialize idx => Sys2Proof.Machine.execChunkSerialize idx s
  | .descRead idx => Sys2Proof.Machine.execDescRead idx s
  | .typeCheck => Sys2Proof.Machine.execTypeCheck s
  | .frameClear => Sys2Proof.Machine.execFrameClear s
  | .frameParse => Sys2Proof.Machine.execFrameParse s
  | .frameSerialize => Sys2Proof.Machine.execFrameSerialize s
  | .chunkFind => Sys2Proof.Machine.execChunkFind s
  | .chunkRemove => Sys2Proof.Machine.execChunkRemove s
  | .crcDinWrite w v => Sys2Proof.Machine.execCrcDinWrite w v s
  | .statusW1c w v => Sys2Proof.Machine.execStatusW1c w v s
  | .ctrlWriteIrqEn w v => Sys2Proof.Machine.execCtrlWriteIrqEn w v s
  | .ctrlSoftReset w v => Sys2Proof.Machine.execCtrlSoftReset w v s
  | .cmdIssue w v => Sys2Proof.Machine.execCmdIssue w v s
  | .regRead off w => Sys2Proof.Machine.execRegRead off w s
  | .regWrite off w v => Sys2Proof.Machine.execRegWrite off w v s
  | .ibufWrite off w v => Sys2Proof.Machine.execIbufWrite off w v s
  | .bufRead b off w => Sys2Proof.Machine.execBufRead b off w s
  | .obufWrite off w v => Sys2Proof.Machine.execObufWrite off w v s

end Sys2Proof.Machine
end

