-- ==== Sys2Proof/Machine/Fetch.lean ====
section
/-!
DEFINITION. What the next step runs (20_memory.md R73, 60_exceptions.md R231). The block fetches no instructions
(20_memory.md R75): a command comes from PEND, a host access from the host.
-/

namespace Sys2Proof.Machine

/-- What the next step does. -/
inductive Turn
  /-- Nothing is pending and nothing arrives: the block is idle (60_exceptions.md R244). -/
  | idle
  /-- The engine completes an illegal command word (60_exceptions.md R228). -/
  | illegal (w : Word)
  /-- The engine performs a command, or the block a host access. -/
  | run (i : Instr)
  /-- The reset input is asserted (70_reset_and_hazards.md R255). -/
  | hardwareReset
  deriving DecidableEq, Repr

/-- The engine's turn: its completion step is enabled while PEND ≠ none (60_exceptions.md R231). -/
def engineTurn : Option Word → Turn
  | none => .idle
  | some w =>
    match decodeCommand w with
    | .ok i => .run i
    | .error _ => .illegal w

/-- Take what comes next. With nothing left to come the engine moves: a pending command completes eventually
(70_reset_and_hazards.md R267; log 2). -/
def State.fetch (s : State) : Turn × State :=
  match s.inputs with
  | [] => (engineTurn s.pend, s)
  | .engine :: rest => (engineTurn s.pend, { s with inputs := rest })
  | .access a :: rest => (.run (decodeAccess a), { s with inputs := rest })
  | .hardwareReset :: rest => (.hardwareReset, { s with inputs := rest })

/-- IllegalCommand: raised at decode, ERR_INFO = the command word (60_exceptions.md R228). -/
def State.raiseIllegal (s : State) (w : Word) : State := s.raiseError .illegalCommand w

end Sys2Proof.Machine
end

