-- ==== Sys2Proof/Machine/Step.lean ====
section
/-! DEFINITION. One step of the block: one host access, one completion step, one reset, or idling (20_memory.md
R73). -/

namespace Sys2Proof.Machine

/-- One step. -/
def step (s : State) : Host.Outcome State Fault Refusal :=
  match s.fetch with
  | (.idle, s') => .next s'
  | (.illegal w, s') => .next (s'.raiseIllegal w)
  | (.run i, s') => exec i s'
  | (.hardwareReset, s') => .next s'.hardwareReset

/-- The state in which the very next step is the completion step of the command word `w`: the state right after the
host wrote it to CMD (44_host_access.md R203), with the engine's turn next (log 10). -/
def State.withFetchWord (s : State) (nbits w : Nat) : State :=
  let s' := s.issue (BitVec.ofNat 32 (w % 2 ^ nbits))
  { s' with inputs := .engine :: s'.inputs }

end Sys2Proof.Machine
end

