-- ==== Sys2Proof/Safety.lean ====
section
/-!
DEFINITION. What holds of every state the block can be in (10_state.md R41, R47; 44_host_access.md R203;
60_exceptions.md R226, R229; 70_reset_and_hazards.md R261), in the terms statements use.
-/

namespace Sys2Proof.Machine

/-- The bytes of a buffer: the canonical form, and no address outside the buffer (10_state.md R45, R46). -/
structure Memory.InBounds (m : Memory) (size : Nat) : Prop where
  wf : m.wf
  below : ∀ c ∈ m.cells, c.1 < size

/-- Invariants (a) and (b) of 10_state.md R41, of one live descriptor. -/
structure Desc.Live (d : Desc) (ibufBytes : Nat) : Prop where
  alphabetic : alphabetic d.type = true
  inIbuf : d.inIbuf ibufBytes

/-- Invariant (c) of 10_state.md R41: the stored checksum is that of the type code and the payload. -/
def Desc.ChecksumHolds (d : Desc) (ibuf : Memory) : Prop :=
  d.crc = crcHdlc (typeBytes d.type ++ ibuf.readBytes d.paddr.toNat d.len.toNat)

/-- The invariant of the block. -/
structure Inv (s : State) : Prop where
  /-- 00_scope.md R9. -/
  params : s.params.wf
  ibuf : s.ibuf.InBounds s.params.ibufBytes
  obuf : s.obuf.InBounds s.params.obufBytes
  /-- 10_state.md R33, R41: at most MAX_CHUNKS descriptors. -/
  table : s.dt.length ≤ s.params.maxChunks
  /-- 10_state.md R41 (a), (b). -/
  live : ∀ d ∈ s.dt, d.Live s.params.ibufBytes
  /-- While BUSY = 1 the other STATUS fields are 0 (70_reset_and_hazards.md R261), and so are RESULT and ERR_INFO
  (44_host_access.md R203). -/
  busyClear : s.busy = true → s.regs.status = Status.clear ∧ s.regs.result = 0 ∧ s.regs.errInfo = 0
  /-- ERR = 0 exactly when ERRCODE = NONE (60_exceptions.md R226). -/
  errCode : s.regs.status.err = false ↔ s.regs.status.errcode = .none
  /-- When no error occurs, ERR_INFO is 0 (60_exceptions.md R229). -/
  noErrInfo : s.regs.status.err = false → s.regs.errInfo = 0
  /-- A command that raises an error leaves RESULT 0 (10_state.md R32), and MATCH and FOUND as the issue left
  them. -/
  errResult : s.regs.status.err = true →
    s.regs.result = 0 ∧ s.regs.status.matched = false ∧ s.regs.status.found = false
  /-- The draws that filled the buffers were taken before (log 4). -/
  epochs : s.ibuf.epoch < s.draws ∧ s.obuf.epoch < s.draws

end Sys2Proof.Machine
end

