-- ==== Sys2Proof/Certificates/Slice0/Obligations.lean ====
section
/-!
DEFINITION. The statements for the provers, from the numbered rules of spec/. The vocabulary under `Sys2Proof.Claims`
is written from the spec's own words, without the model's operations, so that a statement can be held against a rule.
-/

namespace Sys2Proof.Claims

open Sys2Proof.Machine

/-- The completion of a command with no error (60_exceptions.md R231). -/
def completed (s : State) : State :=
  { s with pend := none, regs := { s.regs with status := { s.regs.status with done := true } } }

/-- raise Error(code, info) (00_scope.md R15, 60_exceptions.md R231). -/
def failed (s : State) (code : ErrCode) (info : Word) : State :=
  { s with
    pend := none
    regs := { s.regs with
      errInfo := info
      status := { s.regs.status with done := true, err := true, errcode := code } } }

/-- The response to a host access (30_encoding.md R86). -/
def answered (s : State) (st : BusStatus) (data : Option Word) : State :=
  { s with resp := some { status := st, data := data } }

/-- ADDR, LEN and the sizes, as unbounded integers (00_scope.md R12). -/
def addr (s : State) : Nat := s.regs.addr.toNat

/-- LEN as an unbounded integer. -/
def len (s : State) : Nat := s.regs.len.toNat

/-- The window ADDR, LEN lies in IBUF (10_state.md R29). -/
def inRange (s : State) : Prop := addr s + len s ≤ s.params.ibufBytes

/-- The bytes at addresses a, …, a+n−1 (00_scope.md R13). -/
def bytesAt (m : Memory) (a n : Nat) : List Byte := (List.range n).map fun i => m.read (a + i)

/-- The number in a big-endian field (00_scope.md R14). -/
def field (m : Memory) (a : Nat) : Nat :=
  (m.read a).toNat * 2 ^ 24 + (m.read (a + 1)).toNat * 2 ^ 16 + (m.read (a + 2)).toNat * 2 ^ 8 + (m.read (a + 3)).toNat

/-- BE32 (00_scope.md R14): byte i of four, the most significant first. -/
def beByte (v : Word) (i : Nat) : Byte := BitVec.ofNat 8 (v.toNat / 2 ^ (8 * (3 - i)))

/-- BE32 as a byte sequence. -/
def be (v : Word) : List Byte := [beByte v 0, beByte v 1, beByte v 2, beByte v 3]

/-- An ASCII letter (41_typecode.md R130). -/
def letter (b : Byte) : Prop := (0x41 ≤ b.toNat ∧ b.toNat ≤ 0x5A) ∨ (0x61 ≤ b.toNat ∧ b.toNat ≤ 0x7A)

/-- An alphabetic type code (41_typecode.md R130). -/
def letters (t : Word) : Prop := ∀ b ∈ be t, letter b

/-- crc32_hdlc (40_crc_engine.md R111): crc_step over the bytes from 0xFFFFFFFF with the fixed constants, reflected,
inverted. -/
def crc32 (bytes : List Byte) : Word :=
  reflect32 (bytes.foldl (fun c b => crcStep c b 0x04C11DB7 true) 0xFFFFFFFF) ^^^ 0xFFFFFFFF

/-- The bytes of a record of a descriptor whose payload is in `m` (42_chunk.md R140). -/
def recordBytes (m : Memory) (d : Desc) : List Byte :=
  be d.len ++ be d.type ++ bytesAt m d.paddr.toNat d.len.toNat ++ be d.crc

/-- The length of a frame (43_container.md R175). -/
def frameSize (ds : List Desc) : Nat := 8 + (ds.map fun d => 12 + d.len.toNat).sum

/-- Invariant (c) of 10_state.md R41. -/
def checksumGood (m : Memory) (d : Desc) : Prop :=
  d.crc = crc32 (be d.type ++ bytesAt m d.paddr.toNat d.len.toNat)

/-- A record at IBUF address q with `avail` bytes available is complete (42_chunk.md R142). -/
def complete (m : Memory) (q avail : Nat) : Prop := 4 ≤ avail ∧ 12 + field m q ≤ avail

/-- The stored checksum of the complete record at q is that of its type and payload bytes (42_chunk.md R142). -/
def checksumMatches (m : Memory) (q : Nat) : Prop :=
  (crc32 (bytesAt m (q + 4) (4 + field m q))).toNat = field m (q + 8 + field m q)

/-- The type code of the record at q. -/
def typeAt (m : Memory) (q : Nat) : Word := BitVec.ofNat 32 (field m (q + 4))

/-- The record parser rejects the record at q, with this error (42_chunk.md R142, R151). -/
def recordError (m : Memory) (q avail : Nat) (code : ErrCode) : Prop :=
  (¬ complete m q avail ∧ code = .truncatedInput) ∨
  (complete m q avail ∧ ¬ checksumMatches m q ∧ code = .checksumMismatch) ∨
  (complete m q avail ∧ checksumMatches m q ∧ ¬ letters (typeAt m q) ∧ code = .invalidTypeCode)

/-- The record parser accepts the record at q (42_chunk.md R142). -/
def recordGood (m : Memory) (q avail : Nat) : Prop :=
  complete m q avail ∧ checksumMatches m q ∧ letters (typeAt m q)

/-- The descriptor of the record at q (42_chunk.md R142). -/
def descAt (m : Memory) (q : Nat) : Desc where
  len := BitVec.ofNat 32 (field m q)
  type := typeAt m q
  crc := BitVec.ofNat 32 (field m (q + 8 + field m q))
  paddr := BitVec.ofNat 32 (q + 8)

/-- Good records from offset p of the window (a, n) up to its offset q, and their descriptors in stream order
(30_encoding.md R88, 43_container.md R172). -/
def records (m : Memory) (a n : Nat) : (p q : Nat) → List Desc → Prop
  | p, q, [] => p = q
  | p, q, d :: ds =>
    p < n ∧ recordGood m (a + p) (n - p) ∧ d = descAt m (a + p) ∧ records m a n (p + 12 + field m (a + p)) q ds

/-- The first 8 bytes of the window are there and are PREAMBLE (43_container.md R171). -/
def preambleThere (s : State) : Prop := 8 ≤ len s ∧ bytesAt s.ibuf (addr s) 8 = s.params.preamble.toList

/-- The engine moves next, and what stays in the queue (log 2). -/
def engineNext (s : State) (rest : List Event) : Prop :=
  s.inputs = .engine :: rest ∨ (s.inputs = [] ∧ rest = [])

/-- The illegal command words (30_encoding.md R94). -/
def illegalWord (w : Word) : Prop :=
  let opc := w.toNat % 2 ^ 8
  let idx := w.toNat / 2 ^ 8 % 2 ^ 16
  let rsv := w.toNat / 2 ^ 24
  (0x04 ≤ opc ∧ opc ≤ 0x0F) ∨ (0x15 ≤ opc ∧ opc ≤ 0x1F) ∨ 0x25 ≤ opc ∨ rsv ≠ 0 ∨
    (idx ≠ 0 ∧ opc ≠ 0x12 ∧ opc ≠ 0x13)

/-- The operations that the engine performs: the command rows of the opcode table. -/
def isCommand : Instr → Prop
  | .nop => True
  | .crcInit => True
  | .crcBuf => True
  | .crcCheck => True
  | .chunkNew => True
  | .chunkParse => True
  | .chunkSerialize _ => True
  | .descRead _ => True
  | .typeCheck => True
  | .frameClear => True
  | .frameParse => True
  | .frameSerialize => True
  | .chunkFind => True
  | .chunkRemove => True
  | .crcDinWrite _ _ => False
  | .statusW1c _ _ => False
  | .ctrlWriteIrqEn _ _ => False
  | .ctrlSoftReset _ _ => False
  | .cmdIssue _ _ => False
  | .regRead _ _ => False
  | .regWrite _ _ _ => False
  | .ibufWrite _ _ _ => False
  | .bufRead _ _ _ => False
  | .obufWrite _ _ _ => False

/-- The place of a host access. -/
def placeOf : Access → Place
  | .read p _ => p
  | .write p _ _ => p

/-- A legal host access to a place (20_memory.md R61, R62). -/
def legalAt (s : State) : Place → Width → Prop
  | .reg off, w => w = .word ∧ off.toNat % 4 = 0
  | .buf .ibuf off, w => off % w.bytes = 0 ∧ off + w.bytes ≤ s.params.ibufBytes
  | .buf .obuf off, w => off % w.bytes = 0 ∧ off + w.bytes ≤ s.params.obufBytes

/-- Every register at its reset value (10_state.md R21; 70_reset_and_hazards.md R255). -/
def resetRegs : Regs where
  irqEn := false
  status := { done := false, err := false, matched := false, found := false, errcode := .none }
  errInfo := 0
  result := 0
  addr := 0
  len := 0
  type := 0
  crcPoly := 0x04C11DB7
  crcInit := 0xFFFFFFFF
  crcXorout := 0xFFFFFFFF
  refin := true
  refout := true
  crcState := 0xFFFFFFFF
  crcExpect := 0
  desc := { len := 0, type := 0, crc := 0, paddr := 0 }

/-- A pending command word is CHUNK_SERIALIZE or FRAME_SERIALIZE (30_encoding.md R92, R94). -/
def serializerPending (s : State) : Prop :=
  ∃ w, s.pend = some w ∧ (w = 0x22 ∨ (w.toNat % 2 ^ 8 = 0x12 ∧ w.toNat / 2 ^ 24 = 0))

/-- The number of STATUS.ERRCODE (60_exceptions.md R226). -/
def errorNumber : ErrCode → Nat
  | .none => 0
  | .invalidTypeCode => 1
  | .truncatedInput => 2
  | .checksumMismatch => 3
  | .badPreamble => 4
  | .chunkNotFound => 5
  | .illegalCommand => 8
  | .rangeError => 9
  | .tableFull => 10
  | .outputOverflow => 11

/-- The STATUS word (10_state.md R26). -/
def statusWord (s : State) : Word :=
  BitVec.ofNat 32
    (s.pend.isSome.toNat + 2 * s.regs.status.done.toNat + 4 * s.regs.status.err.toNat +
      8 * s.regs.status.matched.toNat + 16 * s.regs.status.found.toNat + 256 * errorNumber s.regs.status.errcode)

/-- PREAMBLE_HI and PREAMBLE_LO (10_state.md R24): be32 of four bytes of PREAMBLE, from index i. -/
def preambleWord (s : State) (i : Nat) : Word :=
  BitVec.ofNat 32 (((s.params.preamble.toList.drop i).take 4).foldl (fun acc b => acc * 256 + b.toNat) 0)

/-- The registers that a read returns unspecified while BUSY = 1 (70_reset_and_hazards.md R261), with their offsets
(10_state.md R21) and their values while BUSY = 0. -/
def busyFreeReads : List (RegOffset × (State → Word)) :=
  [(0x02C, fun s => s.regs.errInfo), (0x030, fun s => s.regs.result),
   (0x034, fun s => BitVec.ofNat 32 s.dt.length), (0x070, fun s => s.regs.crcState),
   (0x074, fun s => (if s.regs.refout then reflect32 s.regs.crcState else s.regs.crcState) ^^^ s.regs.crcXorout),
   (0x080, fun s => s.regs.desc.len), (0x084, fun s => s.regs.desc.type), (0x088, fun s => s.regs.desc.crc),
   (0x08C, fun s => s.regs.desc.paddr)]

/-- The other registers, whose reads return the same whatever BUSY is (10_state.md R21 to R44). TYPE_FLAGS (0x04C)
has a statement of its own. -/
def plainReads : List (RegOffset × (State → Word)) :=
  [(0x000, fun _ => 0x43524346), (0x004, fun _ => 0x00010000),
   (0x008, fun s => BitVec.ofNat 32 s.params.ibufBytes), (0x00C, fun s => BitVec.ofNat 32 s.params.obufBytes),
   (0x010, fun s => BitVec.ofNat 32 s.params.maxChunks), (0x014, fun s => preambleWord s 0),
   (0x018, fun s => preambleWord s 4), (0x020, fun s => BitVec.ofNat 32 s.regs.irqEn.toNat),
   (0x024, statusWord), (0x028, fun _ => 0), (0x040, fun s => s.regs.addr), (0x044, fun s => s.regs.len),
   (0x048, fun s => s.regs.type), (0x060, fun s => s.regs.crcPoly), (0x064, fun s => s.regs.crcInit),
   (0x068, fun s => s.regs.crcXorout),
   (0x06C, fun s => BitVec.ofNat 32 (s.regs.refin.toNat + 2 * s.regs.refout.toNat)), (0x078, fun _ => 0),
   (0x07C, fun s => s.regs.crcExpect)]

/-- The RW registers that a plain write sets (44_host_access.md R201). -/
def plainWrites : List (RegOffset × (Word → Regs → Regs)) :=
  [(0x040, fun v r => { r with addr := v }), (0x044, fun v r => { r with len := v }),
   (0x048, fun v r => { r with type := v }), (0x060, fun v r => { r with crcPoly := v }),
   (0x064, fun v r => { r with crcInit := v }), (0x068, fun v r => { r with crcXorout := v }),
   (0x06C, fun v r => { r with refin := v.getLsbD 0, refout := v.getLsbD 1 }),
   (0x070, fun v r => { r with crcState := v }), (0x07C, fun v r => { r with crcExpect := v })]

/-- The offsets with a write row of their own: CTRL, STATUS, CMD, CRC_DIN. -/
def ownWriteRows : List RegOffset := [0x020, 0x024, 0x028, 0x078]

/-- The host writes command word `w` to CMD and the engine then has its turn. -/
def issueAndRun (w : Word) (s : State) : Out :=
  core.run 2 { s with inputs := [.access (.write (.reg 0x028) .word w), .engine] }

/-- A host write that feeds one byte to CRC_DIN (40_crc_engine.md R112). -/
def dinWrite (b : Byte) : Event := .access (.write (.reg 0x078) .word (BitVec.ofNat 32 b.toNat))

/-- The two ways to feed bytes to the programmable engine (40_crc_engine.md R117). -/
inductive Feed
  | din
  | buf

/-- Feed the IBUF bytes from address p, part after part: a part of n bytes by n host writes to CRC_DIN, or by one
CRC_BUF over its window (40_crc_engine.md R112, R114). -/
def feed : (p : Nat) → List (Feed × Nat) → State → Out
  | _, [], s => .next s
  | p, (.din, n) :: parts, s =>
    match core.run n { s with inputs := (bytesAt s.ibuf p n).map dinWrite } with
    | .next t => feed (p + n) parts t
    | .fault f => .fault f
    | .refused r => .refused r
  | p, (.buf, n) :: parts, s =>
    match exec .crcBuf { s with regs := { s.regs with addr := BitVec.ofNat 32 p, len := BitVec.ofNat 32 n } } with
    | .next t => feed (p + n) parts t
    | .fault f => .fault f
    | .refused r => .refused r

/-- A CRC configuration and state: POLY, INIT, XOROUT, REFIN, REFOUT, STATE and EXPECT. -/
structure CrcRegs where
  poly : Word
  init : Word
  xorout : Word
  refin : Bool
  refout : Bool
  state : Word
  expect : Word

/-- A state with other CRC registers. -/
def withCrc (c : CrcRegs) (s : State) : State :=
  { s with
    regs := { s.regs with
      crcPoly := c.poly
      crcInit := c.init
      crcXorout := c.xorout
      refin := c.refin
      refout := c.refout
      crcState := c.state
      crcExpect := c.expect } }

/-- An outcome with other CRC registers. -/
def outWithCrc (c : CrcRegs) : Out → Out
  | .next t => .next (withCrc c t)
  | .fault f => .fault f
  | .refused r => .refused r

/-- One byte of the reflected implementation (40_crc_engine.md R115). -/
def reflectedStep (poly r : Word) (b : Byte) : Word :=
  (fun x : Word => if x.getLsbD 0 then (x >>> 1) ^^^ reflect32 poly else x >>> 1)^[8] (r ^^^ b.setWidth 32)

/-- The final value of the CRC model over the nine bytes of "123456789" (40_crc_engine.md R118). -/
def checkValue (poly init : Word) (refin refout : Bool) (xorout : Word) : Word :=
  crcFinal (crcRun init [0x31, 0x32, 0x33, 0x34, 0x35, 0x36, 0x37, 0x38, 0x39] poly refin) refout xorout

end Sys2Proof.Claims

open Sys2Proof Sys2Proof.Machine Sys2Proof.Claims

/-! ### Encoding and the step -/

/-- Decoding undoes encoding, for every well-formed operation and every operand (30_encoding.md R86, R90, R92). -/
def Obligations.DecodeOfEncodeIsTheInstruction : Prop :=
  ∀ i : Instr, wellFormed i = true → decode (encode i) = .ok i

/-- Encoding undoes decoding: no bit of a code is dropped and every decoded operation is well-formed. -/
def Obligations.EncodeOfDecodeIsTheCode : Prop :=
  ∀ (c : Code) (i : Instr), decode c = .ok i → encode i = c ∧ wellFormed i = true

/-- Words and accesses written out from 30_encoding.md R90, R92, R98 and 10_state.md R21 decode to what they stand
for. -/
def Obligations.SpecEncodingsDecode : Prop :=
  decode (.command 0x00000000) = .ok .nop ∧ decode (.command 0x00000002) = .ok .crcBuf ∧
  decode (.command 0x00000014) = .ok .typeCheck ∧ decode (.command 0x00000112) = .ok (.chunkSerialize 1) ∧
  decode (.command 0x00FFFF13) = .ok (.descRead 0xFFFF) ∧ decode (.command 0x00000021) = .ok .frameParse ∧
  decode (.access (.write (.reg 0x078) .word 0x31)) = .ok (.crcDinWrite .word 0x31) ∧
  decode (.access (.write (.reg 0x020) .word 0x3)) = .ok (.ctrlSoftReset .word 0x3) ∧
  decode (.access (.read (.buf .obuf 4) .half)) = .ok (.bufRead .obuf 4 .half)

/-- 30_encoding.md R94: the illegal words are exactly these, and each raises IllegalCommand with ERR_INFO = the
word. -/
def Obligations.IllegalWordsRaiseIllegalCommand : Prop :=
  (∀ (w : Word) (s : State) (rest : List Event), illegalWord w → s.pend = some w → engineNext s rest →
    step s = .next (failed { s with inputs := rest } .illegalCommand w)) ∧
  ∀ w : Word, ¬ illegalWord w → ∃ i, isCommand i ∧ decode (.command w) = .ok i

/-- A step runs what comes next: when the engine moves and the pending word decodes, the step is the meaning of the
decoded command; when a host access arrives, it is the meaning of the decoded access. The step adds only that the
event is taken from the queue (log 2). -/
def Obligations.StepPerformsWhatComesNext : Prop :=
  (∀ (s : State) (rest : List Event) (w : Word) (i : Instr), engineNext s rest → s.pend = some w →
    decode (.command w) = .ok i → step s = exec i { s with inputs := rest }) ∧
  ∀ (s : State) (rest : List Event) (a : Access) (i : Instr), s.inputs = .access a :: rest →
    decode (.access a) = .ok i → step s = exec i { s with inputs := rest }

/-- With nothing pending an engine turn changes nothing (60_exceptions.md R244: while idle the block keeps all its
state). -/
def Obligations.IdleEngineKeepsState : Prop :=
  ∀ (s : State) (rest : List Event), engineNext s rest → s.pend = none →
    step s = .next { s with inputs := rest }

/-! ### Reset -/

/-- A hardware reset (70_reset_and_hazards.md R255). The buffers' bytes are the free bytes of two new draws, which is
the model's form of "any value per byte" (log 4). -/
def Obligations.HardwareResetSetsEverything : Prop :=
  ∀ (s : State) (rest : List Event), s.inputs = .hardwareReset :: rest →
    ∃ t, step s = .next t ∧ t.regs = resetRegs ∧ t.dt = [] ∧ t.pend = none ∧ t.irq = false ∧
      (∀ a, t.ibuf.read a = Config.unspecifiedByte s.draws a) ∧
      (∀ a, t.obuf.read a = Config.unspecifiedByte (s.draws + 1) a) ∧ t.draws = s.draws + 2 ∧
      t.params = s.params ∧ t.inputs = rest ∧ t.resp = s.resp

/-- What the host reads right after reset (10_state.md R21, 95_test_vectors.md V-RST-1), at every REG offset. The
capability and preamble values are those of the reference instance (log 1). -/
def Obligations.ReadsAfterReset : Prop :=
  ∀ off : RegOffset, off.toNat % 4 = 0 →
    exec (.regRead off .word) State.reset =
      .next (answered State.reset .okay (some
        (if off = 0x000 then 0x43524346 else if off = 0x004 then 0x00010000 else if off = 0x008 then 65536
         else if off = 0x00C then 65536 else if off = 0x010 then 64 else if off = 0x014 then 0x89504E47
         else if off = 0x018 then 0x0D0A1A0A else if off = 0x060 then 0x04C11DB7 else if off = 0x064 then 0xFFFFFFFF
         else if off = 0x068 then 0xFFFFFFFF else if off = 0x06C then 3 else if off = 0x070 then 0xFFFFFFFF
         else 0)))

/-- A soft reset (44_host_access.md R207, 70_reset_and_hazards.md R256), performed even while BUSY = 1. OBUF's bytes
after an aborted serializer are those of a new draw (log 4). -/
def Obligations.SoftResetSetsRegistersAndKeepsIbuf : Prop :=
  ∀ (s : State) (v : Word), v.getLsbD 1 = true →
    ∃ t, exec (.ctrlSoftReset .word v) s = .next t ∧
      t = { s with
        regs := resetRegs, dt := [], pend := none, obuf := t.obuf, draws := t.draws
        resp := some { status := .okay, data := none } } ∧
      (¬ serializerPending s → t.obuf = s.obuf ∧ t.draws = s.draws) ∧
      (serializerPending s → (∀ a, t.obuf.read a = Config.unspecifiedByte s.draws a) ∧ t.draws = s.draws + 1)

/-! ### The invariant, safety and progress -/

/-- The invariant holds at reset. -/
def Obligations.InvariantHoldsAtReset : Prop := Inv State.reset

/-- Every step keeps the invariant: canonical buffers inside their sizes, at most MAX_CHUNKS descriptors, each
alphabetic and inside IBUF (10_state.md R41 (a), (b)), STATUS, RESULT and ERR_INFO consistent. -/
def Obligations.EveryStepKeepsTheInvariant : Prop :=
  ∀ s t : State, Inv s → step s = .next t → Inv t

/-- No error stops the block (60_exceptions.md R225): from a state with the invariant every step answers a next
state. -/
def Obligations.NoStepStopsTheBlock : Prop :=
  ∀ s : State, Inv s → ∃ t, step s = .next t

/-- A pending command completes eventually (70_reset_and_hazards.md R267): whatever still arrives, the block is idle
after it and one more engine turn. The bound is the model's (log 2). -/
def Obligations.PendingCommandCompletes : Prop :=
  ∀ s : State, Inv s → ∃ t, core.run (s.inputs.length + 1) s = .next t ∧ t.pend = none ∧ t.inputs = []

/-! ### Buffers -/

/-- IBUF_WRITE (44_host_access.md R208). -/
def Obligations.IbufWriteStoresItsLanes : Prop :=
  ∀ (s : State) (off : Nat) (w : Width) (v : Word),
    (legalAt s (.buf .ibuf off) w → s.pend = none →
      ∃ t, exec (.ibufWrite off w v) s = .next t ∧
        t = { s with ibuf := t.ibuf, resp := some { status := .okay, data := none } } ∧
        (∀ i < w.bytes, t.ibuf.read (off + i) = BitVec.ofNat 8 (v.toNat / 2 ^ (8 * i))) ∧
        ∀ x, x < off ∨ off + w.bytes ≤ x → t.ibuf.read x = s.ibuf.read x) ∧
    (legalAt s (.buf .ibuf off) w → s.pend ≠ none → exec (.ibufWrite off w v) s = .next (answered s .okay none)) ∧
    (¬ legalAt s (.buf .ibuf off) w → s.pend = none → exec (.ibufWrite off w v) s = .next (answered s .error none))

/-- OBUF_WRITE (44_host_access.md R210). -/
def Obligations.ObufWriteStoresItsLanes : Prop :=
  ∀ (s : State) (off : Nat) (w : Width) (v : Word),
    (legalAt s (.buf .obuf off) w → s.pend = none →
      ∃ t, exec (.obufWrite off w v) s = .next t ∧
        t = { s with obuf := t.obuf, resp := some { status := .okay, data := none } } ∧
        (∀ i < w.bytes, t.obuf.read (off + i) = BitVec.ofNat 8 (v.toNat / 2 ^ (8 * i))) ∧
        ∀ x, x < off ∨ off + w.bytes ≤ x → t.obuf.read x = s.obuf.read x) ∧
    (legalAt s (.buf .obuf off) w → s.pend ≠ none → exec (.obufWrite off w v) s = .next (answered s .okay none)) ∧
    (¬ legalAt s (.buf .obuf off) w → s.pend = none → exec (.obufWrite off w v) s = .next (answered s .error none))

/-- BUF_READ (44_host_access.md R209): the little-endian value; while BUSY = 1 an OBUF read returns some value. -/
def Obligations.BufferReadReturnsItsLanes : Prop :=
  ∀ (s : State) (b : Buffer) (off : Nat) (w : Width),
    (legalAt s (.buf b off) w →
      ∃ t v, exec (.bufRead b off w) s = .next t ∧
        t = { s with resp := some { status := .okay, data := some v }, draws := t.draws } ∧
        ((s.pend = none ∨ b = .ibuf) → t.draws = s.draws ∧
          v.toNat = ((List.range w.bytes).map fun i => ((s.bufOf b).read (off + i)).toNat * 2 ^ (8 * i)).sum)) ∧
    (¬ legalAt s (.buf b off) w → exec (.bufRead b off w) s = .next (answered s .error (some 0)))

/-- 20_memory.md R65: a read at any width and offset inside a written word returns the written bytes there, as byte
accesses would. -/
def Obligations.MixedWidthAccessesSeeTheSameBytes : Prop :=
  ∀ (s t : State) (off i : Nat) (v : Word) (w : Width), s.pend = none → legalAt s (.buf .ibuf off) .word →
    i + w.bytes ≤ 4 → i % w.bytes = 0 → exec (.ibufWrite off .word v) s = .next t →
    exec (.bufRead .ibuf (off + i) w) t =
      .next (answered t .okay (some (BitVec.ofNat 32 (v.toNat / 2 ^ (8 * i) % 2 ^ (8 * w.bytes)))))

/-- 20_memory.md R63, R68: an illegal access gets a bus error and changes no state; a read returns data 0. -/
def Obligations.IllegalAccessIsABusError : Prop :=
  ∀ (s : State) (p : Place) (w : Width), ¬ legalAt s p w →
    exec (decodeAccess (.read p w)) s = .next (answered s .error (some 0)) ∧
    (s.pend = none → ∀ v, exec (decodeAccess (.write p w v)) s = .next (answered s .error none))

/-- An illegal write while BUSY = 1 gets the bus error, not the OKAY response of an ignored write. That is the model's
reading of 20_memory.md R63 against 44_host_access.md R202 (log 7). -/
def Obligations.IllegalWriteWhileBusyIsABusError : Prop :=
  ∀ (s : State) (p : Place) (w : Width) (v : Word), ¬ legalAt s p w → s.pend ≠ none →
    exec (decodeAccess (.write p w v)) s = .next (answered s .error none)

/-- 20_memory.md R70: no host read has a side effect. Only the response and the model's count of draws change. -/
def Obligations.ReadsHaveNoSideEffect : Prop :=
  ∀ (s : State) (p : Place) (w : Width), ∃ t r, exec (decodeAccess (.read p w)) s = .next t ∧
    t = { s with resp := some r, draws := t.draws } ∧ (s.pend = none → t.draws = s.draws)

/-! ### Host accesses to registers -/

/-- CRC_DIN_WRITE (40_crc_engine.md R112). -/
def Obligations.CrcDinWriteFeedsOneByte : Prop :=
  ∀ (s : State) (v : Word),
    (∀ w, decode (.access (.write (.reg 0x078) w v)) = .ok (.crcDinWrite w v)) ∧
    (s.pend = none → exec (.crcDinWrite .word v) s =
      .next (answered { s with regs := { s.regs with
        crcState := crcStep s.regs.crcState (BitVec.ofNat 8 v.toNat) s.regs.crcPoly s.regs.refin } } .okay none)) ∧
    (s.pend ≠ none → exec (.crcDinWrite .word v) s = .next (answered s .okay none)) ∧
    ∀ w, w ≠ .word → s.pend = none → exec (.crcDinWrite w v) s = .next (answered s .error none)

/-- STATUS_W1C (44_host_access.md R206). -/
def Obligations.StatusWriteClearsDoneOnly : Prop :=
  ∀ (s : State) (v : Word),
    (∀ w, decode (.access (.write (.reg 0x024) w v)) = .ok (.statusW1c w v)) ∧
    (s.pend = none → exec (.statusW1c .word v) s =
      .next (answered { s with regs := { s.regs with
        status := { s.regs.status with done := s.regs.status.done && !v.getLsbD 1 } } } .okay none)) ∧
    (s.pend ≠ none → exec (.statusW1c .word v) s = .next (answered s .okay none)) ∧
    ∀ w, w ≠ .word → s.pend = none → exec (.statusW1c w v) s = .next (answered s .error none)

/-- CTRL_WRITE_IRQ_EN (44_host_access.md R205): performed even while BUSY = 1; IRQ follows at once. With data bit 1
set the soft reset comes after, so IRQ_EN ends 0 (R207). -/
def Obligations.CtrlWriteSetsIrqEnable : Prop :=
  ∀ (s : State) (v : Word),
    (∀ w, decode (.access (.write (.reg 0x020) w v)) =
      .ok (if v.getLsbD 1 then .ctrlSoftReset w v else .ctrlWriteIrqEn w v)) ∧
    (v.getLsbD 1 = false →
      (∃ t, exec (.ctrlWriteIrqEn .word v) s = .next t ∧
        t = answered { s with regs := { s.regs with irqEn := v.getLsbD 0 } } .okay none ∧
        t.irq = (v.getLsbD 0 && s.regs.status.done)) ∧
      ∀ w, w ≠ .word → s.pend = none → exec (.ctrlWriteIrqEn w v) s = .next (answered s .error none)) ∧
    (v.getLsbD 1 = true →
      (∃ t, exec (.ctrlSoftReset .word v) s = .next t ∧ t.regs = resetRegs ∧ t.irq = false ∧
        t.resp = some { status := .okay, data := none }) ∧
      ∀ w, w ≠ .word → s.pend = none → exec (.ctrlSoftReset w v) s = .next (answered s .error none))

/-- CMD_ISSUE (44_host_access.md R203): the issue effects, IRQ low; a write while BUSY = 1 is lost. An illegal word
is issued too. -/
def Obligations.CmdWriteIssuesTheCommand : Prop :=
  ∀ (s : State) (w : Word),
    (∀ x, decode (.access (.write (.reg 0x028) x w)) = .ok (.cmdIssue x w)) ∧
    (s.pend = none → ∃ t, exec (.cmdIssue .word w) s = .next t ∧ t.irq = false ∧
      t = answered { s with
        pend := some w
        regs := { s.regs with
          result := 0
          errInfo := 0
          status := { done := false, err := false, matched := false, found := false, errcode := .none } } }
        .okay none) ∧
    (s.pend ≠ none → exec (.cmdIssue .word w) s = .next (answered s .okay none)) ∧
    ∀ x, x ≠ .word → s.pend = none → exec (.cmdIssue x w) s = .next (answered s .error none)

/-- REG_WRITE (44_host_access.md R201): the RW registers take the value, every other offset without a write row of
its own ignores it, and the four offsets with one are those operations. -/
def Obligations.RegisterWriteSetsRwRegisters : Prop :=
  ∀ (s : State) (v : Word),
    (∀ (off : RegOffset) (w : Width), decode (.access (.write (.reg off) w v)) =
      .ok (if off = 0x020 then (if v.getLsbD 1 then .ctrlSoftReset w v else .ctrlWriteIrqEn w v)
        else if off = 0x024 then .statusW1c w v else if off = 0x028 then .cmdIssue w v
        else if off = 0x078 then .crcDinWrite w v else .regWrite off w v)) ∧
    (s.pend = none → ∀ p ∈ plainWrites,
      exec (.regWrite p.1 .word v) s = .next (answered { s with regs := p.2 v s.regs } .okay none)) ∧
    (s.pend = none → ∀ off : RegOffset, off.toNat % 4 = 0 → off ∉ plainWrites.map Prod.fst → off ∉ ownWriteRows →
      exec (.regWrite off .word v) s = .next (answered s .okay none)) ∧
    (s.pend ≠ none → ∀ off : RegOffset, off.toNat % 4 = 0 → off ∉ ownWriteRows →
      exec (.regWrite off .word v) s = .next (answered s .okay none)) ∧
    ∀ (off : RegOffset) (w : Width), ¬ legalAt s (.reg off) w → s.pend = none →
      exec (.regWrite off w v) s = .next (answered s .error none)

/-- REG_READ (44_host_access.md R200): every register of 10_state.md R21 reads its value while BUSY = 0, the ones
that R261 does not name do so while BUSY = 1 too, and every unlisted offset reads 0. -/
def Obligations.RegisterReadReturnsTheValue : Prop :=
  ∀ s : State,
    (∀ p ∈ plainReads, exec (.regRead p.1 .word) s = .next (answered s .okay (some (p.2 s)))) ∧
    (s.pend = none → ∀ p ∈ busyFreeReads, exec (.regRead p.1 .word) s = .next (answered s .okay (some (p.2 s)))) ∧
    (∀ off : RegOffset, off.toNat % 4 = 0 → off ∉ plainReads.map Prod.fst → off ∉ busyFreeReads.map Prod.fst →
      off ≠ 0x04C → exec (.regRead off .word) s = .next (answered s .okay (some 0))) ∧
    ∀ (off : RegOffset) (w : Width), ¬ legalAt s (.reg off) w →
      exec (.regRead off w) s = .next (answered s .error (some 0))

/-- 70_reset_and_hazards.md R261: while BUSY = 1 reads of the result registers and of OBUF return a free value, a
fresh draw each (log 5); STATUS reads 1; IBUF reads its stored bytes. -/
def Obligations.ReadsWhileBusyAreFreshDraws : Prop :=
  ∀ s : State, Inv s → s.pend ≠ none →
    (∀ p ∈ busyFreeReads, exec (.regRead p.1 .word) s =
      .next (answered { s with draws := s.draws + 1 } .okay (some (Config.unspecifiedWord s.draws)))) ∧
    (∀ off w, legalAt s (.buf .obuf off) w → exec (.bufRead .obuf off w) s =
      .next (answered { s with draws := s.draws + 1 } .okay
        (some (BitVec.ofNat 32 ((Config.unspecifiedWord s.draws).toNat % 2 ^ (8 * w.bytes)))))) ∧
    exec (.regRead 0x024 .word) s = .next (answered s .okay (some 1)) ∧
    ∀ off, off < s.params.ibufBytes → exec (.bufRead .ibuf off .byte) s =
      .next (answered s .okay (some (BitVec.ofNat 32 (s.ibuf.read off).toNat)))

/-- 44_host_access.md R202: while BUSY = 1 every legal host write but a CTRL write has an OKAY response and no
effect; a CTRL write is performed. -/
def Obligations.WritesWhileBusyAreIgnored : Prop :=
  ∀ (s : State) (v : Word), s.pend ≠ none →
    (∀ (p : Place) (w : Width), legalAt s p w → p ≠ .reg 0x020 →
      exec (decodeAccess (.write p w v)) s = .next (answered s .okay none)) ∧
    ∃ t, exec (decodeAccess (.write (.reg 0x020) .word v)) s = .next t ∧
      (v.getLsbD 1 = false → t = answered { s with regs := { s.regs with irqEn := v.getLsbD 0 } } .okay none) ∧
      (v.getLsbD 1 = true → t.pend = none ∧ t.dt = [] ∧ t.regs = resetRegs)

/-- TYPE_FLAGS (41_typecode.md R132, R137): the read value's bits, for every TYPE. A letter is uppercase when it is
at most 0x5A (R131). -/
def Obligations.TypeFlagsFollowLetterCase : Prop :=
  ∀ s : State, ∃ f : Word, exec (.regRead 0x04C .word) s = .next (answered s .okay (some f)) ∧
    (f.getLsbD 0 = true ↔ letters s.regs.type) ∧
    (f.getLsbD 1 = true ↔ letters s.regs.type ∧ (beByte s.regs.type 0).toNat ≤ 0x5A) ∧
    (f.getLsbD 2 = true ↔ letters s.regs.type ∧ (beByte s.regs.type 1).toNat ≤ 0x5A) ∧
    (f.getLsbD 3 = true ↔ letters s.regs.type ∧ (beByte s.regs.type 2).toNat ≤ 0x5A) ∧
    (f.getLsbD 4 = true ↔ letters s.regs.type ∧ 0x61 ≤ (beByte s.regs.type 3).toNat) ∧
    f.getLsbD 5 = f.getLsbD 3 ∧ f.toNat < 2 ^ 6

/-! ### Commands -/

/-- NOP (44_host_access.md R204), CRC_INIT (40_crc_engine.md R113) and FRAME_CLEAR (43_container.md R170), which
always complete. -/
def Obligations.NopCrcInitAndFrameClearComplete : Prop :=
  decode (.command 0x00000000) = .ok .nop ∧ decode (.command 0x00000001) = .ok .crcInit ∧
  decode (.command 0x00000020) = .ok .frameClear ∧
  (∀ w : Word, w ≠ 0 → w.toNat % 2 ^ 8 = 0 → ∃ e, decode (.command w) = .error e) ∧
  ∀ s : State,
    exec .nop s = .next (completed s) ∧
    exec .crcInit s = .next (completed { s with regs := { s.regs with crcState := s.regs.crcInit } }) ∧
    exec .frameClear s = .next (completed { s with dt := [] })

/-- CRC_BUF (40_crc_engine.md R114). -/
def Obligations.CrcBufRunsOverTheWindow : Prop :=
  decode (.command 0x00000002) = .ok .crcBuf ∧
  ∀ s : State,
    (inRange s → exec .crcBuf s =
      .next (completed { s with regs := { s.regs with
        crcState := (bytesAt s.ibuf (addr s) (len s)).foldl
          (fun c b => crcStep c b s.regs.crcPoly s.regs.refin) s.regs.crcState } })) ∧
    (¬ inRange s → exec .crcBuf s = .next (failed s .rangeError 0))

/-- CRC_CHECK (40_crc_engine.md R116). -/
def Obligations.CrcCheckComparesWithExpect : Prop :=
  decode (.command 0x00000003) = .ok .crcCheck ∧
  ∀ s : State, ∃ t, exec .crcCheck s = .next t ∧
    t = completed { s with regs := { s.regs with status := { s.regs.status with matched := t.regs.status.matched } } } ∧
    (t.regs.status.matched = true ↔
      (if s.regs.refout then reflect32 s.regs.crcState else s.regs.crcState) ^^^ s.regs.crcXorout =
        s.regs.crcExpect)

/-- TYPE_CHECK (41_typecode.md R138). -/
def Obligations.TypeCheckAcceptsLettersOnly : Prop :=
  decode (.command 0x00000014) = .ok .typeCheck ∧
  ∀ s : State,
    (letters s.regs.type → exec .typeCheck s = .next (completed s)) ∧
    (¬ letters s.regs.type → exec .typeCheck s = .next (failed s .invalidTypeCode s.regs.type))

/-- CHUNK_NEW (42_chunk.md R141), with its errors in their order. -/
def Obligations.ChunkNewAppendsADescriptor : Prop :=
  decode (.command 0x00000010) = .ok .chunkNew ∧
  ∀ s : State,
    (¬ inRange s → exec .chunkNew s = .next (failed s .rangeError 0)) ∧
    (inRange s → ¬ letters s.regs.type → exec .chunkNew s = .next (failed s .invalidTypeCode s.regs.type)) ∧
    (inRange s → letters s.regs.type → s.dt.length = s.params.maxChunks →
      exec .chunkNew s = .next (failed s .tableFull 0)) ∧
    (inRange s → letters s.regs.type → s.dt.length ≠ s.params.maxChunks →
      ∃ d : Desc, d.len = s.regs.len ∧ d.type = s.regs.type ∧ d.paddr = s.regs.addr ∧ checksumGood s.ibuf d ∧
        exec .chunkNew s = .next (completed { s with
          dt := s.dt ++ [d]
          regs := { s.regs with desc := d, result := BitVec.ofNat 32 s.dt.length } }))

/-- CHUNK_PARSE (42_chunk.md R142, R143, R151), with its errors in their order. -/
def Obligations.ChunkParseParsesOneRecord : Prop :=
  decode (.command 0x00000011) = .ok .chunkParse ∧
  ∀ s : State,
    (¬ inRange s → exec .chunkParse s = .next (failed s .rangeError 0)) ∧
    (inRange s → ∀ code, recordError s.ibuf (addr s) (len s) code →
      exec .chunkParse s = .next (failed s code s.regs.addr)) ∧
    (inRange s → recordGood s.ibuf (addr s) (len s) → s.dt.length = s.params.maxChunks →
      exec .chunkParse s = .next (failed s .tableFull s.regs.addr)) ∧
    (inRange s → recordGood s.ibuf (addr s) (len s) → s.dt.length ≠ s.params.maxChunks →
      exec .chunkParse s = .next (completed { s with
        dt := s.dt ++ [descAt s.ibuf (addr s)]
        regs := { s.regs with
          desc := descAt s.ibuf (addr s)
          result := BitVec.ofNat 32 (12 + field s.ibuf (addr s)) } }))

/-- CHUNK_SERIALIZE (42_chunk.md R144) of a live descriptor (10_state.md R41 (b)). -/
def Obligations.ChunkSerializeWritesTheRecord : Prop :=
  ∀ (s : State) (idx : BitVec 16),
    decode (.command (BitVec.ofNat 32 (idx.toNat * 2 ^ 8 + 0x12))) = .ok (.chunkSerialize idx) ∧
    (s.dt.length ≤ idx.toNat →
      exec (.chunkSerialize idx) s = .next (failed s .rangeError (BitVec.ofNat 32 idx.toNat))) ∧
    ∀ d, s.dt[idx.toNat]? = some d → s.params.wf → d.Live s.params.ibufBytes →
      (s.params.obufBytes < 12 + d.len.toNat → exec (.chunkSerialize idx) s =
        .next (failed s .outputOverflow (BitVec.ofNat 32 (12 + d.len.toNat)))) ∧
      (12 + d.len.toNat ≤ s.params.obufBytes →
        ∃ t, exec (.chunkSerialize idx) s = .next t ∧
          t = completed { s with
            obuf := t.obuf, regs := { s.regs with result := BitVec.ofNat 32 (12 + d.len.toNat) } } ∧
          (∀ i < 4, t.obuf.read i = beByte d.len i ∧ t.obuf.read (4 + i) = beByte d.type i ∧
            t.obuf.read (8 + d.len.toNat + i) = beByte d.crc i) ∧
          (∀ i < d.len.toNat, t.obuf.read (8 + i) = s.ibuf.read (d.paddr.toNat + i)) ∧
          ∀ x, 12 + d.len.toNat ≤ x → t.obuf.read x = s.obuf.read x)

/-- DESC_READ (42_chunk.md R145). -/
def Obligations.DescReadLoadsTheDescriptor : Prop :=
  ∀ (s : State) (idx : BitVec 16),
    decode (.command (BitVec.ofNat 32 (idx.toNat * 2 ^ 8 + 0x13))) = .ok (.descRead idx) ∧
    (s.dt.length ≤ idx.toNat →
      exec (.descRead idx) s = .next (failed s .rangeError (BitVec.ofNat 32 idx.toNat))) ∧
    ∀ d, s.dt[idx.toNat]? = some d → exec (.descRead idx) s =
      .next (completed { s with regs := { s.regs with desc := d, result := BitVec.ofNat 32 idx.toNat } })

/-- FRAME_PARSE (43_container.md R171, R172, R174): a window outside IBUF, a window without the preamble, a frame of
good records, and the first record in stream order that is bad or does not fit in the table. -/
def Obligations.FrameParseParsesInStreamOrder : Prop :=
  decode (.command 0x00000021) = .ok .frameParse ∧
  ∀ s : State, s.params.wf →
    (¬ inRange s → exec .frameParse s = .next (failed { s with dt := [] } .rangeError 0)) ∧
    (inRange s → ¬ preambleThere s →
      exec .frameParse s = .next (failed { s with dt := [] } .badPreamble s.regs.addr)) ∧
    (inRange s → preambleThere s → ∀ ds, ds.length ≤ s.params.maxChunks →
      (records s.ibuf (addr s) (len s) 8 (len s) ds → exec .frameParse s =
        .next (completed { s with dt := ds, regs := { s.regs with result := BitVec.ofNat 32 ds.length } })) ∧
      ∀ p, p < len s → records s.ibuf (addr s) (len s) 8 p ds →
        (∀ code, recordError s.ibuf (addr s + p) (len s - p) code →
          exec .frameParse s = .next (failed { s with dt := [] } code (BitVec.ofNat 32 (addr s + p)))) ∧
        (recordGood s.ibuf (addr s + p) (len s - p) → ds.length = s.params.maxChunks →
          exec .frameParse s = .next (failed { s with dt := [] } .tableFull (BitVec.ofNat 32 (addr s + p)))))

/-- FRAME_PARSE succeeds only on a frame: the window is PREAMBLE and then the records of the new table, in stream
order, to its end (30_encoding.md R88; 43_container.md R172). -/
def Obligations.FrameParseAcceptsOnlyFrames : Prop :=
  ∀ s t : State, s.regs.status.err = false → exec .frameParse s = .next t → t.regs.status.err = false →
    inRange s ∧ preambleThere s ∧ records s.ibuf (addr s) (len s) 8 (len s) t.dt ∧
      (s.params.wf → bytesAt s.ibuf (addr s) (len s) =
        s.params.preamble.toList ++ t.dt.flatMap (recordBytes s.ibuf)) ∧
      t = completed { s with dt := t.dt, regs := { s.regs with result := BitVec.ofNat 32 t.dt.length } }

/-- 43_container.md R173: a FRAME_PARSE that raises any error leaves DT empty, RESULT as the issue left it (0), and
everything else but STATUS and ERR_INFO unchanged. -/
def Obligations.FrameParseErrorsEmptyTheTable : Prop :=
  ∀ s t : State, s.regs.status.err = false → s.regs.result = 0 → exec .frameParse s = .next t →
    t.regs.status.err = true →
    t.dt = [] ∧ t.regs.result = 0 ∧ t.regs.desc = s.regs.desc ∧ t.ibuf = s.ibuf ∧ t.obuf = s.obuf ∧
      t = failed { s with dt := [] } t.regs.status.errcode t.regs.errInfo

/-- FRAME_SERIALIZE (43_container.md R175) of a table of live descriptors (10_state.md R41 (b)). -/
def Obligations.FrameSerializeWritesTheFrame : Prop :=
  decode (.command 0x00000022) = .ok .frameSerialize ∧
  ∀ s : State,
    (s.params.obufBytes < frameSize s.dt → exec .frameSerialize s =
      .next (failed s .outputOverflow (BitVec.ofNat 32 (min (frameSize s.dt) 0xFFFFFFFF)))) ∧
    (frameSize s.dt ≤ s.params.obufBytes → (∀ d ∈ s.dt, d.Live s.params.ibufBytes) →
      ∃ t, exec .frameSerialize s = .next t ∧
        t = completed { s with
          obuf := t.obuf, regs := { s.regs with result := BitVec.ofNat 32 (frameSize s.dt) } } ∧
        bytesAt t.obuf 0 (frameSize s.dt) = s.params.preamble.toList ++ s.dt.flatMap (recordBytes s.ibuf) ∧
        ∀ x, frameSize s.dt ≤ x → t.obuf.read x = s.obuf.read x)

/-- A serializer of a descriptor whose payload leaves IBUF stops with the model's one fault (log 9). No reachable state
holds such a descriptor (10_state.md R41 (b), EveryStepKeepsTheInvariant). -/
def Obligations.SerializersStopOutsideIbuf : Prop :=
  ∀ s : State,
    (∀ (idx : BitVec 16) (d : Desc), s.dt[idx.toNat]? = some d → 12 + d.len.toNat ≤ s.params.obufBytes →
      s.params.ibufBytes < d.paddr.toNat + d.len.toNat →
      exec (.chunkSerialize idx) s = .fault (.engineReadOutsideIbuf d.paddr.toNat)) ∧
    (frameSize s.dt ≤ s.params.obufBytes → (∃ d ∈ s.dt, s.params.ibufBytes < d.paddr.toNat + d.len.toNat) →
      ∃ d ∈ s.dt, s.params.ibufBytes < d.paddr.toNat + d.len.toNat ∧
        exec .frameSerialize s = .fault (.engineReadOutsideIbuf d.paddr.toNat))

/-- CHUNK_FIND (43_container.md R177): the least index, or FOUND = 0. -/
def Obligations.ChunkFindFindsTheFirstMatch : Prop :=
  decode (.command 0x00000023) = .ok .chunkFind ∧
  ∀ s : State,
    (∀ i d, s.dt[i]? = some d → d.type = s.regs.type →
      (∀ j < i, ∀ e, s.dt[j]? = some e → e.type ≠ s.regs.type) →
      exec .chunkFind s = .next (completed { s with
        regs := { s.regs with
          desc := d
          result := BitVec.ofNat 32 i
          status := { s.regs.status with found := true } } })) ∧
    (((∀ d ∈ s.dt, d.type ≠ s.regs.type) ∨
        (¬ letters s.regs.type ∧ ∀ d ∈ s.dt, d.Live s.params.ibufBytes)) → exec .chunkFind s =
      .next (completed { s with regs := { s.regs with status := { s.regs.status with found := false } } }))

/-- CHUNK_REMOVE (43_container.md R178): the least index, the others keep their order; or ChunkNotFound. -/
def Obligations.ChunkRemoveRemovesTheFirstMatch : Prop :=
  decode (.command 0x00000024) = .ok .chunkRemove ∧
  ∀ s : State,
    (∀ before d after, s.dt = before ++ d :: after → d.type = s.regs.type →
      (∀ e ∈ before, e.type ≠ s.regs.type) →
      exec .chunkRemove s = .next (completed { s with
        dt := before ++ after
        regs := { s.regs with desc := d, result := BitVec.ofNat 32 before.length } })) ∧
    (((∀ d ∈ s.dt, d.type ≠ s.regs.type) ∨
        (¬ letters s.regs.type ∧ ∀ d ∈ s.dt, d.Live s.params.ibufBytes)) →
      exec .chunkRemove s = .next (failed s .chunkNotFound s.regs.type))

/-! ### Rules of the whole machine -/

/-- 60_exceptions.md R231: after every command PEND is none, DONE is set and IRQ is IRQ_EN; the engine changes no
IBUF byte, no parameter and nothing of the host port; only the serializers change OBUF (00_scope.md R13,
10_state.md R45, R46). -/
def Obligations.EveryCommandCompletesAndKeepsIbuf : Prop :=
  ∀ (i : Instr) (s t : State), isCommand i → exec i s = .next t →
    t.pend = none ∧ t.regs.status.done = true ∧ t.irq = s.regs.irqEn ∧ t.ibuf = s.ibuf ∧ t.params = s.params ∧
      t.inputs = s.inputs ∧ t.resp = s.resp ∧ t.draws = s.draws ∧
      (t.obuf ≠ s.obuf → i = .frameSerialize ∨ ∃ idx, i = .chunkSerialize idx)

/-- 60_exceptions.md R232: errors are precise. A failing command writes STATUS and ERR_INFO only, and FRAME_PARSE
also empties DT. -/
def Obligations.ErrorsArePrecise : Prop :=
  ∀ (i : Instr) (s t : State), isCommand i → s.regs.status.err = false → exec i s = .next t →
    t.regs.status.err = true →
    t = failed { s with dt := if i = .frameParse then [] else s.dt } t.regs.status.errcode t.regs.errInfo

/-- 10_state.md R41: only CHUNK_NEW, CHUNK_PARSE, FRAME_PARSE, FRAME_CLEAR and CHUNK_REMOVE change DT, and reset
empties it; and every descriptor that a command adds satisfies (a), (b) and (c). -/
def Obligations.OnlyFiveCommandsChangeTheTable : Prop :=
  ∀ (i : Instr) (s t : State), wellFormed i = true → s.params.wf → exec i s = .next t →
    (t.dt ≠ s.dt →
      i = .chunkNew ∨ i = .chunkParse ∨ i = .frameParse ∨ i = .frameClear ∨ i = .chunkRemove ∨
        (t.dt = [] ∧ ∃ w v, i = .ctrlSoftReset w v)) ∧
    ∀ d ∈ t.dt, d ∉ s.dt → letters d.type ∧ d.inIbuf s.params.ibufBytes ∧ checksumGood s.ibuf d

/-- 10_state.md R38, R42, R51: what changes CRC_STATE, what loads DESC_*, and what sets MATCH and FOUND. -/
def Obligations.WhatChangesResultRegisters : Prop :=
  ∀ (i : Instr) (s t : State), wellFormed i = true → exec i s = .next t →
    (t.regs.crcState ≠ s.regs.crcState →
      i = .crcInit ∨ i = .crcBuf ∨ (∃ w v, i = .crcDinWrite w v) ∨ (∃ w v, i = .regWrite 0x070 w v) ∨
        ∃ w v, i = .ctrlSoftReset w v) ∧
    (t.regs.desc ≠ s.regs.desc →
      i = .chunkNew ∨ i = .chunkParse ∨ (∃ idx, i = .descRead idx) ∨ i = .chunkFind ∨ i = .chunkRemove ∨
        ∃ w v, i = .ctrlSoftReset w v) ∧
    (t.regs.status.matched = true → s.regs.status.matched = true ∨ i = .crcCheck) ∧
    (t.regs.status.found = true → s.regs.status.found = true ∨ i = .chunkFind)

/-- 40_crc_engine.md R111: crc32_hdlc is the fixed function, and the chunk and frame commands never read the
programmable CRC registers and never change them. -/
def Obligations.FrameCommandsIgnoreTheCrcEngine : Prop :=
  (∀ bytes : List Byte, crcHdlc bytes = crcFinal (crcRun 0xFFFFFFFF bytes 0x04C11DB7 true) true 0xFFFFFFFF ∧
    crcHdlc bytes = crc32 bytes) ∧
  crc32 [0x31, 0x32, 0x33, 0x34, 0x35, 0x36, 0x37, 0x38, 0x39] = 0xCBF43926 ∧
  ∀ (i : Instr) (s : State) (c : CrcRegs), isCommand i → i ≠ .crcInit → i ≠ .crcBuf → i ≠ .crcCheck →
    exec i (withCrc c s) = outWithCrc c (exec i s)

/-- 20_memory.md R75: whatever the host does between issue and completion, short of a soft reset, the pending command,
its operands and the IBUF bytes cannot change; only IRQ_EN, the response and the model's count of draws can. -/
def Obligations.PendingOperandsAreFrozen : Prop :=
  ∀ (s t : State) (as : List Access), s.pend ≠ none →
    (∀ w v, .write (.reg 0x020) w v ∈ as → v.getLsbD 1 = false) →
    core.run as.length { s with inputs := as.map .access } = .next t →
    t = { s with
      inputs := [], resp := t.resp, draws := t.draws, regs := { s.regs with irqEn := t.regs.irqEn } }

/-- 95_test_vectors.md V-HAZ-1: FRAME_CLEAR then CHUNK_NEW with no poll between. Both end states of the rule are
reached, according to whether the engine moved in between. -/
def Obligations.SecondCommandIsTakenOrLost : Prop :=
  ∀ s : State, Inv s → s.pend = none → s.regs.type = 0x49454E44 → s.regs.addr = 0 → s.regs.len = 0 →
    (∃ t, core.run 3 { s with inputs := [.access (.write (.reg 0x028) .word 0x20),
        .access (.write (.reg 0x028) .word 0x10), .engine] } = .next t ∧
      t.pend = none ∧ t.dt = [] ∧ t.regs.result = 0 ∧ t.regs.desc = s.regs.desc) ∧
    ∃ t, core.run 4 { s with inputs := [.access (.write (.reg 0x028) .word 0x20), .engine,
        .access (.write (.reg 0x028) .word 0x10), .engine] } = .next t ∧
      t.pend = none ∧ t.regs.result = 0 ∧
      t.dt = [{ len := 0, type := 0x49454E44, crc := 0xAE426082, paddr := 0 }]

/-! ### The CRC -/

/-- The arithmetic of 40_crc_engine.md R110, on numbers and bits. -/
def Obligations.CrcStepIsTheParameterisedModel : Prop :=
  (∀ poly s : Word, (crcShift poly s).toNat =
    if 2 ^ 31 ≤ s.toNat then (2 * s.toNat % 2 ^ 32) ^^^ poly.toNat else 2 * s.toNat % 2 ^ 32) ∧
  (∀ (s poly : Word) (b : Byte) (refin : Bool), crcStep s b poly refin =
    (crcShift poly)^[8] (s ^^^ BitVec.ofNat 32 ((if refin then reflect8 b else b).toNat * 2 ^ 24))) ∧
  (∀ (b : Byte) (i : Nat), i < 8 → (reflect8 b).getLsbD i = b.getLsbD (7 - i)) ∧
  (∀ (v : Word) (i : Nat), i < 32 → (reflect32 v).getLsbD i = v.getLsbD (31 - i)) ∧
  (∀ (s poly : Word) (bytes : List Byte) (refin : Bool),
    crcRun s bytes poly refin = bytes.foldl (fun c b => crcStep c b poly refin) s) ∧
  ∀ (s xorout : Word) (refout : Bool), crcFinal s refout xorout = (if refout then reflect32 s else s) ^^^ xorout

/-- 40_crc_engine.md R117: a message fed through CRC_DIN, through CRC_BUF, or in any mix of the two leaves the
CRC_STATE of one CRC_BUF over the whole message. -/
def Obligations.SplitFeedingLeavesTheSameCrcState : Prop :=
  (∀ (s poly : Word) (a b : List Byte) (f : Bool),
    crcRun s (a ++ b) poly f = crcRun (crcRun s a poly f) b poly f ∧ crcRun s [] poly f = s) ∧
  ∀ (s : State) (parts : List (Feed × Nat)), s.pend = none → s.params.wf → inRange s →
    (parts.map Prod.snd).sum = len s →
    ∃ t v, feed (addr s) parts s = .next t ∧ exec .crcBuf s = .next v ∧ t.regs.crcState = v.regs.crcState ∧
      t.regs.status.err = s.regs.status.err

/-- 40_crc_engine.md R115: the reflected register gives the same final value, for every polynomial. -/
def Obligations.ReflectedImplementationAgrees : Prop :=
  reflect32 0x04C11DB7 = 0xEDB88320 ∧
  ∀ (poly s xorout : Word) (bytes : List Byte),
    bytes.foldl (reflectedStep poly) (reflect32 s) ^^^ xorout = crcFinal (crcRun s bytes poly true) true xorout

/-- 40_crc_engine.md R118: CRC_INIT and then CRC_BUF compute the CRC that CRC_POLY, CRC_INIT, CRC_XOROUT and CRC_CFG
describe, and the presets over "123456789" give their check values. -/
def Obligations.ProgrammableEngineComputesEveryCrc : Prop :=
  (∀ s : State, inRange s → ∃ t u, exec .crcInit s = .next t ∧ exec .crcBuf t = .next u ∧
    exec (.regRead 0x074 .word) u = .next (answered u .okay (some
      (crcFinal (crcRun s.regs.crcInit (bytesAt s.ibuf (addr s) (len s)) s.regs.crcPoly s.regs.refin)
        s.regs.refout s.regs.crcXorout)))) ∧
  checkValue 0x04C11DB7 0xFFFFFFFF true true 0xFFFFFFFF = 0xCBF43926 ∧
  checkValue 0x04C11DB7 0xFFFFFFFF false false 0xFFFFFFFF = 0xFC891918 ∧
  checkValue 0x04C11DB7 0xFFFFFFFF false false 0x00000000 = 0x0376E6E7 ∧
  checkValue 0x04C11DB7 0xFFFFFFFF true true 0x00000000 = 0x340BC6D9 ∧
  checkValue 0x04C11DB7 0x00000000 false false 0xFFFFFFFF = 0x765E7680 ∧
  checkValue 0x1EDC6F41 0xFFFFFFFF true true 0xFFFFFFFF = 0xE3069283 ∧
  checkValue 0x04C11DB7 0xFFFFFFFF true false 0xFFFFFFFF = 0x649C2FD3 ∧
  checkValue 0x04C11DB7 0xFFFFFFFF false true 0xFFFFFFFF = 0x1898913F

/-! ### The laws of records and frames -/

/-- 42_chunk.md R147: a serialized live chunk, copied into IBUF, parses back to the same length, type and payload. -/
def Obligations.ChunkRoundTrip : Prop :=
  ∀ (s t u : State) (idx : BitVec 16) (d : Desc) (b : Nat), s.params.wf → s.dt[idx.toNat]? = some d →
    d.Live s.params.ibufBytes → checksumGood s.ibuf d → s.regs.status.err = false →
    exec (.chunkSerialize idx) s = .next t → t.regs.status.err = false →
    u.params = s.params → u.dt.length < u.params.maxChunks → addr u = b → len u = 12 + d.len.toNat → inRange u →
    (∀ i < 12 + d.len.toNat, u.ibuf.read (b + i) = t.obuf.read i) →
    ∃ d', d' = { len := d.len, type := d.type, crc := d.crc, paddr := BitVec.ofNat 32 (b + 8) } ∧
      bytesAt u.ibuf d'.paddr.toNat d'.len.toNat = bytesAt s.ibuf d.paddr.toNat d.len.toNat ∧
      exec .chunkParse u = .next (completed { u with
        dt := u.dt ++ [d']
        regs := { u.regs with desc := d', result := BitVec.ofNat 32 (12 + d.len.toNat) } })

/-- 42_chunk.md R148: a record whose checksum field has one changed byte fails with ChecksumMismatch. -/
def Obligations.CorruptedChecksumFails : Prop :=
  ∀ (m : Memory) (d : Desc) (u : State) (k : Nat), checksumGood m d → inRange u → len u = 12 + d.len.toNat →
    8 + d.len.toNat ≤ k → k < 12 + d.len.toNat →
    (∀ i < 12 + d.len.toNat, i ≠ k → some (u.ibuf.read (addr u + i)) = (recordBytes m d)[i]?) →
    some (u.ibuf.read (addr u + k)) ≠ (recordBytes m d)[k]? →
    exec .chunkParse u = .next (failed u .checksumMismatch u.regs.addr)

/-- 42_chunk.md R149: a window that holds a proper prefix of a record fails with TruncatedInput. R150: so does a
declared length above 2^31 − 1. -/
def Obligations.TruncatedRecordFails : Prop :=
  (∀ (m : Memory) (d : Desc) (u : State), inRange u → len u < 12 + d.len.toNat →
    (∀ i < len u, some (u.ibuf.read (addr u + i)) = (recordBytes m d)[i]?) →
    exec .chunkParse u = .next (failed u .truncatedInput u.regs.addr)) ∧
  ∀ u : State, u.params.wf → inRange u → 2 ^ 31 ≤ field u.ibuf (addr u) →
    exec .chunkParse u = .next (failed u .truncatedInput u.regs.addr)

/-- 43_container.md R176: the frame of a table of live, checksum-good descriptors, copied into IBUF, parses back to
the same lengths, types, checksums and payloads, in the same order. -/
def Obligations.FrameRoundTrip : Prop :=
  ∀ (s t u : State), s.params.wf → (∀ d ∈ s.dt, d.Live s.params.ibufBytes ∧ checksumGood s.ibuf d) →
    s.dt.length ≤ s.params.maxChunks → s.regs.status.err = false → exec .frameSerialize s = .next t →
    t.regs.status.err = false → u.params = s.params → len u = frameSize s.dt → inRange u →
    u.regs.status.err = false → (∀ i < frameSize s.dt, u.ibuf.read (addr u + i) = t.obuf.read i) →
    ∃ v, exec .frameParse u = .next v ∧ v.regs.status.err = false ∧
      v.regs.result = BitVec.ofNat 32 s.dt.length ∧
      v.dt.map (fun d => (d.len, d.type, d.crc, bytesAt v.ibuf d.paddr.toNat d.len.toNat)) =
        s.dt.map fun d => (d.len, d.type, d.crc, bytesAt s.ibuf d.paddr.toNat d.len.toNat)

/-- 43_container.md R181: append, find, remove, find, remove. -/
def Obligations.AppendFindRemoveScenario : Prop :=
  ∀ s : State, s.pend = none → inRange s → letters s.regs.type → s.dt.length < s.params.maxChunks →
    s.params.wf → (∀ d ∈ s.dt, d.type ≠ s.regs.type) →
    ∃ s1 s2 s3 s4 s5, issueAndRun 0x10 s = .next s1 ∧ issueAndRun 0x23 s1 = .next s2 ∧
      issueAndRun 0x24 s2 = .next s3 ∧ issueAndRun 0x23 s3 = .next s4 ∧ issueAndRun 0x24 s4 = .next s5 ∧
      s1.regs.result.toNat = s.dt.length ∧ s1.regs.status.err = false ∧
      s2.regs.status.found = true ∧ s2.regs.result = s1.regs.result ∧ s2.regs.desc = s1.regs.desc ∧
      s3.regs.result = s1.regs.result ∧ s3.dt = s.dt ∧ s4.regs.status.found = false ∧
      s5.regs.status.errcode = .chunkNotFound ∧ s5.regs.errInfo = s.regs.type
end

