-- ==== Sys2Proof/Laws/Memory.lean ====
section
/-!
SUPPORT. Laws of the buffers: read after write, the canonical form, and byte sequences.
-/

namespace Sys2Proof.Machine

theorem cellLookup_cellInsert (x a : Nat) (v : Byte) (cs : List Host.Cell) :
    cellLookup (cellInsert a v cs) x = if x = a then some v else cellLookup cs x := by
  induction cs with
  | nil => simp [cellInsert, cellLookup]
  | cons c cs ih =>
    obtain ⟨b, u⟩ := c
    simp only [cellInsert]
    split
    · simp [cellLookup]
    · split
      · rename_i h
        subst h
        by_cases hx : x = a <;> simp [cellLookup, hx]
      · by_cases hx : x = b
        · subst hx
          have : x ≠ a := by omega
          simp [cellLookup, this]
        · simp [cellLookup, hx, ih]

theorem mem_cellInsert {a : Nat} {v : Byte} {cs : List Host.Cell} {c : Host.Cell}
    (h : c ∈ cellInsert a v cs) : c = (a, v) ∨ c ∈ cs := by
  induction cs with
  | nil => simpa [cellInsert] using h
  | cons d cs ih =>
    simp only [cellInsert] at h
    split at h
    · simpa using h
    · split at h
      · rcases List.mem_cons.1 h with h | h
        · exact .inl h
        · exact .inr (List.mem_cons_of_mem _ h)
      · rcases List.mem_cons.1 h with h | h
        · exact .inr (h ▸ List.mem_cons_self)
        · exact (ih h).imp id (List.mem_cons_of_mem _)

theorem cellInsert_sorted {a : Nat} {v : Byte} {cs : List Host.Cell}
    (h : cs.Pairwise fun x y => x.1 < y.1) : (cellInsert a v cs).Pairwise fun x y => x.1 < y.1 := by
  induction cs with
  | nil => simp [cellInsert]
  | cons d cs ih =>
    obtain ⟨hd, hcs⟩ := List.pairwise_cons.1 h
    simp only [cellInsert]
    split
    · rename_i hlt
      refine List.pairwise_cons.2 ⟨fun y hy => ?_, h⟩
      rcases List.mem_cons.1 hy with rfl | hy
      · exact hlt
      · exact Nat.lt_trans hlt (hd y hy)
    · split
      · rename_i _ heq
        exact List.pairwise_cons.2 ⟨fun y hy => heq ▸ hd y hy, hcs⟩
      · rename_i hlt hne
        refine List.pairwise_cons.2 ⟨fun y hy => ?_, ih hcs⟩
        rcases mem_cellInsert hy with rfl | hy
        · show d.1 < a
          omega
        · exact hd y hy

namespace Memory

@[simp] theorem epoch_write (m : Memory) (a : Nat) (v : Byte) : (m.write a v).epoch = m.epoch := rfl

theorem read_write (m : Memory) (a x : Nat) (v : Byte) :
    (m.write a v).read x = if x = a then v else m.read x := by
  simp only [read, write, cellLookup_cellInsert]
  split <;> rfl

theorem wf_write {m : Memory} (h : m.wf) (a : Nat) (v : Byte) : (m.write a v).wf :=
  cellInsert_sorted h

theorem InBounds.write {m : Memory} {size : Nat} (h : m.InBounds size) {a : Nat} (ha : a < size) (v : Byte) :
    (m.write a v).InBounds size :=
  ⟨wf_write h.wf a v, fun c hc => (mem_cellInsert hc).elim (fun e => e ▸ ha) (h.below c)⟩

@[simp] theorem epoch_writeBytes (m : Memory) (a : Nat) (bs : List Byte) :
    (m.writeBytes a bs).epoch = m.epoch := by
  induction bs generalizing m a with
  | nil => rfl
  | cons b bs ih => simp [writeBytes, ih]

theorem wf_writeBytes {m : Memory} (h : m.wf) (a : Nat) (bs : List Byte) : (m.writeBytes a bs).wf := by
  induction bs generalizing m a with
  | nil => exact h
  | cons b bs ih => exact ih (wf_write h a b) _

theorem InBounds.writeBytes {m : Memory} {size : Nat} (h : m.InBounds size) {a : Nat} {bs : List Byte}
    (ha : a + bs.length ≤ size) : (m.writeBytes a bs).InBounds size := by
  induction bs generalizing m a with
  | nil => exact h
  | cons b bs ih =>
    simp only [List.length_cons] at ha
    exact ih (h.write (by omega) b) (by omega)

theorem InBounds.unspecified (d size : Nat) : (Memory.unspecified d).InBounds size :=
  ⟨List.Pairwise.nil, fun _ hc => absurd hc List.not_mem_nil⟩

theorem read_unspecified (d a : Nat) : (Memory.unspecified d).read a = Config.unspecifiedByte d a := rfl

/-- A byte sequence written from `a` is read back there, and every other address reads as before. -/
theorem read_writeBytes (m : Memory) (a x : Nat) (bs : List Byte) :
    (m.writeBytes a bs).read x =
      if a ≤ x then (bs[x - a]?).getD (m.read x) else m.read x := by
  induction bs generalizing m a with
  | nil => simp [writeBytes]
  | cons b bs ih =>
    rw [writeBytes, ih, read_write]
    by_cases h1 : a + 1 ≤ x
    · have h2 : x - a = x - (a + 1) + 1 := by omega
      have h3 : x ≠ a := by omega
      have h4 : a ≤ x := by omega
      simp [h1, h2, h3, h4]
    · by_cases h2 : x = a
      · subst h2
        simp
      · have h3 : ¬ a ≤ x := by omega
        simp [h1, h2, h3]

theorem read_writeBytes_inside (m : Memory) (a i : Nat) (bs : List Byte) (h : i < bs.length) :
    (m.writeBytes a bs).read (a + i) = bs[i] := by
  rw [read_writeBytes, if_pos (Nat.le_add_right a i), Nat.add_sub_cancel_left, List.getElem?_eq_getElem h,
    Option.getD_some]

theorem read_writeBytes_outside (m : Memory) (a x : Nat) (bs : List Byte) (h : x < a ∨ a + bs.length ≤ x) :
    (m.writeBytes a bs).read x = m.read x := by
  rw [read_writeBytes]
  split
  · rw [List.getElem?_eq_none (by omega), Option.getD_none]
  · rfl

@[simp] theorem length_readBytes (m : Memory) (a n : Nat) : (m.readBytes a n).length = n := by
  induction n generalizing a with
  | zero => rfl
  | succ n ih => simp [readBytes, ih]

theorem getElem_readBytes (m : Memory) (a n i : Nat) (h : i < (m.readBytes a n).length) :
    (m.readBytes a n)[i] = m.read (a + i) := by
  induction n generalizing a i with
  | zero => simp [readBytes] at h
  | succ n ih =>
    cases i with
    | zero => rfl
    | succ i =>
      simp only [readBytes, List.getElem_cons_succ]
      rw [ih]
      congr 1
      omega

theorem readBytes_congr {m m' : Memory} {a a' n : Nat} (h : ∀ i < n, m.read (a + i) = m'.read (a' + i)) :
    m.readBytes a n = m'.readBytes a' n := by
  refine List.ext_getElem (by simp) fun i h1 h2 => ?_
  rw [getElem_readBytes, getElem_readBytes]
  exact h i (by simpa using h1)

theorem readBytes_add (m : Memory) (a n k : Nat) :
    m.readBytes a (n + k) = m.readBytes a n ++ m.readBytes (a + n) k := by
  induction n generalizing a with
  | zero => simp [readBytes]
  | succ n ih =>
    rw [Nat.succ_add, readBytes, ih, readBytes, List.cons_append, show a + 1 + n = a + (n + 1) by omega]

/-- Reading back the bytes just written. -/
theorem readBytes_writeBytes (m : Memory) (a : Nat) (bs : List Byte) :
    (m.writeBytes a bs).readBytes a bs.length = bs := by
  refine List.ext_getElem (by simp) fun i h1 h2 => ?_
  rw [getElem_readBytes, read_writeBytes_inside m a i bs h2]

end Memory

end Sys2Proof.Machine
end

