-- ==== Sys2Proof/Laws/Bytes.lean ====
section
/-!
SUPPORT. Laws of byte order (00_scope.md R14, 20_memory.md R61).
-/

namespace Sys2Proof.Machine

@[simp] theorem length_beBytes (v : Word) : (beBytes v).length = 4 := rfl

@[simp] theorem length_typeBytes (v : Word) : (typeBytes v).length = 4 := rfl

@[simp] theorem length_laneBytes (n : Nat) (v : Word) : (laneBytes n v).length = n := by
  simp [laneBytes]

theorem getElem_laneBytes (n : Nat) (v : Word) (i : Nat) (h : i < (laneBytes n v).length) :
    (laneBytes n v)[i] = v.extractLsb' (8 * i) 8 := by
  simp [laneBytes]

/-- be32 undoes BE32. -/
theorem be32_beBytes (v : Word) :
    be32 (v.extractLsb' 24 8) (v.extractLsb' 16 8) (v.extractLsb' 8 8) (v.extractLsb' 0 8) = v := by
  apply BitVec.eq_of_getLsbD_eq
  intro i hi
  simp only [be32, BitVec.getLsbD_append, BitVec.getLsbD_extractLsb']
  by_cases h0 : i < 8
  · simp [h0]
  · by_cases h1 : i < 16
    · have : i - 8 < 8 := by omega
      simp [h0, this, show 8 + (i - 8) = i by omega]
    · by_cases h2 : i < 24
      · have e1 : ¬ i - 8 < 8 := by omega
        have e2 : i - 8 - 8 < 8 := by omega
        simp [h0, e1, e2, show 16 + (i - 8 - 8) = i by omega]
      · have e1 : ¬ i - 8 < 8 := by omega
        have e2 : ¬ i - 8 - 8 < 8 := by omega
        have e3 : i - 8 - 8 - 8 < 8 := by omega
        simp [h0, e1, e2, e3, show 24 + (i - 8 - 8 - 8) = i by omega]

/-- BE32 undoes be32. -/
theorem beBytes_be32 (a b c d : Byte) : beBytes (be32 a b c d) = [a, b, c, d] := by
  simp only [beBytes, List.cons.injEq, and_true]
  refine ⟨?_, ?_, ?_, ?_⟩ <;>
    (apply BitVec.eq_of_getLsbD_eq; intro i hi
     simp only [be32, BitVec.getLsbD_append, BitVec.getLsbD_extractLsb'])
  · have e1 : ¬ 24 + i < 8 := by omega
    have e2 : ¬ 24 + i - 8 < 8 := by omega
    have e3 : ¬ 24 + i - 8 - 8 < 8 := by omega
    simp [hi, e1, e2, e3, show 24 + i - 8 - 8 - 8 = i by omega]
  · have e1 : ¬ 16 + i < 8 := by omega
    have e2 : ¬ 16 + i - 8 < 8 := by omega
    simp [hi, e1, e2, show 16 + i - 8 - 8 = i by omega]
  · have e1 : ¬ 8 + i < 8 := by omega
    simp [hi, e1, show 8 + i - 8 = i by omega]
  · simp [hi]

/-- The four bytes of a big-endian field, read as bytes. -/
theorem Memory.readBytes_four (m : Memory) (a : Nat) : m.readBytes a 4 = beBytes (m.readBe32 a) := by
  rw [Memory.readBe32, beBytes_be32]
  rfl

theorem beBytes_injective {v w : Word} (h : beBytes v = beBytes w) : v = w := by
  have hv := be32_beBytes v
  have hw := be32_beBytes w
  simp only [beBytes, List.cons.injEq, and_true] at h
  obtain ⟨h0, h1, h2, h3⟩ := h
  rw [← hv, ← hw, h0, h1, h2, h3]

/-- A field whose four bytes are BE32(v) is read as v. -/
theorem Memory.readBe32_of_readBytes {m : Memory} {a : Nat} {v : Word} (h : m.readBytes a 4 = beBytes v) :
    m.readBe32 a = v :=
  beBytes_injective ((m.readBytes_four a).symm.trans h)

/-- A written lane, read back (20_memory.md R61). -/
theorem Memory.read_laneBytes (m : Memory) (off n : Nat) (v : Word) (i : Nat) (h : i < n) :
    (m.writeBytes off (laneBytes n v)).read (off + i) = BitVec.ofNat 8 (v.toNat / 2 ^ (8 * i)) := by
  rw [Memory.read_writeBytes_inside _ _ _ _ (by simpa using h), getElem_laneBytes]
  apply BitVec.eq_of_toNat_eq
  simp [BitVec.extractLsb'_toNat, Nat.shiftRight_eq_div_pow]

/-- The little-endian value of bytes that are lanes of a number. -/
theorem foldr_lanes {m : Memory} {off i n x : Nat}
    (h : ∀ j < n, m.read (off + j) = BitVec.ofNat 8 (x / 2 ^ (8 * (i + j)))) :
    (m.readBytes off n).foldr (fun b acc => b.toNat + 256 * acc) 0 = x / 2 ^ (8 * i) % 2 ^ (8 * n) := by
  induction n generalizing off i with
  | zero => simp [Memory.readBytes, Nat.mod_one]
  | succ n ih =>
    rw [Memory.readBytes, List.foldr_cons, ih (off := off + 1) (i := i + 1) (fun j hj => by
      rw [show off + 1 + j = off + (j + 1) by omega, show i + 1 + j = i + (j + 1) by omega]
      exact h _ (by omega))]
    have h0 := h 0 (by omega)
    rw [Nat.add_zero, Nat.add_zero] at h0
    rw [h0, BitVec.toNat_ofNat, show 8 * (i + 1) = 8 * i + 8 by omega, show 8 * (n + 1) = 8 + 8 * n by omega,
      Nat.pow_add, Nat.pow_add, ← Nat.div_div_eq_div_mul, Nat.mod_mul]

/-- The value of a read, as a sum over its lanes (20_memory.md R61). -/
theorem toNat_laneValue (m : Memory) (off : Nat) (w : Width) :
    (laneValue (m.readBytes off w.bytes)).toNat =
      ((List.range w.bytes).map fun i => (m.read (off + i)).toNat * 2 ^ (8 * i)).sum := by
  have sum (n : Nat) (off : Nat) : (m.readBytes off n).foldr (fun b acc => b.toNat + 256 * acc) 0 =
      ((List.range n).map fun i => (m.read (off + i)).toNat * 2 ^ (8 * i)).sum := by
    induction n generalizing off with
    | zero => rfl
    | succ n ih =>
      rw [Memory.readBytes, List.foldr_cons, ih, List.range_succ_eq_map, List.map_cons, List.sum_cons, List.map_map]
      simp only [Nat.mul_zero, Nat.pow_zero, Nat.mul_one, Nat.add_zero]
      congr 1
      rw [← List.sum_map_mul_left]
      congr 1
      refine List.map_congr_left fun i _ => ?_
      simp only [Function.comp_apply, Nat.succ_eq_add_one]
      rw [show off + 1 + i = off + (i + 1) by omega, show 8 * (i + 1) = 8 * i + 8 by omega, Nat.pow_add]
      ring
  have lt (n : Nat) (off : Nat) : (m.readBytes off n).foldr (fun b acc => b.toNat + 256 * acc) 0 < 256 ^ n := by
    induction n generalizing off with
    | zero => simp [Memory.readBytes]
    | succ n ih =>
      rw [Memory.readBytes, List.foldr_cons, Nat.pow_succ]
      have := ih (off + 1)
      have := (m.read off).isLt
      omega
  rw [laneValue, BitVec.toNat_ofNat, Nat.mod_eq_of_lt, sum]
  refine Nat.lt_of_lt_of_le (lt w.bytes off) ?_
  cases w <;> decide

end Sys2Proof.Machine
end

