-- ==== Sys2Proof/Laws/State.lean ====
section
/-!
SUPPORT. One lemma per field per named update of State, true by rfl, so that no proof unfolds a record update.
-/

namespace Sys2Proof.Machine.State

variable (s : State)

@[simp] theorem regs_setCrcState (v : Word) : (s.setCrcState v).regs = { s.regs with crcState := v } := rfl
@[simp] theorem ibuf_setCrcState (v : Word) : (s.setCrcState v).ibuf = s.ibuf := rfl
@[simp] theorem obuf_setCrcState (v : Word) : (s.setCrcState v).obuf = s.obuf := rfl
@[simp] theorem dt_setCrcState (v : Word) : (s.setCrcState v).dt = s.dt := rfl
@[simp] theorem pend_setCrcState (v : Word) : (s.setCrcState v).pend = s.pend := rfl
@[simp] theorem params_setCrcState (v : Word) : (s.setCrcState v).params = s.params := rfl
@[simp] theorem inputs_setCrcState (v : Word) : (s.setCrcState v).inputs = s.inputs := rfl
@[simp] theorem resp_setCrcState (v : Word) : (s.setCrcState v).resp = s.resp := rfl
@[simp] theorem draws_setCrcState (v : Word) : (s.setCrcState v).draws = s.draws := rfl

@[simp] theorem regs_setResult (v : Word) : (s.setResult v).regs = { s.regs with result := v } := rfl
@[simp] theorem ibuf_setResult (v : Word) : (s.setResult v).ibuf = s.ibuf := rfl
@[simp] theorem obuf_setResult (v : Word) : (s.setResult v).obuf = s.obuf := rfl
@[simp] theorem dt_setResult (v : Word) : (s.setResult v).dt = s.dt := rfl
@[simp] theorem pend_setResult (v : Word) : (s.setResult v).pend = s.pend := rfl
@[simp] theorem params_setResult (v : Word) : (s.setResult v).params = s.params := rfl
@[simp] theorem inputs_setResult (v : Word) : (s.setResult v).inputs = s.inputs := rfl
@[simp] theorem resp_setResult (v : Word) : (s.setResult v).resp = s.resp := rfl
@[simp] theorem draws_setResult (v : Word) : (s.setResult v).draws = s.draws := rfl

@[simp] theorem regs_setMatch (b : Bool) :
    (s.setMatch b).regs =
      { s.regs with status := { s.regs.status with matched := b } } := rfl
@[simp] theorem ibuf_setMatch (b : Bool) : (s.setMatch b).ibuf = s.ibuf := rfl
@[simp] theorem obuf_setMatch (b : Bool) : (s.setMatch b).obuf = s.obuf := rfl
@[simp] theorem dt_setMatch (b : Bool) : (s.setMatch b).dt = s.dt := rfl
@[simp] theorem pend_setMatch (b : Bool) : (s.setMatch b).pend = s.pend := rfl
@[simp] theorem params_setMatch (b : Bool) : (s.setMatch b).params = s.params := rfl
@[simp] theorem inputs_setMatch (b : Bool) : (s.setMatch b).inputs = s.inputs := rfl
@[simp] theorem resp_setMatch (b : Bool) : (s.setMatch b).resp = s.resp := rfl
@[simp] theorem draws_setMatch (b : Bool) : (s.setMatch b).draws = s.draws := rfl

@[simp] theorem regs_setFound (b : Bool) :
    (s.setFound b).regs =
      { s.regs with status := { s.regs.status with found := b } } := rfl
@[simp] theorem ibuf_setFound (b : Bool) : (s.setFound b).ibuf = s.ibuf := rfl
@[simp] theorem obuf_setFound (b : Bool) : (s.setFound b).obuf = s.obuf := rfl
@[simp] theorem dt_setFound (b : Bool) : (s.setFound b).dt = s.dt := rfl
@[simp] theorem pend_setFound (b : Bool) : (s.setFound b).pend = s.pend := rfl
@[simp] theorem params_setFound (b : Bool) : (s.setFound b).params = s.params := rfl
@[simp] theorem inputs_setFound (b : Bool) : (s.setFound b).inputs = s.inputs := rfl
@[simp] theorem resp_setFound (b : Bool) : (s.setFound b).resp = s.resp := rfl
@[simp] theorem draws_setFound (b : Bool) : (s.setFound b).draws = s.draws := rfl

@[simp] theorem regs_loadDesc (d : Desc) : (s.loadDesc d).regs = { s.regs with desc := d } := rfl
@[simp] theorem ibuf_loadDesc (d : Desc) : (s.loadDesc d).ibuf = s.ibuf := rfl
@[simp] theorem obuf_loadDesc (d : Desc) : (s.loadDesc d).obuf = s.obuf := rfl
@[simp] theorem dt_loadDesc (d : Desc) : (s.loadDesc d).dt = s.dt := rfl
@[simp] theorem pend_loadDesc (d : Desc) : (s.loadDesc d).pend = s.pend := rfl
@[simp] theorem params_loadDesc (d : Desc) : (s.loadDesc d).params = s.params := rfl
@[simp] theorem inputs_loadDesc (d : Desc) : (s.loadDesc d).inputs = s.inputs := rfl
@[simp] theorem resp_loadDesc (d : Desc) : (s.loadDesc d).resp = s.resp := rfl
@[simp] theorem draws_loadDesc (d : Desc) : (s.loadDesc d).draws = s.draws := rfl

@[simp] theorem regs_setTable (ds : List Desc) : (s.setTable ds).regs = s.regs := rfl
@[simp] theorem ibuf_setTable (ds : List Desc) : (s.setTable ds).ibuf = s.ibuf := rfl
@[simp] theorem obuf_setTable (ds : List Desc) : (s.setTable ds).obuf = s.obuf := rfl
@[simp] theorem dt_setTable (ds : List Desc) : (s.setTable ds).dt = ds := rfl
@[simp] theorem pend_setTable (ds : List Desc) : (s.setTable ds).pend = s.pend := rfl
@[simp] theorem params_setTable (ds : List Desc) : (s.setTable ds).params = s.params := rfl
@[simp] theorem inputs_setTable (ds : List Desc) : (s.setTable ds).inputs = s.inputs := rfl
@[simp] theorem resp_setTable (ds : List Desc) : (s.setTable ds).resp = s.resp := rfl
@[simp] theorem draws_setTable (ds : List Desc) : (s.setTable ds).draws = s.draws := rfl

@[simp] theorem regs_writeOutput (bs : List Byte) : (s.writeOutput bs).regs = s.regs := rfl
@[simp] theorem ibuf_writeOutput (bs : List Byte) : (s.writeOutput bs).ibuf = s.ibuf := rfl
@[simp] theorem obuf_writeOutput (bs : List Byte) : (s.writeOutput bs).obuf = s.obuf.writeBytes 0 bs := rfl
@[simp] theorem dt_writeOutput (bs : List Byte) : (s.writeOutput bs).dt = s.dt := rfl
@[simp] theorem pend_writeOutput (bs : List Byte) : (s.writeOutput bs).pend = s.pend := rfl
@[simp] theorem params_writeOutput (bs : List Byte) : (s.writeOutput bs).params = s.params := rfl
@[simp] theorem inputs_writeOutput (bs : List Byte) : (s.writeOutput bs).inputs = s.inputs := rfl
@[simp] theorem resp_writeOutput (bs : List Byte) : (s.writeOutput bs).resp = s.resp := rfl
@[simp] theorem draws_writeOutput (bs : List Byte) : (s.writeOutput bs).draws = s.draws := rfl

@[simp] theorem regs_complete :
    (s.complete).regs =
      { s.regs with status := { s.regs.status with done := true } } := rfl
@[simp] theorem ibuf_complete : (s.complete).ibuf = s.ibuf := rfl
@[simp] theorem obuf_complete : (s.complete).obuf = s.obuf := rfl
@[simp] theorem dt_complete : (s.complete).dt = s.dt := rfl
@[simp] theorem pend_complete : (s.complete).pend = none := rfl
@[simp] theorem params_complete : (s.complete).params = s.params := rfl
@[simp] theorem inputs_complete : (s.complete).inputs = s.inputs := rfl
@[simp] theorem resp_complete : (s.complete).resp = s.resp := rfl
@[simp] theorem draws_complete : (s.complete).draws = s.draws := rfl

@[simp] theorem regs_raiseError (c : ErrCode) (info : Word) :
    (s.raiseError c info).regs =
      { s.regs with errInfo := info, status := { s.regs.status with done := true, err := true, errcode := c } } := rfl
@[simp] theorem ibuf_raiseError (c : ErrCode) (info : Word) : (s.raiseError c info).ibuf = s.ibuf := rfl
@[simp] theorem obuf_raiseError (c : ErrCode) (info : Word) : (s.raiseError c info).obuf = s.obuf := rfl
@[simp] theorem dt_raiseError (c : ErrCode) (info : Word) : (s.raiseError c info).dt = s.dt := rfl
@[simp] theorem pend_raiseError (c : ErrCode) (info : Word) : (s.raiseError c info).pend = none := rfl
@[simp] theorem params_raiseError (c : ErrCode) (info : Word) : (s.raiseError c info).params = s.params := rfl
@[simp] theorem inputs_raiseError (c : ErrCode) (info : Word) : (s.raiseError c info).inputs = s.inputs := rfl
@[simp] theorem resp_raiseError (c : ErrCode) (info : Word) : (s.raiseError c info).resp = s.resp := rfl
@[simp] theorem draws_raiseError (c : ErrCode) (info : Word) : (s.raiseError c info).draws = s.draws := rfl

@[simp] theorem regs_respondWrite : (s.respondWrite).regs = s.regs := rfl
@[simp] theorem ibuf_respondWrite : (s.respondWrite).ibuf = s.ibuf := rfl
@[simp] theorem obuf_respondWrite : (s.respondWrite).obuf = s.obuf := rfl
@[simp] theorem dt_respondWrite : (s.respondWrite).dt = s.dt := rfl
@[simp] theorem pend_respondWrite : (s.respondWrite).pend = s.pend := rfl
@[simp] theorem params_respondWrite : (s.respondWrite).params = s.params := rfl
@[simp] theorem inputs_respondWrite : (s.respondWrite).inputs = s.inputs := rfl
@[simp] theorem resp_respondWrite : (s.respondWrite).resp = some { status := .okay, data := none } := rfl
@[simp] theorem draws_respondWrite : (s.respondWrite).draws = s.draws := rfl

@[simp] theorem regs_respondRead (v : Word) : (s.respondRead v).regs = s.regs := rfl
@[simp] theorem ibuf_respondRead (v : Word) : (s.respondRead v).ibuf = s.ibuf := rfl
@[simp] theorem obuf_respondRead (v : Word) : (s.respondRead v).obuf = s.obuf := rfl
@[simp] theorem dt_respondRead (v : Word) : (s.respondRead v).dt = s.dt := rfl
@[simp] theorem pend_respondRead (v : Word) : (s.respondRead v).pend = s.pend := rfl
@[simp] theorem params_respondRead (v : Word) : (s.respondRead v).params = s.params := rfl
@[simp] theorem inputs_respondRead (v : Word) : (s.respondRead v).inputs = s.inputs := rfl
@[simp] theorem resp_respondRead (v : Word) : (s.respondRead v).resp = some { status := .okay, data := some v } := rfl
@[simp] theorem draws_respondRead (v : Word) : (s.respondRead v).draws = s.draws := rfl

@[simp] theorem regs_busErrorWrite : (s.busErrorWrite).regs = s.regs := rfl
@[simp] theorem ibuf_busErrorWrite : (s.busErrorWrite).ibuf = s.ibuf := rfl
@[simp] theorem obuf_busErrorWrite : (s.busErrorWrite).obuf = s.obuf := rfl
@[simp] theorem dt_busErrorWrite : (s.busErrorWrite).dt = s.dt := rfl
@[simp] theorem pend_busErrorWrite : (s.busErrorWrite).pend = s.pend := rfl
@[simp] theorem params_busErrorWrite : (s.busErrorWrite).params = s.params := rfl
@[simp] theorem inputs_busErrorWrite : (s.busErrorWrite).inputs = s.inputs := rfl
@[simp] theorem resp_busErrorWrite : (s.busErrorWrite).resp = some { status := .error, data := none } := rfl
@[simp] theorem draws_busErrorWrite : (s.busErrorWrite).draws = s.draws := rfl

@[simp] theorem regs_busErrorRead : (s.busErrorRead).regs = s.regs := rfl
@[simp] theorem ibuf_busErrorRead : (s.busErrorRead).ibuf = s.ibuf := rfl
@[simp] theorem obuf_busErrorRead : (s.busErrorRead).obuf = s.obuf := rfl
@[simp] theorem dt_busErrorRead : (s.busErrorRead).dt = s.dt := rfl
@[simp] theorem pend_busErrorRead : (s.busErrorRead).pend = s.pend := rfl
@[simp] theorem params_busErrorRead : (s.busErrorRead).params = s.params := rfl
@[simp] theorem inputs_busErrorRead : (s.busErrorRead).inputs = s.inputs := rfl
@[simp] theorem resp_busErrorRead : (s.busErrorRead).resp = some { status := .error, data := some 0 } := rfl
@[simp] theorem draws_busErrorRead : (s.busErrorRead).draws = s.draws := rfl

@[simp] theorem regs_respondFree (n : Nat) : (s.respondFree n).regs = s.regs := rfl
@[simp] theorem ibuf_respondFree (n : Nat) : (s.respondFree n).ibuf = s.ibuf := rfl
@[simp] theorem obuf_respondFree (n : Nat) : (s.respondFree n).obuf = s.obuf := rfl
@[simp] theorem dt_respondFree (n : Nat) : (s.respondFree n).dt = s.dt := rfl
@[simp] theorem pend_respondFree (n : Nat) : (s.respondFree n).pend = s.pend := rfl
@[simp] theorem params_respondFree (n : Nat) : (s.respondFree n).params = s.params := rfl
@[simp] theorem inputs_respondFree (n : Nat) : (s.respondFree n).inputs = s.inputs := rfl
@[simp] theorem resp_respondFree (n : Nat) :
    (s.respondFree n).resp =
      some { status := .okay, data := some (lowBytes n (Config.unspecifiedWord s.draws)) } := rfl
@[simp] theorem draws_respondFree (n : Nat) : (s.respondFree n).draws = s.draws + 1 := rfl

@[simp] theorem regs_issue (w : Word) :
    (s.issue w).regs =
      { s.regs with status := Status.clear, result := 0, errInfo := 0 } := rfl
@[simp] theorem ibuf_issue (w : Word) : (s.issue w).ibuf = s.ibuf := rfl
@[simp] theorem obuf_issue (w : Word) : (s.issue w).obuf = s.obuf := rfl
@[simp] theorem dt_issue (w : Word) : (s.issue w).dt = s.dt := rfl
@[simp] theorem pend_issue (w : Word) : (s.issue w).pend = some w := rfl
@[simp] theorem params_issue (w : Word) : (s.issue w).params = s.params := rfl
@[simp] theorem inputs_issue (w : Word) : (s.issue w).inputs = s.inputs := rfl
@[simp] theorem resp_issue (w : Word) : (s.issue w).resp = s.resp := rfl
@[simp] theorem draws_issue (w : Word) : (s.issue w).draws = s.draws := rfl

@[simp] theorem regs_resetRegisters : (s.resetRegisters).regs = Regs.reset := rfl
@[simp] theorem ibuf_resetRegisters : (s.resetRegisters).ibuf = s.ibuf := rfl
@[simp] theorem obuf_resetRegisters : (s.resetRegisters).obuf = s.obuf := rfl
@[simp] theorem dt_resetRegisters : (s.resetRegisters).dt = [] := rfl
@[simp] theorem pend_resetRegisters : (s.resetRegisters).pend = none := rfl
@[simp] theorem params_resetRegisters : (s.resetRegisters).params = s.params := rfl
@[simp] theorem inputs_resetRegisters : (s.resetRegisters).inputs = s.inputs := rfl
@[simp] theorem resp_resetRegisters : (s.resetRegisters).resp = s.resp := rfl
@[simp] theorem draws_resetRegisters : (s.resetRegisters).draws = s.draws := rfl

@[simp] theorem regs_hardwareReset : (s.hardwareReset).regs = Regs.reset := rfl
@[simp] theorem ibuf_hardwareReset : (s.hardwareReset).ibuf = Memory.unspecified s.draws := rfl
@[simp] theorem obuf_hardwareReset : (s.hardwareReset).obuf = Memory.unspecified (s.draws + 1) := rfl
@[simp] theorem dt_hardwareReset : (s.hardwareReset).dt = [] := rfl
@[simp] theorem pend_hardwareReset : (s.hardwareReset).pend = none := rfl
@[simp] theorem params_hardwareReset : (s.hardwareReset).params = s.params := rfl
@[simp] theorem inputs_hardwareReset : (s.hardwareReset).inputs = s.inputs := rfl
@[simp] theorem resp_hardwareReset : (s.hardwareReset).resp = s.resp := rfl
@[simp] theorem draws_hardwareReset : (s.hardwareReset).draws = s.draws + 2 := rfl

@[simp] theorem regs_storeIbuf (a n : Nat) (v : Word) : (s.storeIbuf a n v).regs = s.regs := rfl
@[simp] theorem ibuf_storeIbuf (a n : Nat) (v : Word) :
    (s.storeIbuf a n v).ibuf =
      s.ibuf.writeBytes a (laneBytes n v) := rfl
@[simp] theorem obuf_storeIbuf (a n : Nat) (v : Word) : (s.storeIbuf a n v).obuf = s.obuf := rfl
@[simp] theorem dt_storeIbuf (a n : Nat) (v : Word) : (s.storeIbuf a n v).dt = s.dt := rfl
@[simp] theorem pend_storeIbuf (a n : Nat) (v : Word) : (s.storeIbuf a n v).pend = s.pend := rfl
@[simp] theorem params_storeIbuf (a n : Nat) (v : Word) : (s.storeIbuf a n v).params = s.params := rfl
@[simp] theorem inputs_storeIbuf (a n : Nat) (v : Word) : (s.storeIbuf a n v).inputs = s.inputs := rfl
@[simp] theorem resp_storeIbuf (a n : Nat) (v : Word) : (s.storeIbuf a n v).resp = s.resp := rfl
@[simp] theorem draws_storeIbuf (a n : Nat) (v : Word) : (s.storeIbuf a n v).draws = s.draws := rfl

@[simp] theorem regs_storeObuf (a n : Nat) (v : Word) : (s.storeObuf a n v).regs = s.regs := rfl
@[simp] theorem ibuf_storeObuf (a n : Nat) (v : Word) : (s.storeObuf a n v).ibuf = s.ibuf := rfl
@[simp] theorem obuf_storeObuf (a n : Nat) (v : Word) :
    (s.storeObuf a n v).obuf =
      s.obuf.writeBytes a (laneBytes n v) := rfl
@[simp] theorem dt_storeObuf (a n : Nat) (v : Word) : (s.storeObuf a n v).dt = s.dt := rfl
@[simp] theorem pend_storeObuf (a n : Nat) (v : Word) : (s.storeObuf a n v).pend = s.pend := rfl
@[simp] theorem params_storeObuf (a n : Nat) (v : Word) : (s.storeObuf a n v).params = s.params := rfl
@[simp] theorem inputs_storeObuf (a n : Nat) (v : Word) : (s.storeObuf a n v).inputs = s.inputs := rfl
@[simp] theorem resp_storeObuf (a n : Nat) (v : Word) : (s.storeObuf a n v).resp = s.resp := rfl
@[simp] theorem draws_storeObuf (a n : Nat) (v : Word) : (s.storeObuf a n v).draws = s.draws := rfl

end Sys2Proof.Machine.State
end

