-- ==== Sys2Proof/Laws/Crc.lean ====
section
/-!
SUPPORT. Laws of the CRC (40_crc_engine.md R110, R117).
-/

namespace Sys2Proof.Machine

theorem crcRun_append (s : Word) (a b : List Byte) (poly : Word) (refin : Bool) :
    crcRun s (a ++ b) poly refin = crcRun (crcRun s a poly refin) b poly refin := by
  induction a generalizing s with
  | nil => rfl
  | cons x a ih => exact ih _

theorem crcShifts_eq_iterate (poly : Word) (n : Nat) (s : Word) : crcShifts poly n s = (crcShift poly)^[n] s := by
  induction n generalizing s with
  | zero => rfl
  | succ n ih => rw [crcShifts, ih, Function.iterate_succ_apply]

end Sys2Proof.Machine
end

