-- ==== Sys2Proof/Laws/Records.lean ====
section
/-!
SUPPORT. Laws of the record and frame parsers (42_chunk.md R140, R142; 43_container.md R172): one inversion lemma for
each, from which the rest follows.
-/

namespace Sys2Proof.Machine

@[simp] theorem length_chunkBytes (ibuf : Memory) (d : Desc) : (chunkBytes ibuf d).length = recordLength d := by
  simp [chunkBytes, recordLength]
  omega

theorem length_flatMap_chunkBytes (ibuf : Memory) (ds : List Desc) :
    (ds.flatMap (chunkBytes ibuf)).length = (ds.map recordLength).sum := by
  induction ds with
  | nil => rfl
  | cons d ds ih => simp [ih]

theorem length_frameBytes {preamble : List Byte} (h : preamble.length = 8) (ibuf : Memory) (ds : List Desc) :
    (frameBytes preamble ibuf ds).length = frameLength ds := by
  rw [frameBytes, List.length_append, length_flatMap_chunkBytes, h, frameLength]

/-- When the record parser accepts, and what it answers then (42_chunk.md R142). -/
theorem chunkParse_ok {ibuf : Memory} {p avail : Nat} {d : Desc} {k : Nat} :
    chunkParse ibuf p avail = .ok (d, k) ↔
      d.len = ibuf.readBe32 p ∧ d.type = ibuf.readBe32 (p + 4) ∧
        d.crc = ibuf.readBe32 (p + 8 + d.len.toNat) ∧ d.paddr = BitVec.ofNat 32 (p + 8) ∧ k = recordLength d ∧
          recordLength d ≤ avail ∧ crcHdlc (typeBytes d.type ++ ibuf.readBytes (p + 8) d.len.toNat) = d.crc ∧
            alphabetic d.type = true := by
  obtain ⟨len, type, crc, paddr⟩ := d
  simp only [chunkParse, recordLength]
  constructor
  · intro h
    repeat' (split at h)
    all_goals first | (simp at h; done) | skip
    simp only [Except.ok.injEq, Prod.mk.injEq, Desc.mk.injEq] at h
    obtain ⟨⟨rfl, rfl, rfl, rfl⟩, rfl⟩ := h
    rename_i h4 h8 hl hc hcrc ha
    exact ⟨rfl, rfl, rfl, rfl, rfl, by omega, not_not.1 hcrc, by simpa using ha⟩
  · rintro ⟨rfl, rfl, rfl, rfl, rfl, hle, hcrc, ha⟩
    rw [if_neg (by omega), if_neg (by omega), if_neg (by omega), if_neg (by omega), if_neg (by simpa using hcrc),
      if_neg (by simp [ha])]

/-- The three errors of the record parser, in their order (42_chunk.md R142, R151). -/
theorem chunkParse_error {ibuf : Memory} {p avail : Nat} {e : ErrCode} :
    chunkParse ibuf p avail = .error e ↔
      ((avail < 4 ∨ avail < 12 + (ibuf.readBe32 p).toNat) ∧ ErrCode.truncatedInput = e) ∨
      (12 + (ibuf.readBe32 p).toNat ≤ avail ∧
        crcHdlc (typeBytes (ibuf.readBe32 (p + 4)) ++ ibuf.readBytes (p + 8) (ibuf.readBe32 p).toNat) ≠
            ibuf.readBe32 (p + 8 + (ibuf.readBe32 p).toNat) ∧ ErrCode.checksumMismatch = e) ∨
      (12 + (ibuf.readBe32 p).toNat ≤ avail ∧
        crcHdlc (typeBytes (ibuf.readBe32 (p + 4)) ++ ibuf.readBytes (p + 8) (ibuf.readBe32 p).toNat) =
            ibuf.readBe32 (p + 8 + (ibuf.readBe32 p).toNat) ∧ alphabetic (ibuf.readBe32 (p + 4)) = false ∧
        ErrCode.invalidTypeCode = e) := by
  simp only [chunkParse]
  by_cases h4 : avail < 4
  · simp [h4]
    omega
  · by_cases hl : avail < 12 + (ibuf.readBe32 p).toNat
    · have hn : ¬ 12 + (ibuf.readBe32 p).toNat ≤ avail := by omega
      rw [if_neg h4]
      split
      · simp [hl, hn]
      · split
        · simp [hl, hn]
        · simp [hl, hn]
    · have hy : 12 + (ibuf.readBe32 p).toNat ≤ avail := by omega
      rw [if_neg h4, if_neg (by omega), if_neg (by omega), if_neg hl]
      split
      · rename_i hc
        simp [h4, hl, hy, hc]
      · rename_i hc
        split
        · rename_i ha
          simp_all
        · rename_i ha
          simp_all

/-- The four parts of a record (42_chunk.md R140). -/
theorem chunkBytes_parts (m : Memory) (d : Desc) :
    ((chunkBytes m d).drop 0).take 4 = beBytes d.len ∧ ((chunkBytes m d).drop 4).take 4 = beBytes d.type ∧
      ((chunkBytes m d).drop 8).take d.len.toNat = m.readBytes d.paddr.toNat d.len.toNat ∧
      ((chunkBytes m d).drop (8 + d.len.toNat)).take 4 = beBytes d.crc := by
  have hl := m.length_readBytes d.paddr.toNat d.len.toNat
  unfold chunkBytes typeBytes
  generalize m.readBytes d.paddr.toNat d.len.toNat = p at hl
  rw [← hl]
  refine ⟨rfl, rfl, ?_, ?_⟩
  · show (p ++ beBytes d.crc).take p.length = _
    simp
  · rw [show 8 + p.length = (beBytes d.len ++ beBytes d.type ++ p).length by simp; omega, List.drop_left]
    rfl

/-- Part of a copy of the first n bytes of a record. -/
theorem readBytes_of_copy {m m' : Memory} {d : Desc} {b n : Nat}
    (h : ∀ i < n, some (m'.read (b + i)) = (chunkBytes m d)[i]?) (i k : Nat) (hk : i + k ≤ n)
    (hn : n ≤ recordLength d) : m'.readBytes (b + i) k = ((chunkBytes m d).drop i).take k := by
  refine List.ext_getElem (by simp; omega) fun j h1 h2 => ?_
  have hj : j < k := by simpa using h1
  rw [Memory.getElem_readBytes, List.getElem_take, List.getElem_drop]
  have := h (i + j) (by omega)
  rw [List.getElem?_eq_getElem (by simp; omega), Option.some.injEq] at this
  rw [← this, Nat.add_assoc]

/-- Parsing a copy of the record of an alphabetic, checksum-good descriptor (42_chunk.md R140, R142). -/
theorem chunkParse_of_copy {m m' : Memory} {d : Desc} {b avail : Nat}
    (h : ∀ i < recordLength d, some (m'.read (b + i)) = (chunkBytes m d)[i]?) (ha : alphabetic d.type = true)
    (hc : crcHdlc (typeBytes d.type ++ m.readBytes d.paddr.toNat d.len.toNat) = d.crc)
    (hav : recordLength d ≤ avail) :
    chunkParse m' b avail =
        .ok ({ len := d.len, type := d.type, crc := d.crc, paddr := BitVec.ofNat 32 (b + 8) }, recordLength d) ∧
      m'.readBytes (b + 8) d.len.toNat = m.readBytes d.paddr.toNat d.len.toNat := by
  obtain ⟨p1, p2, p3, p4⟩ := chunkBytes_parts m d
  have r1 := readBytes_of_copy h 0 4 (by simp [recordLength]; omega) (Nat.le_refl _)
  have r2 := readBytes_of_copy h 4 4 (by simp [recordLength]; omega) (Nat.le_refl _)
  have r3 := readBytes_of_copy h 8 d.len.toNat (by simp [recordLength]) (Nat.le_refl _)
  have r4 := readBytes_of_copy h (8 + d.len.toNat) 4 (by simp [recordLength]; omega) (Nat.le_refl _)
  rw [p1] at r1
  rw [p2] at r2
  rw [p3] at r3
  rw [p4] at r4
  refine ⟨?_, r3⟩
  have l4 := Memory.readBe32_of_readBytes r4
  refine chunkParse_ok.2
    ⟨(Memory.readBe32_of_readBytes r1).symm, (Memory.readBe32_of_readBytes r2).symm, ?_, rfl, rfl, hav, ?_, ha⟩
  · rw [← l4]
    simp only [Nat.add_assoc]
  · simp only
    rw [r3]
    exact hc

end Sys2Proof.Machine
end

