-- ==== Sys2Proof/Laws/Frame.lean ====
section
/-!
SUPPORT. Laws of the frame loop (43_container.md R172): the while loop's equations without fuel, when it succeeds and
how it fails.
-/

namespace Sys2Proof.Machine

/-- The records `ds` follow one another from offset p of the window at a to its offset q, inside a window of n
bytes. -/
def RecordsTo (ibuf : Memory) (a n : Nat) : (p q : Nat) → List Desc → Prop
  | p, q, [] => p = q
  | p, q, d :: ds =>
    p < n ∧ chunkParse ibuf (a + p) (n - p) = .ok (d, recordLength d) ∧ RecordsTo ibuf a n (p + recordLength d) q ds

theorem recordLength_pos (d : Desc) : 12 ≤ recordLength d := Nat.le_add_right 12 _

/-- The consumed count of an accepted record is its length. -/
theorem chunkParse_consumed {ibuf : Memory} {p avail : Nat} {d : Desc} {k : Nat}
    (h : chunkParse ibuf p avail = .ok (d, k)) : k = recordLength d ∧ recordLength d ≤ avail :=
  let h := chunkParse_ok.1 h
  ⟨h.2.2.2.2.1, h.2.2.2.2.2.1⟩

theorem RecordsTo.append {ibuf : Memory} {a n : Nat} {ds es : List Desc} {p q r : Nat}
    (h : RecordsTo ibuf a n p q ds) (h' : RecordsTo ibuf a n q r es) : RecordsTo ibuf a n p r (ds ++ es) := by
  induction ds generalizing p with
  | nil => exact (show p = q from h) ▸ h'
  | cons d ds ih => exact ⟨h.1, h.2.1, ih h.2.2⟩

theorem RecordsTo.length {ibuf : Memory} {a n : Nat} {ds : List Desc} {p q : Nat}
    (h : RecordsTo ibuf a n p q ds) : q = p + (ds.map recordLength).sum := by
  induction ds generalizing p with
  | nil => simpa using (show p = q from h).symm
  | cons d ds ih =>
    rw [ih h.2.2]
    simp
    omega

/-- The loop ends with the whole window consumed, and the table is the records of the window in stream order
(43_container.md R172, R174). -/
theorem frameLoop_ok {ibuf : Memory} {maxChunks a n fuel p : Nat} {ds ds' : List Desc}
    (hp : p ≤ n) (hf : n - p ≤ fuel) (hds : ds.length ≤ maxChunks) :
    frameLoop ibuf maxChunks a n fuel p ds = .ok ds' ↔
      ∃ es, ds' = ds ++ es ∧ RecordsTo ibuf a n p n es ∧ ds'.length ≤ maxChunks := by
  induction fuel generalizing p ds with
  | zero =>
    have hpn : p = n := by omega
    simp only [frameLoop, Except.ok.injEq]
    constructor
    · rintro rfl
      exact ⟨[], by simp, hpn, hds⟩
    · rintro ⟨es, rfl, hr, hl⟩
      cases es with
      | nil => simp
      | cons e es => exact absurd hr.1 (by omega)
  | succ fuel ih =>
    rw [frameLoop]
    by_cases hlt : p < n
    · rw [if_pos hlt]
      cases hc : chunkParse ibuf (a + p) (n - p) with
      | error code =>
        simp only [reduceCtorEq, false_iff]
        rintro ⟨es, rfl, hr, hl⟩
        cases es with
        | nil => exact absurd (show p = n from hr) (by omega)
        | cons e es =>
          have := hr.2.1
          rw [hc] at this
          cases this
      | ok dk =>
        obtain ⟨d, k⟩ := dk
        obtain ⟨rfl, hle⟩ := chunkParse_consumed hc
        have hpos := recordLength_pos d
        by_cases hm : ds.length = maxChunks
        · simp only [hm, if_true, reduceCtorEq, false_iff]
          rintro ⟨es, rfl, hr, hl⟩
          cases es with
          | nil => exact absurd (show p = n from hr) (by omega)
          | cons e es =>
            simp at hl
            omega
        · simp only [hm, if_false]
          rw [ih (by omega) (by omega) (by simp; omega)]
          constructor
          · rintro ⟨es, rfl, hr, hl⟩
            exact ⟨d :: es, by simp, ⟨hlt, hc, hr⟩, hl⟩
          · rintro ⟨es, rfl, hr, hl⟩
            cases es with
            | nil => exact absurd (show p = n from hr) (by omega)
            | cons e es =>
              have he := hr.2.1
              rw [hc] at he
              simp only [Except.ok.injEq, Prod.mk.injEq] at he
              obtain ⟨rfl, -⟩ := he
              exact ⟨es, by simp, hr.2.2, hl⟩
    · have hpn : p = n := by omega
      rw [if_neg hlt]
      simp only [Except.ok.injEq]
      constructor
      · rintro rfl
        exact ⟨[], by simp, hpn, hds⟩
      · rintro ⟨es, rfl, hr, hl⟩
        cases es with
        | nil => simp
        | cons e es => exact absurd hr.1 (by omega)

/-- The loop fails at the first record, in stream order, that does not parse or does not fit in the table
(43_container.md R172, R174). -/
theorem frameLoop_error {ibuf : Memory} {maxChunks a n fuel p : Nat} {ds : List Desc} {code : ErrCode} {q : Nat}
    (h : frameLoop ibuf maxChunks a n fuel p ds = .error (code, q)) :
    ∃ es r, RecordsTo ibuf a n p r es ∧ r < n ∧ q = a + r ∧
      (chunkParse ibuf (a + r) (n - r) = .error code ∨
        (code = .tableFull ∧ ds.length + es.length = maxChunks ∧
          ∃ d, chunkParse ibuf (a + r) (n - r) = .ok (d, recordLength d))) := by
  induction fuel generalizing p ds with
  | zero => simp [frameLoop] at h
  | succ fuel ih =>
    rw [frameLoop] at h
    by_cases hlt : p < n
    · rw [if_pos hlt] at h
      cases hc : chunkParse ibuf (a + p) (n - p) with
      | error c =>
        rw [hc] at h
        simp only [Except.error.injEq, Prod.mk.injEq] at h
        obtain ⟨rfl, rfl⟩ := h
        exact ⟨[], p, rfl, hlt, rfl, .inl hc⟩
      | ok dk =>
        obtain ⟨d, k⟩ := dk
        obtain ⟨rfl, hle⟩ := chunkParse_consumed hc
        rw [hc] at h
        by_cases hm : ds.length = maxChunks
        · simp only [hm, if_true, Except.error.injEq, Prod.mk.injEq] at h
          obtain ⟨rfl, rfl⟩ := h
          exact ⟨[], p, rfl, hlt, rfl, .inr ⟨rfl, by simpa using hm, d, hc⟩⟩
        · simp only [hm, if_false] at h
          obtain ⟨es, r, hr, hrn, hq, hcase⟩ := ih h
          refine ⟨d :: es, r, ⟨hlt, hc, hr⟩, hrn, hq, ?_⟩
          simp only [List.length_append, List.length_cons, List.length_nil] at hcase ⊢
          rcases hcase with hcase | ⟨h1, h2, h3⟩
          · exact .inl hcase
          · exact .inr ⟨h1, by omega, h3⟩
    · rw [if_neg hlt] at h
      cases h

/-- The loop is the while loop of 43_container.md R172: its answer does not depend on the fuel, once there is enough
of it (log 13). -/
theorem frameLoop_fuel {ibuf : Memory} {maxChunks a n p : Nat} {ds : List Desc} {f g : Nat}
    (hf : n - p ≤ f) (hg : n - p ≤ g) :
    frameLoop ibuf maxChunks a n f p ds = frameLoop ibuf maxChunks a n g p ds := by
  induction f generalizing p ds g with
  | zero =>
    have : ¬ p < n := by omega
    cases g with
    | zero => rfl
    | succ g => rw [frameLoop, frameLoop, if_neg this]
  | succ f ih =>
    cases g with
    | zero =>
      have : ¬ p < n := by omega
      rw [frameLoop, frameLoop, if_neg this]
    | succ g =>
      rw [frameLoop, frameLoop]
      split
      · cases hc : chunkParse ibuf (a + p) (n - p) with
        | error c => rfl
        | ok dk =>
          obtain ⟨d, k⟩ := dk
          obtain ⟨rfl, hle⟩ := chunkParse_consumed hc
          have := recordLength_pos d
          by_cases hm : ds.length = maxChunks
          · simp only [hm, if_true]
          · simp only [hm, if_false]
            exact ih (by omega) (by omega)
      · rfl

/-- The bytes of an accepted record are its serialized form (42_chunk.md R140, R142). -/
theorem readBytes_of_chunkParse {ibuf : Memory} {p avail : Nat} {d : Desc} {k : Nat}
    (h : chunkParse ibuf p avail = .ok (d, k)) (hp : p + 8 < 2 ^ 32) :
    ibuf.readBytes p (recordLength d) = chunkBytes ibuf d := by
  obtain ⟨hl, ht, hc, hpa, -, -, -, -⟩ := chunkParse_ok.1 h
  have hpn : d.paddr.toNat = p + 8 := by
    rw [hpa, BitVec.toNat_ofNat, Nat.mod_eq_of_lt hp]
  rw [recordLength, show 12 + d.len.toNat = 4 + (4 + (d.len.toNat + 4)) by omega, Memory.readBytes_add,
    Memory.readBytes_add, Memory.readBytes_add, Memory.readBytes_four, Memory.readBytes_four, Memory.readBytes_four,
    ← hl, ← ht, show p + 4 + 4 = p + 8 from rfl, ← hc, chunkBytes, hpn, typeBytes]
  simp only [List.append_assoc]

/-- The bytes of the records of a window are the serialized forms of its descriptors, in order. -/
theorem readBytes_of_recordsTo {ibuf : Memory} {a n : Nat} {ds : List Desc} {p q : Nat}
    (h : RecordsTo ibuf a n p q ds) (hq : a + q + 8 < 2 ^ 32) :
    ibuf.readBytes (a + p) (q - p) = ds.flatMap (chunkBytes ibuf) := by
  induction ds generalizing p with
  | nil =>
    have : p = q := h
    subst this
    simp [Memory.readBytes]
  | cons d ds ih =>
    have hlen := h.2.2.length
    rw [show q - p = recordLength d + (q - (p + recordLength d)) by omega, Memory.readBytes_add,
      readBytes_of_chunkParse h.2.1 (by omega), Nat.add_assoc, ih h.2.2, List.flatMap_cons]

/-- Every descriptor of a window's records lies inside it, is alphabetic and has its checksum (10_state.md R41). -/
theorem recordsTo_mem {ibuf : Memory} {a n : Nat} {ds : List Desc} {p q : Nat}
    (h : RecordsTo ibuf a n p q ds) (hn : a + n ≤ 2 ^ 30) {d : Desc} (hd : d ∈ ds) :
    alphabetic d.type = true ∧ a + p + 8 ≤ d.paddr.toNat ∧ d.paddr.toNat + d.len.toNat + 4 ≤ a + n ∧
      d.ChecksumHolds ibuf := by
  induction ds generalizing p with
  | nil => exact absurd hd List.not_mem_nil
  | cons e ds ih =>
    have hpos := recordLength_pos e
    rcases List.mem_cons.1 hd with rfl | hd
    · obtain ⟨-, -, -, hpa, -, hle, hcrc, ha⟩ := chunkParse_ok.1 h.2.1
      have h0 := h.1
      have hpn : d.paddr.toNat = a + p + 8 := by
        rw [hpa, BitVec.toNat_ofNat, Nat.mod_eq_of_lt (by omega)]
      rw [recordLength] at hle
      refine ⟨ha, by omega, by omega, ?_⟩
      rw [Desc.ChecksumHolds, hpn]
      exact hcrc.symm
    · obtain ⟨h1, h2, h3, h4⟩ := ih h.2.2 hd
      exact ⟨h1, by omega, h3, h4⟩

/-- The loop over the records of a part of the window: the turns that are left are enough for the rest. -/
theorem frameLoop_recordsTo {m : Memory} {maxChunks a n : Nat} {es : List Desc} {ds : List Desc} {p q f : Nat}
    (hr : RecordsTo m a n p q es) (hf : n - p ≤ f) (hl : ds.length + es.length ≤ maxChunks) :
    ∃ g, n - q ≤ g ∧ frameLoop m maxChunks a n f p ds = frameLoop m maxChunks a n g q (ds ++ es) := by
  induction es generalizing ds p f with
  | nil =>
    cases (show p = q from hr)
    exact ⟨f, hf, by simp⟩
  | cons e es ih =>
    obtain ⟨h1, h2, h3⟩ := hr
    cases f with
    | zero => omega
    | succ f =>
      have hpos := recordLength_pos e
      simp only [List.length_cons] at hl
      obtain ⟨g, hg, he⟩ := ih (ds := ds ++ [e]) (f := f) h3 (by omega) (by simp; omega)
      refine ⟨g, hg, ?_⟩
      rw [frameLoop, if_pos h1, h2]
      simp only
      rw [if_neg (by omega), he]
      simp

end Sys2Proof.Machine
end

