-- ==== Sys2Proof/Laws/Decode.lean ====
section
/-!
SUPPORT. Laws of the decoder: the fields of a command word, and when a command word decodes.
-/

namespace Sys2Proof

@[simp] theorem opcField_commandWord (opc : BitVec 8) (idx : BitVec 16) : opcField (commandWord opc idx) = opc := by
  apply BitVec.eq_of_getLsbD_eq
  intro i hi
  simp only [opcField, commandWord, BitVec.getLsbD_append, BitVec.getLsbD_extractLsb']
  simp [hi]

@[simp] theorem idxField_commandWord (opc : BitVec 8) (idx : BitVec 16) : idxField (commandWord opc idx) = idx := by
  apply BitVec.eq_of_getLsbD_eq
  intro i hi
  have h : ¬ 8 + i < 8 := by omega
  simp only [idxField, commandWord, BitVec.getLsbD_append, BitVec.getLsbD_extractLsb']
  simp [hi, show 8 + i - 8 = i by omega]

@[simp] theorem rsvField_commandWord (opc : BitVec 8) (idx : BitVec 16) : rsvField (commandWord opc idx) = 0#8 := by
  apply BitVec.eq_of_getLsbD_eq
  intro i hi
  have h' : ¬ 24 + i - 8 < 16 := by omega
  simp only [rsvField, commandWord, BitVec.getLsbD_append, BitVec.getLsbD_extractLsb']
  have h : ¬ 24 + i < 8 := by omega
  simp [h, h']

/-- A command word is its three fields. -/
theorem commandWord_fields {w : Word} (h : rsvField w = 0#8) : commandWord (opcField w) (idxField w) = w := by
  apply BitVec.eq_of_getLsbD_eq
  intro i hi
  have hr := congrArg (fun x => BitVec.getLsbD x (i - 24)) h
  simp only [rsvField, BitVec.getLsbD_extractLsb'] at hr
  simp only [commandWord, BitVec.getLsbD_append, opcField, idxField, BitVec.getLsbD_extractLsb']
  by_cases h0 : i < 8
  · simp [h0]
  · by_cases h1 : i < 24
    · have e1 : i - 8 < 16 := by omega
      simp [h0, e1, show 8 + (i - 8) = i by omega]
    · have e1 : ¬ i - 8 < 16 := by omega
      have e2 : i - 24 < 8 := by omega
      simp only [e2, decide_true, Bool.true_and, show 24 + (i - 24) = i by omega] at hr
      simp [h0, e1, hr]

/-- A command word as a number (30_encoding.md R90). -/
theorem commandWord_eq_ofNat (opc : BitVec 8) (idx : BitVec 16) :
    commandWord opc idx = BitVec.ofNat 32 (idx.toNat * 2 ^ 8 + opc.toNat) := by
  apply BitVec.eq_of_toNat_eq
  have h1 := idx.isLt
  have h2 := opc.isLt
  rw [commandWord, BitVec.toNat_append, BitVec.toNat_append, ← Nat.shiftLeft_add_eq_or_of_lt h2,
    ← Nat.shiftLeft_add_eq_or_of_lt h1]
  simp only [Nat.shiftLeft_eq, BitVec.toNat_ofNat]
  omega

/-- What a decoded word satisfies (30_encoding.md R91). -/
theorem decodeCommand_ok {w : Word} {i : Instr} :
    decodeCommand w = .ok i ↔
      opcodeMap (opcField w) (idxField w) = some i ∧ rsvField w = 0#8 ∧
        (usesIdx (opcField w) = true ∨ idxField w = 0#16) := by
  unfold decodeCommand
  generalize opcodeMap (opcField w) (idxField w) = m
  generalize rsvField w = r
  generalize usesIdx (opcField w) = u
  generalize idxField w = x
  cases m with
  | none => simp
  | some j => by_cases h : r = 0#8 <;> by_cases h'' : x = 0#16 <;> cases u <;> simp [h, h'']

/-- A mapped opcode is encoded as it stands, with its IDX where it uses one (30_encoding.md R90, R92). -/
theorem encode_opcodeMap {opc : BitVec 8} {idx : BitVec 16} {i : Instr} (h : opcodeMap opc idx = some i) :
    wellFormed i = true ∧ encode i = .command (commandWord opc (if usesIdx opc then idx else 0)) := by
  unfold opcodeMap at h
  repeat
    rcases ite_eq_iff.1 h with ⟨rfl, h⟩ | ⟨-, h⟩
    · injection h with h
      subst h
      exact ⟨rfl, rfl⟩
  cases h

/-- The opcodes of the map (30_encoding.md R92). -/
theorem opcodeMap_eq_none {opc : BitVec 8} {idx : BitVec 16} :
    opcodeMap opc idx = none ↔
      (0x04 ≤ opc.toNat ∧ opc.toNat ≤ 0x0F) ∨ (0x15 ≤ opc.toNat ∧ opc.toNat ≤ 0x1F) ∨ 0x25 ≤ opc.toNat := by
  constructor
  · intro h
    by_contra hc
    have hm : opc.toNat ∈ [0, 1, 2, 3, 16, 17, 18, 19, 20, 32, 33, 34, 35, 36] := by
      simp only [List.mem_cons, List.not_mem_nil, or_false]
      omega
    have ho := BitVec.ofNat_toNat 8 opc
    rw [BitVec.setWidth_eq] at ho
    rw [← ho] at h
    simp only [List.mem_cons, List.not_mem_nil, or_false] at hm
    rcases hm with hm | hm | hm | hm | hm | hm | hm | hm | hm | hm | hm | hm | hm | hm <;> rw [hm] at h <;> cases h
  · intro h
    cases hm : opcodeMap opc idx with
    | none => rfl
    | some i =>
      exfalso
      unfold opcodeMap at hm
      repeat
        rcases ite_eq_iff.1 hm with ⟨rfl, hm⟩ | ⟨-, hm⟩
        · revert h
          decide
      cases hm

/-- The fields of a command word as numbers (30_encoding.md R90). -/
theorem toNat_opcField (w : Word) : (opcField w).toNat = w.toNat % 2 ^ 8 := by
  simp [opcField, BitVec.extractLsb'_toNat]

theorem toNat_idxField (w : Word) : (idxField w).toNat = w.toNat / 2 ^ 8 % 2 ^ 16 := by
  simp [idxField, BitVec.extractLsb'_toNat, Nat.shiftRight_eq_div_pow]

theorem toNat_rsvField (w : Word) : (rsvField w).toNat = w.toNat / 2 ^ 24 := by
  have := w.isLt
  simp [rsvField, BitVec.extractLsb'_toNat, Nat.shiftRight_eq_div_pow]
  omega

/-- The register map is one to one (10_state.md R21). -/
theorem regAt_eq_some {off : RegOffset} {r : Reg} : regAt off = some r ↔ off = offsetOf r := by
  constructor
  · intro h
    unfold regAt at h
    repeat
      rcases ite_eq_iff.1 h with ⟨rfl, h⟩ | ⟨-, h⟩
      · injection h with h
        subst h
        rfl
    cases h
  · rintro rfl
    cases r <;> decide

/-- An unlisted offset has no register (10_state.md R21). -/
theorem regAt_eq_none {off : RegOffset} (h : ∀ r, off ≠ offsetOf r) : regAt off = none := by
  cases hr : regAt off with
  | none => rfl
  | some r => exact absurd (regAt_eq_some.1 hr) (h r)

end Sys2Proof
end

