-- ==== Sys2Proof/Laws/Ops.lean ====
section
/-!
SUPPORT. Laws of the shared operations: what each can do, said once.
-/

namespace Sys2Proof.Machine

theorem State.busy_iff (s : State) : s.busy = true ↔ s.pend ≠ none := by
  simp [State.busy, Option.isSome_iff_ne_none]

theorem State.not_busy_iff (s : State) : s.busy = false ↔ s.pend = none := by
  simp [State.busy]

/-- The three things a host write can do (44_host_access.md R202, 20_memory.md R63). -/
theorem State.hostWrite_cases (s : State) (legal : Bool) (effect : State) :
    (legal = false ∧ s.hostWrite legal effect = s.busErrorWrite) ∨
    (legal = true ∧ s.busy = true ∧ s.hostWrite legal effect = s.respondWrite) ∨
    (legal = true ∧ s.busy = false ∧ s.hostWrite legal effect = effect.respondWrite) := by
  cases legal <;> cases h : s.busy <;> simp [State.hostWrite, h]

/-- The two things a CTRL write can do (44_host_access.md R202, R205). -/
theorem State.hostWriteAlways_cases (s : State) (legal : Bool) (effect : State) :
    (legal = false ∧ s.hostWriteAlways legal effect = s.busErrorWrite) ∨
    (legal = true ∧ s.hostWriteAlways legal effect = effect.respondWrite) := by
  cases legal <;> simp [State.hostWriteAlways]

/-- A soft reset (70_reset_and_hazards.md R256): registers, DT and PEND at their reset values, IBUF kept, OBUF kept or
in a new draw. -/
theorem State.softReset_eq (s : State) :
    s.softReset =
      { s with
        regs := Regs.reset
        dt := []
        pend := none
        obuf := if s.serializerPending then Memory.unspecified s.draws else s.obuf
        draws := if s.serializerPending then s.draws + 1 else s.draws } := by
  unfold State.softReset
  cases s.serializerPending <;> rfl

/-- A CTRL write (44_host_access.md R205, R207). -/
theorem State.writeCtrl_eq (s : State) (v : Word) :
    s.writeCtrl v =
      if softResetBit v then s.softReset else { s with regs := { s.regs with irqEn := v.getLsbD 0 } } := by
  unfold State.writeCtrl
  cases softResetBit v
  · rfl
  · simp only [if_true]
    rw [State.softReset_eq, State.softReset_eq]
    rfl

/-- A write at an offset without a write row of its own changes the registers only, and of them neither STATUS nor
RESULT nor ERR_INFO (44_host_access.md R201). -/
theorem State.writeOffset_eq (s : State) (off : RegOffset) (v : Word) (h : hasOwnWriteRow off = false) :
    ∃ r : Regs, s.writeOffset off v = { s with regs := r } ∧ r.status = s.regs.status ∧ r.result = s.regs.result ∧
      r.errInfo = s.regs.errInfo ∧ r.irqEn = s.regs.irqEn ∧ r.desc = s.regs.desc ∧
      (r.crcState = s.regs.crcState ∨ off = 0x070) := by
  simp only [hasOwnWriteRow, Bool.or_eq_false_iff, beq_eq_false_iff_ne] at h
  obtain ⟨⟨⟨h1, h2⟩, h3⟩, h4⟩ := h
  unfold State.writeOffset
  cases hr : regAt off with
  | none => exact ⟨s.regs, rfl, rfl, rfl, rfl, rfl, rfl, .inl rfl⟩
  | some r =>
    have ho := regAt_eq_some.1 hr
    cases r
    case ctrl => exact absurd ho h1
    case status => exact absurd ho h2
    case cmd => exact absurd ho h3
    case crcDin => exact absurd ho h4
    case crcState => exact ⟨_, rfl, rfl, rfl, rfl, rfl, rfl, .inr ho⟩
    all_goals exact ⟨_, rfl, rfl, rfl, rfl, rfl, rfl, .inl rfl⟩

/-- The first match (43_container.md R177, R178). -/
theorem findFirst_some {t : Word} {ds : List Desc} {i : Nat} {d : Desc} :
    findFirst t ds = some (i, d) ↔
      ∃ before after, ds = before ++ d :: after ∧ before.length = i ∧ d.type = t ∧ ∀ e ∈ before, e.type ≠ t := by
  induction ds generalizing i with
  | nil => simp [findFirst]
  | cons x ds ih =>
    simp only [findFirst]
    by_cases hx : x.type = t
    · simp only [hx, if_true, Option.some.injEq, Prod.mk.injEq]
      constructor
      · rintro ⟨rfl, rfl⟩
        exact ⟨[], ds, rfl, rfl, hx, by simp⟩
      · rintro ⟨before, after, hds, hl, hd, hb⟩
        cases before with
        | nil =>
          simp only [List.nil_append, List.cons.injEq] at hds
          exact ⟨hl, hds.1⟩
        | cons y before =>
          simp only [List.cons_append, List.cons.injEq] at hds
          exact absurd (hds.1 ▸ hx) (hb y List.mem_cons_self)
    · simp only [hx, if_false]
      constructor
      · intro h
        cases hf : findFirst t ds with
        | none => simp [hf] at h
        | some p =>
          obtain ⟨j, e⟩ := p
          simp only [hf, Option.some.injEq, Prod.mk.injEq] at h
          obtain ⟨rfl, rfl⟩ := h
          obtain ⟨before, after, rfl, rfl, hd, hb⟩ := ih.1 hf
          exact ⟨x :: before, after, rfl, rfl, hd, by simpa [hx] using hb⟩
      · rintro ⟨before, after, hds, hl, hd, hb⟩
        cases before with
        | nil =>
          simp only [List.nil_append, List.cons.injEq] at hds
          exact absurd (hds.1 ▸ hd) hx
        | cons y before =>
          simp only [List.cons_append, List.cons.injEq] at hds
          obtain ⟨rfl, rfl⟩ := hds
          have := ih.2 ⟨before, after, rfl, rfl, hd, fun e he => hb e (List.mem_cons_of_mem _ he)⟩
          simp [this, ← hl]

theorem findFirst_none {t : Word} {ds : List Desc} : findFirst t ds = none ↔ ∀ d ∈ ds, d.type ≠ t := by
  induction ds with
  | nil => simp [findFirst]
  | cons x ds ih =>
    simp only [findFirst]
    by_cases hx : x.type = t
    · simp [hx]
    · simp only [hx, if_false]
      cases hf : findFirst t ds with
      | none => simpa [hx] using ih.1 hf
      | some p =>
        simp only [reduceCtorEq, false_iff, List.mem_cons, forall_eq_or_imp, not_and]
        exact fun _ h => by simp [ih.2 h] at hf

theorem findFirst_mem {t : Word} {ds : List Desc} {i : Nat} {d : Desc} (h : findFirst t ds = some (i, d)) :
    d ∈ ds := by
  obtain ⟨before, after, rfl, -⟩ := findFirst_some.1 h
  simp

/-- The descriptors of a table all lie in IBUF, or the first that does not is found (log 9). -/
theorem firstOutside_none {n : Nat} {ds : List Desc} : firstOutside n ds = none ↔ ∀ d ∈ ds, d.inIbuf n := by
  simp [firstOutside, Desc.inIbuf]

/-- What a serializer's output leaves in OBUF: the bytes from offset 0, and the rest as before (10_state.md R46). -/
theorem State.read_writeOutput (s : State) (bs : List Byte) (x : Nat) :
    (s.writeOutput bs).obuf.read x = (bs[x]?).getD (s.obuf.read x) := by
  rw [State.writeOutput, Memory.read_writeBytes, if_pos (Nat.zero_le x), Nat.sub_zero]

end Sys2Proof.Machine
end

