-- ==== Sys2Proof/Laws/Claims.lean ====
section
/-!
SUPPORT. The vocabulary of the statements (`Sys2Proof.Claims`) in the terms of the model: one lemma for each notion.
-/

namespace Sys2Proof.Claims

open Sys2Proof.Machine

theorem completed_eq (s : State) : completed s = s.complete := rfl

theorem failed_eq (s : State) (c : ErrCode) (info : Word) : failed s c info = s.raiseError c info := rfl

theorem bytesAt_eq (m : Memory) (a n : Nat) : bytesAt m a n = m.readBytes a n := by
  refine List.ext_getElem (by simp [bytesAt]) fun i h1 h2 => ?_
  rw [Memory.getElem_readBytes]
  simp [bytesAt]

theorem field_eq (m : Memory) (a : Nat) : field m a = (m.readBe32 a).toNat := by
  rw [Memory.readBe32, be32, field]
  simp only [BitVec.toNat_append]
  have h0 := (m.read a).isLt
  have h1 := (m.read (a + 1)).isLt
  have h2 := (m.read (a + 2)).isLt
  have h3 := (m.read (a + 3)).isLt
  rw [← Nat.shiftLeft_add_eq_or_of_lt h1, ← Nat.shiftLeft_add_eq_or_of_lt h2, ← Nat.shiftLeft_add_eq_or_of_lt h3]
  simp only [Nat.shiftLeft_eq]
  omega

theorem ofNat_field (m : Memory) (a : Nat) : BitVec.ofNat 32 (field m a) = m.readBe32 a := by
  rw [field_eq, BitVec.ofNat_toNat, BitVec.setWidth_eq]

theorem be_eq (v : Word) : be v = beBytes v := by
  simp only [be, beBytes, beByte, List.cons.injEq, and_true]
  refine ⟨?_, ?_, ?_, ?_⟩ <;> (apply BitVec.eq_of_toNat_eq; simp [BitVec.extractLsb'_toNat, Nat.shiftRight_eq_div_pow])

theorem letter_iff (b : Byte) : letter b ↔ alpha b = true := by
  simp [letter, alpha, BitVec.le_def]

theorem letters_iff (t : Word) : letters t ↔ alphabetic t = true := by
  simp only [letters, be_eq, letter_iff, alphabetic, typeBytes, List.all_eq_true]

theorem foldl_crcStep (bs : List Byte) (s poly : Word) (f : Bool) :
    bs.foldl (fun c b => crcStep c b poly f) s = crcRun s bs poly f := by
  induction bs generalizing s with
  | nil => rfl
  | cons b bs ih => exact ih _

theorem crc32_eq (bs : List Byte) : crc32 bs = crcHdlc bs := by
  rw [crc32, foldl_crcStep]
  rfl

theorem recordBytes_eq (m : Memory) (d : Desc) : recordBytes m d = chunkBytes m d := by
  simp only [recordBytes, chunkBytes, be_eq, bytesAt_eq, typeBytes]

theorem frameSize_eq (ds : List Desc) : frameSize ds = frameLength ds := rfl

theorem checksumGood_iff (m : Memory) (d : Desc) : checksumGood m d ↔ d.ChecksumHolds m := by
  simp only [checksumGood, Desc.ChecksumHolds, be_eq, bytesAt_eq, crc32_eq, typeBytes]

theorem typeAt_eq (m : Memory) (q : Nat) : typeAt m q = m.readBe32 (q + 4) := ofNat_field m (q + 4)

theorem checksumMatches_iff (m : Memory) (q : Nat) :
    checksumMatches m q ↔
      crcHdlc (typeBytes (m.readBe32 (q + 4)) ++ m.readBytes (q + 8) (m.readBe32 q).toNat) =
        m.readBe32 (q + 8 + (m.readBe32 q).toNat) := by
  rw [checksumMatches, bytesAt_eq, crc32_eq, field_eq, field_eq, Memory.readBytes_add, Memory.readBytes_four,
    BitVec.toNat_inj, typeBytes]

/-- The record parser's errors are those of 42_chunk.md R142. -/
theorem recordError_iff (m : Memory) (q avail : Nat) (code : ErrCode) :
    recordError m q avail code ↔ chunkParse m q avail = .error code := by
  rw [chunkParse_error, recordError, complete, checksumMatches_iff, letters_iff, typeAt_eq, field_eq,
    eq_comm (a := code), eq_comm (a := code), eq_comm (a := code)]
  by_cases h4 : 4 ≤ avail <;> by_cases hl : 12 + (m.readBe32 q).toNat ≤ avail
  · simp [h4, hl, Nat.not_lt.2 h4, Nat.not_lt.2 hl]
  · simp [h4, hl, Nat.not_lt.2 h4, Nat.not_le.1 hl]
  · omega
  · simp [h4, hl, Nat.not_le.1 h4]

theorem descAt_eq (m : Memory) (q : Nat) :
    descAt m q =
      { len := m.readBe32 q
        type := m.readBe32 (q + 4)
        crc := m.readBe32 (q + 8 + (m.readBe32 q).toNat)
        paddr := BitVec.ofNat 32 (q + 8) } := by
  rw [descAt, ofNat_field, ofNat_field, typeAt_eq, field_eq]

/-- The record parser accepts exactly the good records of 42_chunk.md R142. -/
theorem chunkParse_iff (m : Memory) (q avail : Nat) (d : Desc) (k : Nat) :
    chunkParse m q avail = .ok (d, k) ↔ recordGood m q avail ∧ d = descAt m q ∧ k = recordLength d := by
  rw [chunkParse_ok, descAt_eq, recordGood, complete, checksumMatches_iff, letters_iff, typeAt_eq, field_eq]
  obtain ⟨len, type, crc, paddr⟩ := d
  simp only [recordLength, Desc.mk.injEq]
  constructor
  · rintro ⟨rfl, rfl, rfl, rfl, rfl, h1, h2, h3⟩
    exact ⟨⟨⟨by omega, h1⟩, h2, h3⟩, ⟨rfl, rfl, rfl, rfl⟩, rfl⟩
  · rintro ⟨⟨⟨h0, h1⟩, h2, h3⟩, ⟨rfl, rfl, rfl, rfl⟩, rfl⟩
    exact ⟨rfl, rfl, rfl, rfl, rfl, h1, h2, h3⟩

theorem records_iff (m : Memory) (a n : Nat) (ds : List Desc) (p q : Nat) :
    records m a n p q ds ↔ RecordsTo m a n p q ds := by
  induction ds generalizing p with
  | nil => rfl
  | cons d ds ih =>
    simp only [records, RecordsTo, ih, chunkParse_iff]
    have key : d = descAt m (a + p) → p + 12 + field m (a + p) = p + recordLength d := by
      rintro rfl
      rw [descAt_eq, field_eq, recordLength, Nat.add_assoc]
    constructor
    · rintro ⟨h1, h2, h3, h4⟩
      exact ⟨h1, ⟨h2, h3, trivial⟩, key h3 ▸ h4⟩
    · rintro ⟨h1, ⟨h2, h3, -⟩, h4⟩
      exact ⟨h1, h2, h3, (key h3).symm ▸ h4⟩

theorem preambleThere_iff (s : State) :
    preambleThere s ↔ preambleOk s.preamble s.ibuf (addr s) (len s) = true := by
  simp [preambleThere, preambleOk, bytesAt_eq, State.preamble]

theorem inRange_iff (s : State) : inRange s ↔ s.windowOk := Iff.rfl

/-- The bytes of a record, one by one (42_chunk.md R140). -/
theorem getElem?_chunkBytes (m : Memory) (d : Desc) (i : Nat) (hi : i < recordLength d) :
    (chunkBytes m d)[i]? = some
      (if i < 4 then beByte d.len i else if i < 8 then beByte d.type (i - 4)
        else if i < 8 + d.len.toNat then m.read (d.paddr.toNat + (i - 8))
        else beByte d.crc (i - (8 + d.len.toNat))) := by
  have hb : ∀ v : Word, ∀ j < 4, (beBytes v)[j]? = some (beByte v j) := by
    intro v j hj
    rw [← be_eq]
    match j, hj with
    | 0, _ => rfl
    | 1, _ => rfl
    | 2, _ => rfl
    | 3, _ => rfl
  simp only [recordLength] at hi
  rw [chunkBytes]
  split
  · rw [List.getElem?_append_left (by simp; omega), List.getElem?_append_left (by simp; omega),
      List.getElem?_append_left (by simp; omega), hb _ _ (by omega)]
  · split
    · rw [List.getElem?_append_left (by simp; omega), List.getElem?_append_left (by simp; omega),
        List.getElem?_append_right (by simp; omega), typeBytes, length_beBytes, hb _ _ (by omega)]
    · split
      · rw [List.getElem?_append_left (by simp; omega), List.getElem?_append_right (by simp; omega)]
        simp only [List.length_append, length_beBytes, length_typeBytes]
        rw [List.getElem?_eq_getElem (by simp; omega), Memory.getElem_readBytes]
      · rw [List.getElem?_append_right (by simp; omega)]
        simp only [List.length_append, length_beBytes, length_typeBytes, Memory.length_readBytes]
        rw [hb _ _ (by omega)]

/-- The legality of a register access, in the claims' words. -/
theorem legalAt_reg (s : State) (off : RegOffset) (w : Width) :
    legalAt s (.reg off) w ↔ regAccessLegal off w = true := by
  simp [legalAt, regAccessLegal]

/-- The legality of a buffer access, in the claims' words. -/
theorem legalAt_buf (s : State) (b : Buffer) (off : Nat) (w : Width) :
    legalAt s (.buf b off) w ↔ bufAccessLegal (s.bufSize b) off w = true := by
  rw [bufAccessLegal, Bool.and_eq_true, beq_iff_eq, decide_eq_true_eq]
  cases b <;> exact Iff.rfl

/-- The STATUS word, in the claims' words. -/
theorem toWord_status (s : State) : s.regs.status.toWord s.busy = statusWord s := by
  unfold Status.toWord statusWord State.busy
  generalize s.pend.isSome = b
  cases b <;> cases s.regs.status.done <;> cases s.regs.status.err <;> cases s.regs.status.matched <;>
    cases s.regs.status.found <;> cases s.regs.status.errcode <;> decide +kernel

/-- be32 of four bytes of PREAMBLE, in the claims' words. -/
theorem preambleWord_eq {s : State} {i : Nat} {b0 b1 b2 b3 : Byte}
    (h : (s.params.preamble.toList.drop i).take 4 = [b0, b1, b2, b3]) : preambleWord s i = be32 b0 b1 b2 b3 := by
  rw [preambleWord, h]
  apply BitVec.eq_of_toNat_eq
  rw [be32]
  simp only [BitVec.toNat_append, List.foldl_cons, List.foldl_nil, BitVec.toNat_ofNat]
  have h0 := b0.isLt
  have h1 := b1.isLt
  have h2 := b2.isLt
  have h3 := b3.isLt
  rw [← Nat.shiftLeft_add_eq_or_of_lt h1, ← Nat.shiftLeft_add_eq_or_of_lt h2, ← Nat.shiftLeft_add_eq_or_of_lt h3]
  simp only [Nat.shiftLeft_eq]
  omega

/-- Running one step more. -/
theorem run_succ {s t : State} (n : Nat) (h : step s = .next t) : core.run (n + 1) s = core.run n t := by
  have h' : core.step s = .next t := h
  show Host.Core.run core (n + 1) s = _
  simp only [Host.Core.run, h']

/-- The issue of a command word while the block is idle (44_host_access.md R203). -/
theorem exec_cmdIssue {s : State} (w : Word) (h : s.pend = none) :
    exec (.cmdIssue .word w) s = .next (s.issue w).respondWrite := by
  simp [exec, execCmdIssue, State.hostWrite, s.not_busy_iff.2 h, show regAccessLegal offCmd .word = true from rfl]

/-- FRAME_PARSE past its two checks. -/
theorem exec_frameParse {s : State} (h : s.windowOk) (hp : preambleThere s) :
    exec .frameParse s = .next
      (match frameLoop s.ibuf s.params.maxChunks (addr s) (len s) (len s) 8 [] with
      | .error (code, p) => s.rejectFrame code (BitVec.ofNat 32 p)
      | .ok ds => ((s.setTable ds).setResult (BitVec.ofNat 32 ds.length)).complete) := by
  simp only [exec, execFrameParse]
  rw [if_neg (not_not.2 h), if_neg (by rw [preambleThere_iff] at hp; simp only [addr, len] at hp; simp [hp])]
  rfl

end Sys2Proof.Claims
end

