-- ==== Sys2Proof/Laws/PerInstr.lean ====
section
/-!
SUPPORT. The family TableRow, one lemma per operation: the rows of spec/opcode_table.json with their match and mask
words, against the encoder and the decoder.
-/

namespace Sys2Proof.Laws.TableRow

/-- The match and mask words of a command row of spec/opcode_table.json; `none` for a host-access row, to which the
table gives no bits. -/
def row : Instr → Option (Word × Word)
  | .nop => some (0x00000000, 0xFFFFFFFF)
  | .crcInit => some (0x00000001, 0xFFFFFFFF)
  | .crcBuf => some (0x00000002, 0xFFFFFFFF)
  | .crcCheck => some (0x00000003, 0xFFFFFFFF)
  | .chunkNew => some (0x00000010, 0xFFFFFFFF)
  | .chunkParse => some (0x00000011, 0xFFFFFFFF)
  | .chunkSerialize _ => some (0x00000012, 0xFF0000FF)
  | .descRead _ => some (0x00000013, 0xFF0000FF)
  | .typeCheck => some (0x00000014, 0xFFFFFFFF)
  | .frameClear => some (0x00000020, 0xFFFFFFFF)
  | .frameParse => some (0x00000021, 0xFFFFFFFF)
  | .frameSerialize => some (0x00000022, 0xFFFFFFFF)
  | .chunkFind => some (0x00000023, 0xFFFFFFFF)
  | .chunkRemove => some (0x00000024, 0xFFFFFFFF)
  | .crcDinWrite _ _ => none
  | .statusW1c _ _ => none
  | .ctrlWriteIrqEn _ _ => none
  | .ctrlSoftReset _ _ => none
  | .cmdIssue _ _ => none
  | .regRead _ _ => none
  | .regWrite _ _ _ => none
  | .ibufWrite _ _ _ => none
  | .bufRead _ _ _ => none
  | .obufWrite _ _ _ => none

/-- A command's word satisfies its row, and every word that satisfies the row decodes to an operation of that row; a
host-access row's code is a host transaction. -/
def Statement (i : Instr) : Prop :=
  match row i with
  | some (pattern, mask) =>
    (∃ w, encode i = .command w ∧ w &&& mask = pattern) ∧
      ∀ w : Word, w &&& mask = pattern → ∃ j, decodeCommand w = .ok j ∧ row j = some (pattern, mask)
  | none => ∃ a, encode i = .access a

/-- A row without operand bits holds one word. -/
theorem fixed_row {w pattern : Word} {i : Instr} (hd : decodeCommand pattern = .ok i) (h : w &&& 0xFFFFFFFF = pattern) :
    decodeCommand w = .ok i := by
  have : w &&& 0xFFFFFFFF = w := BitVec.and_allOnes (x := w)
  rwa [← this, h]

/-- The mask of a row with an index: OPC and RSV. -/
theorem getLsbD_mask : ∀ k < 32, (0xFF0000FF : Word).getLsbD k = (decide (k < 8) || decide (24 ≤ k)) := by decide

/-- A word of a row with an index, from the row's fixed bits. -/
theorem index_row {w : Word} {opc : BitVec 8} (h : w &&& 0xFF0000FF = opc.setWidth 32) :
    w = commandWord opc (idxField w) := by
  apply BitVec.eq_of_getLsbD_eq
  intro k hk
  have hb := congrArg (BitVec.getLsbD · k) h
  simp only [BitVec.getLsbD_and, BitVec.getLsbD_setWidth, hk, decide_true, Bool.true_and] at hb
  rw [getLsbD_mask k hk] at hb
  simp only [commandWord, idxField, BitVec.getLsbD_append, BitVec.getLsbD_extractLsb']
  by_cases h8 : k < 8
  · simpa [h8] using hb
  · by_cases h24 : 24 ≤ k
    · have : opc.getLsbD k = false := BitVec.getLsbD_of_ge _ _ (by omega)
      simp [h8, h24, this] at hb
      simp [h8, hb, show ¬ k - 8 < 16 by omega]
    · simp [h8, show k - 8 < 16 by omega, show 8 + (k - 8) = k by omega]

theorem nop : Statement .nop := ⟨⟨0x00, rfl, rfl⟩, fun _ h => ⟨.nop, fixed_row rfl h, rfl⟩⟩

theorem crcInit : Statement .crcInit := ⟨⟨0x01, rfl, rfl⟩, fun _ h => ⟨.crcInit, fixed_row rfl h, rfl⟩⟩

theorem crcBuf : Statement .crcBuf := ⟨⟨0x02, rfl, rfl⟩, fun _ h => ⟨.crcBuf, fixed_row rfl h, rfl⟩⟩

theorem crcCheck : Statement .crcCheck := ⟨⟨0x03, rfl, rfl⟩, fun _ h => ⟨.crcCheck, fixed_row rfl h, rfl⟩⟩

theorem chunkNew : Statement .chunkNew := ⟨⟨0x10, rfl, rfl⟩, fun _ h => ⟨.chunkNew, fixed_row rfl h, rfl⟩⟩

theorem chunkParse : Statement .chunkParse := ⟨⟨0x11, rfl, rfl⟩, fun _ h => ⟨.chunkParse, fixed_row rfl h, rfl⟩⟩

/-- The word of an index row satisfies the row. -/
theorem mask_commandWord (opc : BitVec 8) (idx : BitVec 16) :
    commandWord opc idx &&& 0xFF0000FF = opc.setWidth 32 := by
  apply BitVec.eq_of_getLsbD_eq
  intro k hk
  simp only [BitVec.getLsbD_and, BitVec.getLsbD_setWidth, hk, decide_true, Bool.true_and, getLsbD_mask k hk, commandWord,
    BitVec.getLsbD_append]
  by_cases h8 : k < 8
  · simp [h8]
  · have : opc.getLsbD k = false := BitVec.getLsbD_of_ge _ _ (by omega)
    by_cases h24 : 24 ≤ k
    · simp [h8, h24, this, show ¬ k - 8 < 16 by omega]
    · simp [h8, h24, this]

theorem chunkSerialize (idx : BitVec 16) : Statement (.chunkSerialize idx) := by
  refine ⟨⟨_, rfl, mask_commandWord 0x12 idx⟩, fun w h => ⟨.chunkSerialize (idxField w), ?_, rfl⟩⟩
  rw [index_row (opc := 0x12) h]
  simp [decodeCommand, opcodeMap, usesIdx]

theorem descRead (idx : BitVec 16) : Statement (.descRead idx) := by
  refine ⟨⟨_, rfl, mask_commandWord 0x13 idx⟩, fun w h => ⟨.descRead (idxField w), ?_, rfl⟩⟩
  rw [index_row (opc := 0x13) h]
  simp [decodeCommand, opcodeMap, usesIdx]

theorem typeCheck : Statement .typeCheck := ⟨⟨0x14, rfl, rfl⟩, fun _ h => ⟨.typeCheck, fixed_row rfl h, rfl⟩⟩

theorem frameClear : Statement .frameClear := ⟨⟨0x20, rfl, rfl⟩, fun _ h => ⟨.frameClear, fixed_row rfl h, rfl⟩⟩

theorem frameParse : Statement .frameParse := ⟨⟨0x21, rfl, rfl⟩, fun _ h => ⟨.frameParse, fixed_row rfl h, rfl⟩⟩

theorem frameSerialize : Statement .frameSerialize :=
  ⟨⟨0x22, rfl, rfl⟩, fun _ h => ⟨.frameSerialize, fixed_row rfl h, rfl⟩⟩

theorem chunkFind : Statement .chunkFind := ⟨⟨0x23, rfl, rfl⟩, fun _ h => ⟨.chunkFind, fixed_row rfl h, rfl⟩⟩

theorem chunkRemove : Statement .chunkRemove :=
  ⟨⟨0x24, rfl, rfl⟩, fun _ h => ⟨.chunkRemove, fixed_row rfl h, rfl⟩⟩

theorem crcDinWrite (w : Width) (v : Word) : Statement (.crcDinWrite w v) := ⟨_, rfl⟩

theorem statusW1c (w : Width) (v : Word) : Statement (.statusW1c w v) := ⟨_, rfl⟩

theorem ctrlWriteIrqEn (w : Width) (v : Word) : Statement (.ctrlWriteIrqEn w v) := ⟨_, rfl⟩

theorem ctrlSoftReset (w : Width) (v : Word) : Statement (.ctrlSoftReset w v) := ⟨_, rfl⟩

theorem cmdIssue (w : Width) (v : Word) : Statement (.cmdIssue w v) := ⟨_, rfl⟩

theorem regRead (off : RegOffset) (w : Width) : Statement (.regRead off w) := ⟨_, rfl⟩

theorem regWrite (off : RegOffset) (w : Width) (v : Word) : Statement (.regWrite off w v) := ⟨_, rfl⟩

theorem ibufWrite (off : Nat) (w : Width) (v : Word) : Statement (.ibufWrite off w v) := ⟨_, rfl⟩

theorem bufRead (b : Buffer) (off : Nat) (w : Width) : Statement (.bufRead b off w) := ⟨_, rfl⟩

theorem obufWrite (off : Nat) (w : Width) (v : Word) : Statement (.obufWrite off w v) := ⟨_, rfl⟩

end Sys2Proof.Laws.TableRow
end

