-- ==== Sys2Proof/Laws/Safety.lean ====
section
/-!
SUPPORT. Building blocks of the invariant: how each shared operation keeps it.
-/

namespace Sys2Proof.Machine

/-- The invariant reads only these parts of a state. -/
theorem Inv.congr {s t : State} (h : Inv s) (hp : t.params = s.params) (hi : t.ibuf = s.ibuf) (ho : t.obuf = s.obuf)
    (hd : t.dt = s.dt) (hn : t.pend = s.pend) (hs : t.regs.status = s.regs.status)
    (hr : t.regs.result = s.regs.result) (he : t.regs.errInfo = s.regs.errInfo) (hw : s.draws ≤ t.draws) : Inv t where
  params := hp ▸ h.params
  ibuf := hp ▸ hi ▸ h.ibuf
  obuf := hp ▸ ho ▸ h.obuf
  table := hp ▸ hd ▸ h.table
  live := hp ▸ hd ▸ h.live
  busyClear := by
    rw [State.busy, hn, hs, hr, he]
    exact h.busyClear
  errCode := hs ▸ h.errCode
  noErrInfo := by
    rw [hs, he]
    exact h.noErrInfo
  errResult := by
    rw [hs, hr]
    exact h.errResult
  epochs := by
    rw [hi, ho]
    exact ⟨Nat.lt_of_lt_of_le h.epochs.1 hw, Nat.lt_of_lt_of_le h.epochs.2 hw⟩

/-- A command that ends without error keeps the invariant, if the table and OBUF it leaves are good. -/
theorem Inv.complete {s t : State} (h : Inv s) (hb : s.busy = true) (hp : t.params = s.params) (hi : t.ibuf = s.ibuf)
    (ho : t.obuf.InBounds s.params.obufBytes) (hoe : t.obuf.epoch = s.obuf.epoch)
    (hd : t.dt.length ≤ s.params.maxChunks) (hl : ∀ d ∈ t.dt, d.Live s.params.ibufBytes)
    (he : t.regs.status.err = false) (hc : t.regs.status.errcode = .none) (hinfo : t.regs.errInfo = s.regs.errInfo)
    (hw : t.draws = s.draws) : Inv t.complete where
  params := hp ▸ h.params
  ibuf := by simpa [hp, hi] using h.ibuf
  obuf := by simpa [hp] using ho
  table := by simpa [hp] using hd
  live := by simpa [hp] using hl
  busyClear := fun hb' => by simp [State.busy] at hb'
  errCode := by simp [he, hc]
  noErrInfo := fun _ => by simpa [hinfo] using (h.busyClear hb).2.2
  errResult := by simp [he]
  epochs := by
    have := h.epochs
    simpa [hi, hoe, hw] using this

/-- A command that raises an error keeps the invariant, if the table it leaves is good. -/
theorem Inv.raiseError {s t : State} (h : Inv s) (hb : s.busy = true) (ht : t = s.setTable t.dt)
    (hd : t.dt.length ≤ s.params.maxChunks) (hl : ∀ d ∈ t.dt, d.Live s.params.ibufBytes) {code : ErrCode}
    (hc : code ≠ .none) (info : Word) : Inv (t.raiseError code info) := by
  obtain ⟨hs, hr, -⟩ := h.busyClear hb
  generalize t.dt = ds at ht hd hl
  subst ht
  exact
    { params := h.params
      ibuf := h.ibuf
      obuf := h.obuf
      table := hd
      live := hl
      busyClear := fun hb' => by simp [State.busy] at hb'
      errCode := by simp [hc]
      noErrInfo := fun he => by simp at he
      errResult := fun _ => by simp [hs, hr, Status.clear]
      epochs := h.epochs }

/-- Reset registers keep the invariant of the buffers. -/
theorem Inv.resetRegisters {s : State} (hp : s.params.wf) (hi : s.ibuf.InBounds s.params.ibufBytes)
    (ho : s.obuf.InBounds s.params.obufBytes) (hw : s.ibuf.epoch < s.draws ∧ s.obuf.epoch < s.draws) :
    Inv s.resetRegisters where
  params := hp
  ibuf := hi
  obuf := ho
  table := Nat.zero_le _
  live := fun _ hd => absurd hd List.not_mem_nil
  busyClear := fun hb => by simp [State.busy] at hb
  errCode := by simp [Regs.reset, Status.clear]
  noErrInfo := fun _ => rfl
  errResult := fun he => by simp [Regs.reset, Status.clear] at he
  epochs := hw

theorem Inv.hardwareReset {s : State} (h : Inv s) : Inv s.hardwareReset :=
  Inv.resetRegisters h.params (Memory.InBounds.unspecified _ _) (Memory.InBounds.unspecified _ _)
    ⟨Nat.lt_add_right 1 (Nat.lt_succ_self s.draws), Nat.lt_succ_self (s.draws + 1)⟩

theorem Inv.softReset {s : State} (h : Inv s) : Inv s.softReset := by
  unfold State.softReset
  split
  · exact Inv.resetRegisters h.params h.ibuf (Memory.InBounds.unspecified _ _)
      ⟨Nat.lt_succ_of_lt h.epochs.1, Nat.lt_succ_self _⟩
  · exact Inv.resetRegisters h.params h.ibuf h.obuf h.epochs

/-- Command issue keeps the invariant (44_host_access.md R203). -/
theorem Inv.issue {s : State} (h : Inv s) (w : Word) : Inv (s.issue w) where
  params := h.params
  ibuf := h.ibuf
  obuf := h.obuf
  table := h.table
  live := h.live
  busyClear := fun _ => ⟨rfl, rfl, rfl⟩
  errCode := by simp [Status.clear]
  noErrInfo := fun _ => rfl
  errResult := fun he => by simp [Status.clear] at he
  epochs := h.epochs

end Sys2Proof.Machine
end

