-- ==== Sys2Proof/Tests/Slice0.lean ====
section
/-!
SUPPORT. Small tests. Expected values are the vectors of 95_test_vectors.md and the encodings of 30_encoding.md R92, R94
and 10_state.md R21; witnesses show that the hypotheses of each statement can be met.
-/

namespace Sys2Proof.Tests

open Sys2Proof.Machine Sys2Proof.Claims

/-! ### Helpers -/

/-- The next state of an outcome. -/
def nextOf : Out → Option State
  | .next t => some t
  | .fault _ => none
  | .refused _ => none

/-- What an instruction leaves of a view of the state. -/
def after {α : Type} (i : Instr) (s : State) (view : State → α) : Option α := (nextOf (exec i s)).map view

/-- Reset, with bytes at IBUF address `a` and the window on them. -/
def loaded (a : Nat) (bytes : List Byte) : State :=
  { State.reset with
    ibuf := State.reset.ibuf.writeBytes a bytes
    regs := { Regs.reset with addr := BitVec.ofNat 32 a, len := BitVec.ofNat 32 bytes.length } }

/-- Reset, with a window and a TYPE. -/
def window (a n t : Word) : State :=
  { State.reset with regs := { Regs.reset with addr := a, len := n, type := t } }

/-- A state with a descriptor table. -/
def withTable (ds : List Desc) (s : State) : State := { s with dt := ds }

/-- A state with a pending command word. -/
def pending (w : Word) (s : State) : State := { s with pend := some w }

/-- PREAMBLE of the reference instance (00_scope.md R9). -/
def preamble : List Byte := [0x89, 0x50, 0x4E, 0x47, 0x0D, 0x0A, 0x1A, 0x0A]

/-- REC_IEND of 95_test_vectors.md. -/
def recIend : List Byte := [0x00, 0x00, 0x00, 0x00, 0x49, 0x45, 0x4E, 0x44, 0xAE, 0x42, 0x60, 0x82]

/-- The "Rust" record of V-CHK-9, with payload "x". -/
def recRust : List Byte := [0x00, 0x00, 0x00, 0x01, 0x52, 0x75, 0x73, 0x74, 0x78, 0x9B, 0x2A, 0xA8, 0xED]

/-- "123456789". -/
def digits : List Byte := [0x31, 0x32, 0x33, 0x34, 0x35, 0x36, 0x37, 0x38, 0x39]

/-- The descriptor of an empty IEND whose payload window is at an address (V-CHK-14). -/
def iend (a : Word) : Desc := { len := 0, type := 0x49454E44, crc := 0xAE426082, paddr := a }

/-- The descriptor of the "Rust" record at IBUF 0 (V-CHK-9). -/
def rust : Desc := { len := 1, type := 0x52757374, crc := 0x9B2AA8ED, paddr := 8 }

/-- A descriptor that no run can make: its payload leaves IBUF. -/
def stray : Desc := { len := 2, type := 0x49454E44, crc := 0, paddr := 65535 }

/-! ### Well-formedness: an ill-formed term for each check, refused -/

theorem test_wf_regWrite_ctrl : wellFormed (.regWrite 0x020 .word 1) = false := by decide
theorem test_wf_regWrite_status : wellFormed (.regWrite 0x024 .word 2) = false := by decide
theorem test_wf_regWrite_cmd : wellFormed (.regWrite 0x028 .word 0) = false := by decide
theorem test_wf_regWrite_crcDin : wellFormed (.regWrite 0x078 .word 0x31) = false := by decide
theorem test_wf_ctrlWriteIrqEn_with_soft_reset_bit : wellFormed (.ctrlWriteIrqEn .word 3) = false := by decide
theorem test_wf_ctrlSoftReset_without_its_bit : wellFormed (.ctrlSoftReset .word 1) = false := by decide

/-! ### Decoding: every row, from the words of 30_encoding.md R92 (V-ENC-2) and the offsets of 10_state.md R21 -/

theorem test_decode_nop : decode (.command 0b00000000000000000000000000000000) = .ok .nop := by decide
theorem test_decode_crcInit : decode (.command 0b00000000000000000000000000000001) = .ok .crcInit := by decide
theorem test_decode_crcBuf : decode (.command 0b00000000000000000000000000000010) = .ok .crcBuf := by decide
theorem test_decode_crcCheck : decode (.command 0b00000000000000000000000000000011) = .ok .crcCheck := by decide
theorem test_decode_chunkNew : decode (.command 0b00000000000000000000000000010000) = .ok .chunkNew := by decide
theorem test_decode_chunkParse : decode (.command 0b00000000000000000000000000010001) = .ok .chunkParse := by decide
theorem test_decode_chunkSerialize :
    decode (.command 0b00000000100000000000000100010010) = .ok (.chunkSerialize 0x8001) := by decide
theorem test_decode_descRead :
    decode (.command 0b00000000000000010000000000010011) = .ok (.descRead 0x0100) := by decide
theorem test_decode_typeCheck : decode (.command 0b00000000000000000000000000010100) = .ok .typeCheck := by decide
theorem test_decode_frameClear : decode (.command 0b00000000000000000000000000100000) = .ok .frameClear := by decide
theorem test_decode_frameParse : decode (.command 0b00000000000000000000000000100001) = .ok .frameParse := by decide
theorem test_decode_frameSerialize :
    decode (.command 0b00000000000000000000000000100010) = .ok .frameSerialize := by decide
theorem test_decode_chunkFind : decode (.command 0b00000000000000000000000000100011) = .ok .chunkFind := by decide
theorem test_decode_chunkRemove : decode (.command 0b00000000000000000000000000100100) = .ok .chunkRemove := by decide
theorem test_decode_crcDinWrite :
    decode (.access (.write (.reg 0x078) .word 0x131)) = .ok (.crcDinWrite .word 0x131) := by decide
theorem test_decode_statusW1c : decode (.access (.write (.reg 0x024) .word 2)) = .ok (.statusW1c .word 2) := by decide
theorem test_decode_ctrlWriteIrqEn :
    decode (.access (.write (.reg 0x020) .word 0xFFFFFFFD)) = .ok (.ctrlWriteIrqEn .word 0xFFFFFFFD) := by decide
theorem test_decode_ctrlSoftReset :
    decode (.access (.write (.reg 0x020) .word 3)) = .ok (.ctrlSoftReset .word 3) := by decide
theorem test_decode_cmdIssue : decode (.access (.write (.reg 0x028) .word 0x22)) = .ok (.cmdIssue .word 0x22) := by
  decide
theorem test_decode_regRead : decode (.access (.read (.reg 0xFFC) .word)) = .ok (.regRead 0xFFC .word) := by decide
theorem test_decode_regWrite :
    decode (.access (.write (.reg 0x06C) .word 0xFFFFFFFF)) = .ok (.regWrite 0x06C .word 0xFFFFFFFF) := by decide
theorem test_decode_ibufWrite :
    decode (.access (.write (.buf .ibuf 2) .half 7)) = .ok (.ibufWrite 2 .half 7) := by decide
theorem test_decode_bufRead : decode (.access (.read (.buf .obuf 3) .byte)) = .ok (.bufRead .obuf 3 .byte) := by decide
theorem test_decode_obufWrite :
    decode (.access (.write (.buf .obuf 4) .word 7)) = .ok (.obufWrite 4 .word 7) := by decide

/-- V-ENC-1. -/
theorem test_decode_illegal :
    [0x00000004, 0x0000000F, 0x00000015, 0x00000025, 0x000000FF, 0x01000000, 0x80000010, 0x00000100, 0x00000110,
      0x00000121, 0x00010014].map (decodeTableWord 32) = List.replicate 11 none := by decide

theorem test_decodeTableWord : decodeTableWord 32 0x00FFFF13 = some (.descRead 0xFFFF) := by decide

theorem test_withFetchWord : (State.reset.withFetchWord 32 0x00000112).fetch.1 = .run (.chunkSerialize 1) := by decide

/-! ### One step of each operation -/

/-- V-HST-5. -/
theorem test_nop : after .nop (pending 0 State.reset) (fun t => t.regs.status.toWord t.busy) = some 0x002 := by decide

/-- V-CRC-17. -/
theorem test_crcInit :
    after .crcInit { State.reset with regs := { Regs.reset with crcInit := 0x12345678 } } (·.regs.crcState) =
      some 0x12345678 := by decide

/-- V-CRC-9. -/
theorem test_crcBuf : after .crcBuf (loaded 0 digits) (fun t => (t.regs.crcState, t.crcResult)) =
    some (0x9B63D02C, 0xCBF43926) := by decide +kernel

/-- V-CRC-18: the window sum is not taken modulo 2^32. -/
theorem test_crcBuf_range : after .crcBuf (window 0xFFFFFFFF 2 0) (fun t => t.regs.status.toWord t.busy) =
    some 0x906 := by decide +kernel

/-- V-CRC-16. -/
theorem test_crcCheck_match :
    after .crcCheck { State.reset with regs := { Regs.reset with crcState := 0x9B63D02C, crcExpect := 0xCBF43926 } }
      (fun t => t.regs.status.toWord t.busy) = some 0x00A := by decide +kernel

/-- V-CRC-16. -/
theorem test_crcCheck_differs :
    after .crcCheck { State.reset with regs := { Regs.reset with crcState := 0x9B63D02C, crcExpect := 0xCBF43927 } }
      (fun t => t.regs.status.toWord t.busy) = some 0x002 := by decide +kernel

/-- V-CHK-15: "Rust" at the top of IBUF. -/
theorem test_chunkNew_top : after .chunkNew (window 65536 0 0x52757374) (fun t => (t.dt, t.regs.result)) =
    some ([{ len := 0, type := 0x52757374, crc := 0x41002D9E, paddr := 0x00010000 }], 0) := by decide +kernel

/-- V-CHK-16: RangeError comes before InvalidTypeCode. -/
theorem test_chunkNew_priority :
    after .chunkNew (window 65536 1 0x52753174) (fun t => (t.regs.status.toWord t.busy, t.regs.errInfo)) =
      some (0x906, 0) := by decide

/-- V-CHK-9. -/
theorem test_chunkParse : after .chunkParse (loaded 0x100 recRust) (fun t => (t.dt, t.regs.result)) =
    some ([{ len := 1, type := 0x52757374, crc := 0x9B2AA8ED, paddr := 0x108 }], 13) := by decide +kernel

/-- V-CHK-5: the checksum is checked before the type code. -/
theorem test_chunkParse_checksum :
    after .chunkParse (loaded 0x100 [0x00, 0x00, 0x00, 0x00, 0x52, 0x75, 0x31, 0x74, 0x00, 0x00, 0x00, 0x00])
      (fun t => (t.regs.status.toWord t.busy, t.regs.errInfo, t.dt.length)) = some (0x306, 0x100, 0) := by
  decide +kernel

/-- 30_encoding.md R87, from the record of V-CHK-9. -/
theorem test_chunkSerialize :
    after (.chunkSerialize 0) (withTable [rust] (loaded 0 recRust))
      (fun t => (t.obuf.cells.map Prod.snd, t.regs.result)) = some (recRust, 13) := by decide +kernel

/-- V-CHK-18. -/
theorem test_chunkSerialize_index :
    after (.chunkSerialize 1) (withTable [rust] State.reset)
      (fun t => (t.regs.status.toWord t.busy, t.regs.errInfo)) = some (0x906, 1) := by decide

/-- V-CHK-19, with the descriptor of V-CHK-14. -/
theorem test_descRead : after (.descRead 1) (withTable [rust, iend 0] State.reset)
    (fun t => (t.regs.desc, t.regs.result)) = some (iend 0, 1) := by decide

/-- V-CHK-18. -/
theorem test_descRead_index :
    after (.descRead 65535) (withTable [rust] State.reset) (fun t => (t.regs.status.toWord t.busy, t.regs.errInfo)) =
      some (0x906, 0xFFFF) := by decide

/-- V-TYP-2. -/
theorem test_typeCheck : after .typeCheck (window 0 0 0x52757374) (fun t => t.regs.status.toWord t.busy) =
    some 0x002 := by decide

/-- V-TYP-11. -/
theorem test_typeCheck_invalid :
    after .typeCheck (window 0 0 0x60616161) (fun t => (t.regs.status.toWord t.busy, t.regs.errInfo)) =
      some (0x106, 0x60616161) := by decide

/-- V-FRM-19. -/
theorem test_frameClear : after .frameClear (withTable [iend 0, iend 1, iend 2] State.reset) (·.dt) = some [] := by
  decide

/-- V-FRM-11, with two records. -/
theorem test_frameParse :
    after .frameParse (withTable [rust] (loaded 0 (preamble ++ recIend ++ recIend)))
      (fun t => (t.dt, t.regs.result)) = some ([iend 16, iend 28], 2) := by decide +kernel

/-- V-L1-6. -/
theorem test_frameParse_preamble :
    after .frameParse (withTable [rust] (loaded 0x200 [0x89, 0x50, 0x4E, 0x47, 0x0D, 0x0A, 0x1A, 0x0B]))
      (fun t => (t.dt, t.regs.status.toWord t.busy, t.regs.errInfo)) = some ([], 0x406, 0x200) := by decide +kernel

/-- The end of program P3. -/
theorem test_frameSerialize :
    after .frameSerialize (withTable [iend 70] State.reset) (fun t => (t.obuf.cells.map Prod.snd, t.regs.result)) =
      some (preamble ++ recIend, 20) := by decide +kernel

/-- V-FRM-14: OBUF_BYTES = 7. -/
theorem test_frameSerialize_overflow :
    after .frameSerialize { State.reset with params := { Config.Params.reference with obufBytes := 7 } }
      (fun t => (t.regs.status.toWord t.busy, t.regs.errInfo, t.obuf.cells)) = some (0xB06, 8, []) := by decide

/-- V-FRM-18. -/
theorem test_chunkFind :
    after .chunkFind (withTable [iend 16, rust, iend 82] (window 0 0 0x49454E44))
      (fun t => (t.regs.status.toWord t.busy, t.regs.result, t.regs.desc.paddr)) = some (0x012, 0, 0x10) := by decide

/-- V-FRM-18. -/
theorem test_chunkRemove :
    after .chunkRemove (withTable [iend 16, rust, iend 82] (window 0 0 0x49454E44))
      (fun t => (t.regs.result, t.dt)) = some (0, [rust, iend 82]) := by decide

/-- V-FRM-17. -/
theorem test_chunkRemove_absent :
    after .chunkRemove (withTable [iend 0] (window 0 0 0x52753174))
      (fun t => (t.regs.status.toWord t.busy, t.regs.errInfo, t.dt.length)) = some (0x506, 0x52753174, 1) := by decide

/-- V-CRC-12. -/
theorem test_crcDinWrite : after (.crcDinWrite .word 0x131) State.reset (·.regs.crcState) = some 0x1208C43E := by
  decide +kernel

/-- V-HST-5: after STATUS = 0x506. -/
theorem test_statusW1c :
    after (.statusW1c .word 2)
      { State.reset with regs := { Regs.reset with
        status := { Status.clear with done := true, err := true, errcode := .chunkNotFound } } }
      (fun t => t.regs.status.toWord t.busy) = some 0x504 := by decide

/-- V-HST-6. -/
theorem test_ctrlWriteIrqEn :
    after (.ctrlWriteIrqEn .word 1)
      { State.reset with regs := { Regs.reset with status := { Status.clear with done := true } } } State.irq =
      some true := by decide

/-- V-RST-2. -/
theorem test_ctrlSoftReset :
    after (.ctrlSoftReset .word 3)
      (withTable [iend 0] { loaded 0 recIend with regs := { Regs.reset with crcPoly := 0x1EDC6F41 } })
      (fun t => (t.dt, t.regs, t.ibuf)) = some ([], Regs.reset, (loaded 0 recIend).ibuf) := by decide

/-- 44_host_access.md R203. -/
theorem test_cmdIssue :
    after (.cmdIssue .word 0x22)
      { State.reset with regs := { Regs.reset with result := 7, status := { Status.clear with done := true } } }
      (fun t => (t.pend, t.regs.result, t.regs.status.toWord t.busy)) = some (some 0x22, 0, 1) := by decide

/-- V-TYP-1. -/
theorem test_regRead_typeFlags : after (.regRead 0x04C .word) (window 0 0 0x52755374) (·.resp) =
    some (some { status := .okay, data := some 0x3B }) := by decide

/-- V-HST-3. -/
theorem test_regRead_width : after (.regRead 0x000 .half) State.reset (·.resp) =
    some (some { status := .error, data := some 0 }) := by decide

/-- V-HST-1. -/
theorem test_regWrite : after (.regWrite 0x06C .word 0xFFFFFFFF) State.reset (fun t => t.readRegister .crcCfg) =
    some 3 := by decide

/-- V-HST-4. -/
theorem test_ibufWrite : after (.ibufWrite 0 .word 0x474E5089) State.reset (·.ibuf.cells) =
    some [(0, 0x89), (1, 0x50), (2, 0x4E), (3, 0x47)] := by decide

/-- V-HST-3. -/
theorem test_ibufWrite_misaligned : after (.ibufWrite 2 .word 1) State.reset (fun t => (t.ibuf.cells, t.resp)) =
    some ([], some { status := .error, data := none }) := by decide

/-- V-HST-4. -/
theorem test_bufRead : after (.bufRead .ibuf 2 .half) (loaded 0 [0x89, 0x50, 0x4E, 0x47]) (·.resp) =
    some (some { status := .okay, data := some 0x474E }) := by decide

/-- V-HST-3: one byte past the end. -/
theorem test_bufRead_outside : after (.bufRead .obuf 65536 .byte) State.reset (·.resp) =
    some (some { status := .error, data := some 0 }) := by decide

/-- 44_host_access.md R210. -/
theorem test_obufWrite : after (.obufWrite 65534 .half 0x1234) State.reset (·.obuf.cells) =
    some [(65534, 0x34), (65535, 0x12)] := by decide

/-! ### Witnesses: the hypotheses of the statements, met -/

/-- A state with the invariant, not that of reset. -/
theorem witness_inv : Inv (withTable [iend 0, rust] State.reset) where
  params := by decide
  ibuf := ⟨by decide, by decide⟩
  obuf := ⟨by decide, by decide⟩
  table := by decide
  live := by
    intro d hd
    rcases List.mem_cons.1 hd with rfl | hd
    · exact ⟨by decide, by decide⟩
    · rcases List.mem_singleton.1 hd with rfl
      exact ⟨by decide, by decide⟩
  busyClear := by decide
  errCode := by decide
  noErrInfo := by decide
  errResult := by decide
  epochs := by decide

/-- A state with the invariant and a pending command. -/
theorem witness_inv_pending : Inv (pending 0x10 (withTable [iend 0, rust] State.reset)) :=
  { witness_inv with busyClear := by decide, live := witness_inv.live }

theorem witness_DecodeOfEncodeIsTheInstruction :
    wellFormed (.chunkSerialize 0xFFFF) = true ∧ wellFormed (.regWrite 0xFFC .byte 0xFFFFFFFF) = true ∧
      wellFormed (.ctrlWriteIrqEn .word 0xFFFFFFFD) = true ∧ wellFormed (.ctrlSoftReset .half 2) = true := by decide

theorem witness_EncodeOfDecodeIsTheCode :
    decode (.command 0x00FFFF12) = .ok (.chunkSerialize 0xFFFF) ∧
      decode (.access (.write (.reg 0x020) .word 2)) = .ok (.ctrlSoftReset .word 2) := by decide

/-- Both ends of every range of illegal opcodes, and the legal opcodes beside them. -/
theorem witness_IllegalWordsRaiseIllegalCommand :
    (illegalWord 0x00000004 ∧ illegalWord 0x0000000F ∧ illegalWord 0x00000015 ∧ illegalWord 0x0000001F ∧
      illegalWord 0x00000025 ∧ illegalWord 0x000000FF ∧ illegalWord 0x01000000 ∧ illegalWord 0xFF000012 ∧
      illegalWord 0x00000100 ∧ illegalWord 0x00FFFF24) ∧
    ((pending 0x0000000F State.reset).pend = some 0x0000000F ∧ engineNext (pending 0x0000000F State.reset) []) ∧
    ¬ illegalWord 0x00000000 ∧ ¬ illegalWord 0x00000003 ∧ ¬ illegalWord 0x00000010 ∧ ¬ illegalWord 0x00000014 ∧
      ¬ illegalWord 0x00FFFF12 ∧ ¬ illegalWord 0x00FFFF13 ∧ ¬ illegalWord 0x00000020 ∧ ¬ illegalWord 0x00000024 := by
  refine ⟨?_, ⟨rfl, .inr ⟨rfl, rfl⟩⟩, ?_⟩ <;> simp [illegalWord]

theorem witness_StepPerformsWhatComesNext :
    (∃ s rest w i, engineNext s rest ∧ s.pend = some w ∧ decode (.command w) = .ok i ∧ rest ≠ []) ∧
      (∃ s w i, engineNext s [] ∧ s.inputs = [] ∧ s.pend = some w ∧ decode (.command w) = .ok i) ∧
      ∃ (s : State) (rest : List Event) (a : Access) (i : Instr),
        s.inputs = .access a :: rest ∧ decode (.access a) = .ok i :=
  ⟨⟨{ pending 0x23 State.reset with inputs := [.engine, .hardwareReset] }, _, 0x23, .chunkFind, .inl rfl, rfl,
      by decide, List.cons_ne_nil _ _⟩,
    ⟨pending 0x00FFFF13 State.reset, 0x00FFFF13, .descRead 0xFFFF, .inr ⟨rfl, rfl⟩, rfl, rfl, by decide⟩,
    ⟨{ State.reset with inputs := [.access (.read (.reg 0x024) .word)] }, _, _, .regRead 0x024 .word, rfl, by decide⟩⟩

theorem witness_IdleEngineKeepsState :
    (∃ s rest, engineNext s rest ∧ s.pend = none ∧ s.inputs = .engine :: rest) ∧
      ∃ s, engineNext s [] ∧ s.pend = none ∧ s.inputs = [] :=
  ⟨⟨{ State.reset with inputs := [.engine] }, _, .inl rfl, rfl, rfl⟩, ⟨State.reset, .inr ⟨rfl, rfl⟩, rfl, rfl⟩⟩

theorem witness_HardwareResetSetsEverything : ∃ (s : State) (rest : List Event), s.inputs = .hardwareReset :: rest :=
  ⟨{ pending 0x22 State.reset with inputs := [.hardwareReset, .engine] }, _, rfl⟩

theorem witness_ReadsAfterReset : (0x000 : RegOffset).toNat % 4 = 0 ∧ (0x074 : RegOffset).toNat % 4 = 0 ∧
    (0xFFC : RegOffset).toNat % 4 = 0 := by decide

theorem witness_SoftResetSetsRegistersAndKeepsIbuf :
    (2 : Word).getLsbD 1 = true ∧ serializerPending (pending 0x22 State.reset) ∧
      serializerPending (pending 0x00FFFF12 State.reset) ∧ ¬ serializerPending (pending 0x13 State.reset) ∧
      ¬ serializerPending (pending 0x01000012 State.reset) ∧ ¬ serializerPending State.reset := by
  refine ⟨by decide, ⟨0x22, rfl, by decide⟩, ⟨0x00FFFF12, rfl, by decide⟩, ?_, ?_, ?_⟩
  · rintro ⟨w, hw, h⟩
    cases hw
    revert h
    decide
  · rintro ⟨w, hw, h⟩
    cases hw
    revert h
    decide
  · rintro ⟨w, hw, -⟩
    cases hw

theorem witness_EveryStepKeepsTheInvariant :
    (∃ s t, Inv s ∧ step s = .next t) ∧ ∃ s t, Inv s ∧ s.pend ≠ none ∧ step s = .next t :=
  ⟨⟨_, _, witness_inv, rfl⟩, ⟨_, _, witness_inv_pending, by decide, rfl⟩⟩

theorem witness_NoStepStopsTheBlock : ∃ s, Inv s ∧ s.dt ≠ [] := ⟨_, witness_inv, by decide⟩

theorem witness_PendingCommandCompletes : ∃ s, Inv s ∧ s.pend ≠ none := ⟨_, witness_inv_pending, by decide⟩

/-- The last word of a buffer, its last byte; a busy block; one byte too far, and a misaligned word. -/
theorem witness_IbufWriteStoresItsLanes :
    (legalAt State.reset (.buf .ibuf 65532) .word ∧ legalAt State.reset (.buf .ibuf 65535) .byte ∧
      State.reset.pend = none) ∧
    (legalAt (pending 0 State.reset) (.buf .ibuf 0) .half ∧ (pending 0 State.reset).pend ≠ none) ∧
    ¬ legalAt State.reset (.buf .ibuf 65536) .byte ∧ ¬ legalAt State.reset (.buf .ibuf 2) .word := by
  simp only [legalAt_buf]
  decide

theorem witness_ObufWriteStoresItsLanes :
    (legalAt State.reset (.buf .obuf 65532) .word ∧ legalAt State.reset (.buf .obuf 65535) .byte ∧
      State.reset.pend = none) ∧
    (legalAt (pending 0 State.reset) (.buf .obuf 0) .half ∧ (pending 0 State.reset).pend ≠ none) ∧
    ¬ legalAt State.reset (.buf .obuf 65536) .byte ∧ ¬ legalAt State.reset (.buf .obuf 2) .word := by
  simp only [legalAt_buf]
  decide

theorem witness_BufferReadReturnsItsLanes :
    legalAt State.reset (.buf .ibuf 65534) .half ∧ legalAt State.reset (.buf .obuf 65532) .word ∧
      (legalAt (pending 0 State.reset) (.buf .ibuf 65535) .byte ∧ (pending 0 State.reset).pend ≠ none) ∧
      ¬ legalAt State.reset (.buf .obuf 65536) .byte ∧ ¬ legalAt State.reset (.buf .ibuf 1) .half := by
  simp only [legalAt_buf]
  decide

theorem witness_MixedWidthAccessesSeeTheSameBytes : ∃ (s t : State) (off i : Nat) (v : Word) (w : Width),
    s.pend = none ∧ legalAt s (.buf .ibuf off) .word ∧ i + w.bytes ≤ 4 ∧ i % w.bytes = 0 ∧
      exec (.ibufWrite off .word v) s = .next t :=
  ⟨State.reset, _, 65532, 2, 0x474E5089, .half, rfl, (legalAt_buf ..).2 (by decide), by decide, by decide, rfl⟩

theorem witness_IllegalAccessIsABusError :
    (¬ legalAt State.reset (.reg 0x020) .half ∧ State.reset.pend = none) ∧ ¬ legalAt State.reset (.reg 0x002) .word ∧
      ¬ legalAt State.reset (.buf .ibuf 65535) .half ∧ ¬ legalAt State.reset (.buf .obuf 65536) .byte := by
  simp only [legalAt_buf, legalAt_reg]
  decide

theorem witness_IllegalWriteWhileBusyIsABusError :
    ¬ legalAt (pending 0 State.reset) (.reg 0x028) .byte ∧ (pending 0 State.reset).pend ≠ none := by
  simp only [legalAt_reg]
  decide

theorem witness_ReadsHaveNoSideEffect : State.reset.pend = none := rfl

theorem witness_CrcDinWriteFeedsOneByte :
    State.reset.pend = none ∧ (pending 2 State.reset).pend ≠ none ∧ Width.byte ≠ .word := by decide

theorem witness_StatusWriteClearsDoneOnly :
    State.reset.pend = none ∧ (pending 2 State.reset).pend ≠ none ∧ Width.half ≠ .word := by decide

theorem witness_CtrlWriteSetsIrqEnable :
    (0xFFFFFFFD : Word).getLsbD 1 = false ∧ (0x00000002 : Word).getLsbD 1 = true ∧ Width.byte ≠ .word ∧
      State.reset.pend = none := by decide

theorem witness_CmdWriteIssuesTheCommand :
    State.reset.pend = none ∧ (pending 0x21 State.reset).pend ≠ none ∧ Width.byte ≠ .word := by decide

theorem witness_RegisterWriteSetsRwRegisters :
    (State.reset.pend = none ∧ plainWrites ≠ []) ∧
    ((0x000 : RegOffset).toNat % 4 = 0 ∧ (0x000 : RegOffset) ∉ plainWrites.map Prod.fst ∧
      (0x000 : RegOffset) ∉ ownWriteRows) ∧
    ((0xFFC : RegOffset).toNat % 4 = 0 ∧ (0xFFC : RegOffset) ∉ plainWrites.map Prod.fst ∧
      (0xFFC : RegOffset) ∉ ownWriteRows) ∧
    ((pending 2 State.reset).pend ≠ none ∧ (0x040 : RegOffset).toNat % 4 = 0 ∧ (0x040 : RegOffset) ∉ ownWriteRows) ∧
    ¬ legalAt State.reset (.reg 0x041) .word ∧ ¬ legalAt State.reset (.reg 0x040) .byte := by
  simp only [legalAt_reg]
  exact ⟨⟨rfl, List.cons_ne_nil _ _⟩, by decide, by decide, by decide, by decide⟩

theorem witness_RegisterReadReturnsTheValue :
    plainReads ≠ [] ∧ (State.reset.pend = none ∧ busyFreeReads ≠ []) ∧
    ((0x01C : RegOffset).toNat % 4 = 0 ∧ (0x01C : RegOffset) ∉ plainReads.map Prod.fst ∧
      (0x01C : RegOffset) ∉ busyFreeReads.map Prod.fst ∧ (0x01C : RegOffset) ≠ 0x04C) ∧
    ((0xFFC : RegOffset).toNat % 4 = 0 ∧ (0xFFC : RegOffset) ∉ plainReads.map Prod.fst ∧
      (0xFFC : RegOffset) ∉ busyFreeReads.map Prod.fst ∧ (0xFFC : RegOffset) ≠ 0x04C) ∧
    ¬ legalAt State.reset (.reg 0xFFF) .word := by
  simp only [legalAt_reg]
  exact ⟨List.cons_ne_nil _ _, ⟨rfl, List.cons_ne_nil _ _⟩, by decide, by decide, by decide⟩

theorem witness_ReadsWhileBusyAreFreshDraws : ∃ s, Inv s ∧ s.pend ≠ none ∧ busyFreeReads ≠ [] ∧
    legalAt s (.buf .obuf 65535) .byte ∧ 65535 < s.params.ibufBytes :=
  ⟨_, witness_inv_pending, by decide, List.cons_ne_nil _ _, (legalAt_buf ..).2 (by decide), by decide⟩

theorem witness_WritesWhileBusyAreIgnored : ∃ s : State, s.pend ≠ none ∧ legalAt s (.reg 0x028) .word ∧
    legalAt s (.buf .ibuf 65535) .byte ∧ Place.reg 0x028 ≠ .reg 0x020 ∧ (0xFFFFFFFD : Word).getLsbD 1 = false ∧
    (2 : Word).getLsbD 1 = true :=
  ⟨pending 0x22 State.reset, by decide, (legalAt_reg ..).2 (by decide), (legalAt_buf ..).2 (by decide), by decide,
    by decide, by decide⟩

theorem witness_NopCrcInitAndFrameClearComplete : (0x01000000 : Word) ≠ 0 ∧ (0x01000000 : Word).toNat % 2 ^ 8 = 0 := by
  decide

/-- An empty window at the end of IBUF, and windows one byte too long. -/
theorem witness_CrcBufRunsOverTheWindow :
    inRange (window 65536 0 0) ∧ inRange (window 0 65536 0) ∧ ¬ inRange (window 65535 2 0) ∧
      ¬ inRange (window 0xFFFFFFFF 2 0) := by
  unfold inRange
  decide

theorem witness_TypeCheckAcceptsLettersOnly :
    letters (window 0 0 0x417A5A61).regs.type ∧ ¬ letters (window 0 0 0x40414243).regs.type ∧
      ¬ letters (window 0 0 0x7A7A7A7B).regs.type := by
  simp only [letters_iff]
  decide

/-- MAX_CHUNKS = 1, so that a table is soon full. -/
def small (s : State) : State := { s with params := { s.params with maxChunks := 1 } }

theorem witness_ChunkNewAppendsADescriptor :
    ¬ inRange (window 65536 1 0x52753174) ∧
    (inRange (window 0 0 0x52753174) ∧ ¬ letters (window 0 0 0x52753174).regs.type) ∧
    (inRange (small (withTable [rust] (window 0 0 0x49454E44))) ∧
      letters (small (withTable [rust] (window 0 0 0x49454E44))).regs.type ∧
      (small (withTable [rust] (window 0 0 0x49454E44))).dt.length =
        (small (withTable [rust] (window 0 0 0x49454E44))).params.maxChunks) ∧
    (inRange (window 65536 0 0x49454E44) ∧ letters (window 65536 0 0x49454E44).regs.type ∧
      (window 65536 0 0x49454E44).dt.length ≠ (window 65536 0 0x49454E44).params.maxChunks) := by
  simp only [letters_iff, inRange]
  decide

/-- A window whose record the parser accepts. -/
def recordLoaded : State := loaded 0x100 recRust

theorem recordGood_recordLoaded : recordGood recordLoaded.ibuf (addr recordLoaded) (len recordLoaded) := by
  unfold recordGood complete checksumMatches letters letter
  decide +kernel

theorem witness_ChunkParseParsesOneRecord :
    ¬ inRange (window 65530 7 0) ∧
    (inRange (window 0x100 0 0) ∧ recordError (window 0x100 0 0).ibuf 0x100 0 .truncatedInput) ∧
    (inRange (loaded 0 [0x00, 0x00, 0x00, 0x00, 0x52, 0x75, 0x31, 0x74, 0x00, 0x00, 0x00, 0x00]) ∧
      recordError (loaded 0 [0x00, 0x00, 0x00, 0x00, 0x52, 0x75, 0x31, 0x74, 0x00, 0x00, 0x00, 0x00]).ibuf 0 12
        .checksumMismatch) ∧
    (inRange (loaded 0 [0x00, 0x00, 0x00, 0x00, 0x52, 0x75, 0x31, 0x74, 0x83, 0x4F, 0x00, 0x19]) ∧
      recordError (loaded 0 [0x00, 0x00, 0x00, 0x00, 0x52, 0x75, 0x31, 0x74, 0x83, 0x4F, 0x00, 0x19]).ibuf 0 12
        .invalidTypeCode) ∧
    (inRange recordLoaded ∧ recordGood recordLoaded.ibuf (addr recordLoaded) (len recordLoaded) ∧
      recordLoaded.dt.length ≠ recordLoaded.params.maxChunks) ∧
    (inRange (small (withTable [rust] recordLoaded)) ∧
      recordGood (small (withTable [rust] recordLoaded)).ibuf (addr (small (withTable [rust] recordLoaded)))
        (len (small (withTable [rust] recordLoaded))) ∧
      (small (withTable [rust] recordLoaded)).dt.length =
        (small (withTable [rust] recordLoaded)).params.maxChunks) := by
  refine ⟨?_, ⟨?_, ?_⟩, ⟨?_, ?_⟩, ⟨?_, ?_⟩, ⟨?_, recordGood_recordLoaded, ?_⟩, ⟨?_, recordGood_recordLoaded, ?_⟩⟩
  · unfold inRange
    decide
  · unfold inRange
    decide
  · exact .inl ⟨by unfold complete; omega, rfl⟩
  · unfold inRange
    decide
  · unfold recordError complete checksumMatches letters letter
    decide +kernel
  · unfold inRange
    decide
  · unfold recordError complete checksumMatches letters letter
    decide +kernel
  · unfold inRange
    decide
  · decide
  · unfold inRange
    decide
  · decide

/-- OBUF_BYTES = n. -/
def obufOf (n : Nat) (s : State) : State := { s with params := { s.params with obufBytes := n } }

theorem live_rust : rust.Live 65536 := ⟨by decide, by decide⟩

theorem live_iend : (iend 65536).Live 65536 := ⟨by decide, by decide⟩

theorem witness_ChunkSerializeWritesTheRecord :
    (withTable [rust] State.reset).dt.length ≤ (1 : BitVec 16).toNat ∧
    (∃ (s : State) (idx : BitVec 16) (d : Desc), s.dt[idx.toNat]? = some d ∧ s.params.wf ∧
      d.Live s.params.ibufBytes ∧ s.params.obufBytes < 12 + d.len.toNat) ∧
    ∃ (s : State) (idx : BitVec 16) (d : Desc), s.dt[idx.toNat]? = some d ∧ s.params.wf ∧
      d.Live s.params.ibufBytes ∧ 12 + d.len.toNat = s.params.obufBytes :=
  ⟨by decide, ⟨obufOf 12 (withTable [rust] State.reset), 0, rust, rfl, by decide, live_rust, by decide⟩,
    ⟨obufOf 13 (withTable [iend 0, rust] State.reset), 1, rust, rfl, by decide, live_rust, by decide⟩⟩

theorem witness_DescReadLoadsTheDescriptor :
    (withTable [rust] State.reset).dt.length ≤ (1 : BitVec 16).toNat ∧
      (withTable [iend 0, rust] State.reset).dt[(1 : BitVec 16).toNat]? = some rust := by decide

/-- A frame of two records. -/
def frameLoaded : State := loaded 0 (preamble ++ recIend ++ recIend)

theorem preambleThere_frameLoaded : preambleThere frameLoaded := by
  rw [preambleThere_iff]
  decide +kernel

theorem inRange_frameLoaded : inRange frameLoaded := by
  unfold inRange
  decide

/-- A frame whose second record has a wrong checksum. -/
def frameCorrupt : State := { frameLoaded with ibuf := frameLoaded.ibuf.write 31 0x83 }

theorem witness_FrameParseParsesInStreamOrder :
    (window 65526 11 0).params.wf ∧ ¬ inRange (window 65526 11 0) ∧
    (inRange (window 0 7 0) ∧ ¬ preambleThere (window 0 7 0)) ∧
    (inRange frameLoaded ∧ preambleThere frameLoaded ∧ [iend 16, iend 28].length ≤ frameLoaded.params.maxChunks ∧
      records frameLoaded.ibuf (addr frameLoaded) (len frameLoaded) 8 (len frameLoaded) [iend 16, iend 28]) ∧
    (inRange frameCorrupt ∧ preambleThere frameCorrupt ∧ 20 < len frameCorrupt ∧
      records frameCorrupt.ibuf (addr frameCorrupt) (len frameCorrupt) 8 20 [iend 16] ∧
      recordError frameCorrupt.ibuf (addr frameCorrupt + 20) (len frameCorrupt - 20) .checksumMismatch) ∧
    ((small frameLoaded).params.wf ∧ [iend 16].length = (small frameLoaded).params.maxChunks ∧
      records (small frameLoaded).ibuf (addr (small frameLoaded)) (len (small frameLoaded)) 8 20 [iend 16] ∧
      recordGood (small frameLoaded).ibuf (addr (small frameLoaded) + 20) (len (small frameLoaded) - 20)) := by
  refine ⟨by decide, ?_, ⟨?_, fun h => absurd h.1 (by decide)⟩,
    ⟨inRange_frameLoaded, preambleThere_frameLoaded, by decide, ?_⟩, ⟨?_, ?_, by decide, ?_, ?_⟩, by decide, by decide,
    ?_, ?_⟩
  · unfold inRange
    decide
  · unfold inRange
    decide
  · rw [records_iff]
    exact ⟨by decide, by decide +kernel, by decide, by decide +kernel, rfl⟩
  · unfold inRange
    decide
  · rw [preambleThere_iff]
    decide +kernel
  · rw [records_iff]
    exact ⟨by decide, by decide +kernel, rfl⟩
  · unfold recordError complete checksumMatches letters letter
    decide +kernel
  · rw [records_iff]
    exact ⟨by decide, by decide +kernel, rfl⟩
  · unfold recordGood complete checksumMatches letters letter
    decide +kernel

/-- A good parse, its outcome written out. -/
theorem exec_frameLoaded : exec .frameParse frameLoaded =
    .next (completed { frameLoaded with
      dt := [iend 16, iend 28], regs := { frameLoaded.regs with result := 2 } }) := by
  have h := exec_frameParse (s := frameLoaded) inRange_frameLoaded preambleThere_frameLoaded
  rw [show frameLoop frameLoaded.ibuf frameLoaded.params.maxChunks (addr frameLoaded) (len frameLoaded)
    (len frameLoaded) 8 [] = .ok [iend 16, iend 28] by decide +kernel] at h
  exact h

theorem witness_FrameParseAcceptsOnlyFrames : ∃ s t : State, s.regs.status.err = false ∧
    exec .frameParse s = .next t ∧ t.regs.status.err = false ∧ s.params.wf ∧ t.dt.length = 2 :=
  ⟨frameLoaded, _, rfl, exec_frameLoaded, rfl, by decide, rfl⟩

theorem witness_FrameParseErrorsEmptyTheTable : ∃ s t : State, s.regs.status.err = false ∧ s.regs.result = 0 ∧
    exec .frameParse s = .next t ∧ t.regs.status.err = true ∧ s.dt ≠ [] :=
  ⟨withTable [rust] (window 65526 11 0), _, rfl, rfl, rfl, by decide +kernel, by decide⟩

theorem witness_FrameSerializeWritesTheFrame :
    (∃ s : State, s.params.obufBytes < frameSize s.dt) ∧
      ∃ s : State, frameSize s.dt = s.params.obufBytes ∧ (∀ d ∈ s.dt, d.Live s.params.ibufBytes) ∧ s.dt ≠ [] :=
  ⟨⟨obufOf 7 State.reset, by decide⟩,
    ⟨obufOf 20 (withTable [iend 65536] State.reset), by decide, fun _ hd => List.mem_singleton.1 hd ▸ live_iend,
      by decide⟩⟩

theorem witness_SerializersStopOutsideIbuf :
    (∃ (s : State) (idx : BitVec 16) (d : Desc), s.dt[idx.toNat]? = some d ∧ 12 + d.len.toNat ≤ s.params.obufBytes ∧
      s.params.ibufBytes < d.paddr.toNat + d.len.toNat) ∧
    ∃ s : State, frameSize s.dt ≤ s.params.obufBytes ∧ ∃ d ∈ s.dt, s.params.ibufBytes < d.paddr.toNat + d.len.toNat :=
  ⟨⟨withTable [stray] State.reset, 0, stray, rfl, by decide, by decide⟩,
    ⟨withTable [rust, stray] State.reset, by decide, stray, by decide, by decide⟩⟩

/-- Found first and last, absent, and a TYPE that is not alphabetic over a table of live descriptors. -/
theorem witness_ChunkFindFindsTheFirstMatch :
    (∃ (s : State) (i : Nat) (d : Desc), s.dt[i]? = some d ∧ d.type = s.regs.type ∧
      (∀ j < i, ∀ e, s.dt[j]? = some e → e.type ≠ s.regs.type) ∧ 0 < i ∧ i + 1 = s.dt.length) ∧
    (∃ (s : State) (d : Desc), s.dt[0]? = some d ∧ d.type = s.regs.type ∧ 1 < s.dt.length) ∧
    (∃ s : State, s.dt ≠ [] ∧ ∀ d ∈ s.dt, d.type ≠ s.regs.type) ∧
    ∃ s : State, s.dt ≠ [] ∧ ¬ letters s.regs.type ∧ ∀ d ∈ s.dt, d.Live s.params.ibufBytes := by
  refine ⟨⟨withTable [rust, iend 82] (window 0 0 0x49454E44), 1, iend 82, rfl, rfl, ?_, by decide, by decide⟩,
    ⟨withTable [iend 16, iend 82] (window 0 0 0x49454E44), iend 16, rfl, rfl, by decide⟩,
    ⟨withTable [rust] (window 0 0 0x49454E44), by decide, by decide⟩,
    ⟨withTable [rust] (window 0 0 0x52753174), by decide, ?_, fun _ hd => List.mem_singleton.1 hd ▸ live_rust⟩⟩
  · intro j hj e he
    obtain rfl : j = 0 := by omega
    cases he
    decide
  · rw [letters_iff]
    decide

theorem witness_ChunkRemoveRemovesTheFirstMatch :
    (∃ (s : State) (before : List Desc) (d : Desc) (after : List Desc), s.dt = before ++ d :: after ∧
      d.type = s.regs.type ∧ (∀ e ∈ before, e.type ≠ s.regs.type) ∧ before ≠ [] ∧ after ≠ []) ∧
    (∃ s : State, s.dt ≠ [] ∧ ∀ d ∈ s.dt, d.type ≠ s.regs.type) ∧
    ∃ s : State, s.dt ≠ [] ∧ ¬ letters s.regs.type ∧ ∀ d ∈ s.dt, d.Live s.params.ibufBytes :=
  ⟨⟨withTable [rust, iend 16, rust] (window 0 0 0x49454E44), [rust], iend 16, [rust], rfl, rfl, by decide, by decide,
      by decide⟩,
    witness_ChunkFindFindsTheFirstMatch.2.2.1, witness_ChunkFindFindsTheFirstMatch.2.2.2⟩

theorem witness_EveryCommandCompletesAndKeepsIbuf : ∃ (i : Instr) (s t : State), isCommand i ∧ exec i s = .next t ∧
    t.obuf ≠ s.obuf :=
  ⟨.frameSerialize, State.reset, ((State.reset.writeOutput preamble).setResult 8).complete, trivial, rfl,
    by decide +kernel⟩

/-- A failing command, and a failing FRAME_PARSE with descriptors to lose. -/
theorem witness_ErrorsArePrecise :
    (∃ (i : Instr) (s t : State), isCommand i ∧ s.regs.status.err = false ∧ exec i s = .next t ∧
      t.regs.status.err = true ∧ i ≠ .frameParse ∧ s.dt ≠ []) ∧
    ∃ (s t : State), isCommand .frameParse ∧ s.regs.status.err = false ∧ exec .frameParse s = .next t ∧
      t.regs.status.err = true ∧ s.dt ≠ [] :=
  ⟨⟨.crcBuf, withTable [rust] (window 65535 2 0), _, trivial, rfl, rfl, by decide +kernel, Instr.noConfusion, by decide⟩,
    ⟨withTable [rust] (window 65526 11 0), _, trivial, rfl, rfl, by decide +kernel, by decide⟩⟩

/-- A table that changes, and a descriptor that is new. -/
theorem witness_OnlyFiveCommandsChangeTheTable :
    ∃ (i : Instr) (s t : State) (d : Desc), wellFormed i = true ∧ s.params.wf ∧ exec i s = .next t ∧ t.dt ≠ s.dt ∧
      d ∈ t.dt ∧ d ∉ s.dt :=
  ⟨.frameParse, frameLoaded, _, iend 16, rfl, by decide, exec_frameLoaded, by decide, List.mem_cons_self, by decide⟩

/-- CRC_STATE, DESC_*, MATCH and FOUND, each changed by an operation. -/
theorem witness_WhatChangesResultRegisters :
    (∃ (i : Instr) (s t : State), wellFormed i = true ∧ exec i s = .next t ∧ t.regs.crcState ≠ s.regs.crcState) ∧
    (∃ (i : Instr) (s t : State), wellFormed i = true ∧ exec i s = .next t ∧ t.regs.desc ≠ s.regs.desc ∧
      t.regs.status.found = true ∧ s.regs.status.found = false) ∧
    ∃ (i : Instr) (s t : State), wellFormed i = true ∧ exec i s = .next t ∧ t.regs.status.matched = true ∧
      s.regs.status.matched = false :=
  ⟨⟨.regWrite 0x070 .word 5, State.reset, _, rfl, rfl, by decide⟩,
    ⟨.chunkFind, withTable [rust] (window 0 0 0x52757374), _, rfl, rfl, by decide, by decide, rfl⟩,
    ⟨.crcCheck, State.reset, _, rfl, rfl, by decide +kernel, rfl⟩⟩

theorem witness_FrameCommandsIgnoreTheCrcEngine : ∃ i : Instr, isCommand i ∧ i ≠ .crcInit ∧ i ≠ .crcBuf ∧ i ≠ .crcCheck :=
  ⟨.chunkNew, trivial, Instr.noConfusion, Instr.noConfusion, Instr.noConfusion⟩

theorem witness_PendingOperandsAreFrozen : ∃ (s t : State) (as : List Access), s.pend ≠ none ∧
    (∀ w v, .write (.reg 0x020) w v ∈ as → v.getLsbD 1 = false) ∧
    core.run as.length { s with inputs := as.map .access } = .next t ∧ as.length = 3 := by
  refine ⟨pending 0x02 (window 0 9 0), _,
    [.write (.reg 0x040) .word 0x100, .write (.reg 0x020) .word 1, .write (.buf .ibuf 0) .byte 0], by decide, ?_, rfl, rfl⟩
  intro w v h
  simp at h
  rw [h.2]
  decide

theorem witness_SecondCommandIsTakenOrLost : ∃ s : State, Inv s ∧ s.pend = none ∧ s.regs.type = 0x49454E44 ∧
    s.regs.addr = 0 ∧ s.regs.len = 0 ∧ s.dt ≠ [] :=
  ⟨{ withTable [iend 0, rust] State.reset with regs := { Regs.reset with type := 0x49454E44 } },
    { witness_inv with busyClear := by decide, errCode := by decide, noErrInfo := by decide, errResult := by decide },
    rfl, rfl, rfl, rfl, by decide⟩

theorem witness_CrcStepIsTheParameterisedModel : (7 < 8 ∧ 0 < 8) ∧ 31 < 32 := by decide

/-- Three parts, fed in both ways, and a part of no bytes. -/
theorem witness_SplitFeedingLeavesTheSameCrcState : ∃ (s : State) (parts : List (Feed × Nat)),
    s.pend = none ∧ s.params.wf ∧ inRange s ∧ (parts.map Prod.snd).sum = len s ∧ parts.length = 4 :=
  ⟨loaded 0x40 digits, [(.buf, 4), (.din, 3), (.din, 0), (.buf, 2)], rfl, by decide, by unfold inRange; decide,
    by decide, rfl⟩

theorem witness_ProgrammableEngineComputesEveryCrc : inRange (loaded 0 digits) ∧ inRange (window 65536 0 0) := by
  unfold inRange
  decide

/-- The record of a state's one descriptor, serialized, then found again at IBUF 0x100. -/
def serialized : State := withTable [rust] (loaded 0 recRust)

theorem checksumGood_rust : checksumGood serialized.ibuf rust := by
  rw [checksumGood_iff]
  show rust.crc = crcHdlc _
  decide +kernel

theorem recordBytes_rust : recordBytes serialized.ibuf rust = recRust := by decide +kernel

theorem witness_ChunkRoundTrip : ∃ (s t u : State) (idx : BitVec 16) (d : Desc) (b : Nat), s.params.wf ∧
    s.dt[idx.toNat]? = some d ∧ d.Live s.params.ibufBytes ∧ checksumGood s.ibuf d ∧ s.regs.status.err = false ∧
    exec (.chunkSerialize idx) s = .next t ∧ t.regs.status.err = false ∧ u.params = s.params ∧
    u.dt.length < u.params.maxChunks ∧ addr u = b ∧ len u = 12 + d.len.toNat ∧ inRange u ∧
    ∀ i < 12 + d.len.toNat, u.ibuf.read (b + i) = t.obuf.read i := by
  refine ⟨serialized, ((serialized.writeOutput recRust).setResult 13).complete, loaded 0x100 recRust, 0, rust, 0x100,
    by decide, rfl, live_rust, checksumGood_rust, rfl, ?_, rfl, rfl, by decide, rfl, by decide, by unfold inRange; decide,
    by decide +kernel⟩
  have h : chunkBytes serialized.ibuf rust = recRust := (recordBytes_eq _ _).symm.trans recordBytes_rust
  simp only [exec, execChunkSerialize, State.descAt]
  rw [show serialized.dt[(0 : BitVec 16).toNat]? = some rust from rfl]
  simp only [h]
  rfl

theorem witness_CorruptedChecksumFails : ∃ (m : Memory) (d : Desc) (u : State) (k : Nat), checksumGood m d ∧ inRange u ∧
    len u = 12 + d.len.toNat ∧ 8 + d.len.toNat ≤ k ∧ k + 1 = 12 + d.len.toNat ∧
    (∀ i < 12 + d.len.toNat, i ≠ k → some (u.ibuf.read (addr u + i)) = (recordBytes m d)[i]?) ∧
    some (u.ibuf.read (addr u + k)) ≠ (recordBytes m d)[k]? := by
  refine ⟨serialized.ibuf, rust,
    loaded 0x100 [0x00, 0x00, 0x00, 0x01, 0x52, 0x75, 0x73, 0x74, 0x78, 0x9B, 0x2A, 0xA8, 0xEC], 12, checksumGood_rust,
    by unfold inRange; decide, by decide, by decide, by decide, ?_, ?_⟩ <;> rw [recordBytes_rust] <;> decide +kernel

theorem witness_TruncatedRecordFails :
    (∃ (m : Memory) (d : Desc) (u : State), inRange u ∧ len u + 1 = 12 + d.len.toNat ∧
      ∀ i < len u, some (u.ibuf.read (addr u + i)) = (recordBytes m d)[i]?) ∧
    (∃ (d : Desc) (u : State), inRange u ∧ len u = 0 ∧ len u < 12 + d.len.toNat) ∧
    ∃ u : State, u.params.wf ∧ inRange u ∧ field u.ibuf (addr u) = 2 ^ 31 := by
  refine ⟨⟨serialized.ibuf, rust, loaded 0x100 (recRust.take 12), by unfold inRange; decide, by decide, ?_⟩,
    ⟨rust, window 0 0 0, by unfold inRange; decide, rfl, by decide⟩,
    ⟨loaded 0x100 [0x80, 0x00, 0x00, 0x00, 0x52, 0x75, 0x53, 0x74], by decide, by unfold inRange; decide,
      by decide +kernel⟩⟩
  rw [recordBytes_rust]
  decide +kernel

theorem witness_FrameRoundTrip : ∃ s t u : State, s.params.wf ∧
    (∀ d ∈ s.dt, d.Live s.params.ibufBytes ∧ checksumGood s.ibuf d) ∧ s.dt.length ≤ s.params.maxChunks ∧
    s.regs.status.err = false ∧ exec .frameSerialize s = .next t ∧ t.regs.status.err = false ∧ u.params = s.params ∧
    len u = frameSize s.dt ∧ inRange u ∧ u.regs.status.err = false ∧
    (∀ i < frameSize s.dt, u.ibuf.read (addr u + i) = t.obuf.read i) ∧ s.dt ≠ [] := by
  refine ⟨serialized, ((serialized.writeOutput (preamble ++ recRust)).setResult 21).complete,
    loaded 0x200 (preamble ++ recRust), by decide, ?_, by decide, rfl, ?_, rfl, rfl, by decide, by unfold inRange; decide,
    rfl, by decide +kernel, by decide⟩
  · intro d hd
    rcases List.mem_singleton.1 hd with rfl
    exact ⟨live_rust, checksumGood_rust⟩
  · have h : frameBytes serialized.preamble serialized.ibuf serialized.dt = preamble ++ recRust := by decide +kernel
    simp only [exec, execFrameSerialize, h]
    rfl

theorem witness_AppendFindRemoveScenario : ∃ s : State, s.pend = none ∧ inRange s ∧ letters s.regs.type ∧
    s.dt.length < s.params.maxChunks ∧ s.params.wf ∧ (∀ d ∈ s.dt, d.type ≠ s.regs.type) ∧ s.dt ≠ [] :=
  ⟨withTable [rust] (window 0 42 0x52755374), rfl, by unfold inRange; decide, by rw [letters_iff]; decide, by decide,
    by decide, by decide, by decide⟩

end Sys2Proof.Tests
end

section
/-!
PROOFS. The family of 00_scope.md: how a command can end, and the invariant of the block.
-/

namespace Sys2Proof.Machine

/-! ### Facts about what a command parses -/

/-- The records of a window inside IBUF are descriptors that satisfy 10_state.md R41 (a), (b) and (c). -/
theorem RecordsTo.live {ibuf : Memory} {a n p q size : Nat} {ds : List Desc} (h : RecordsTo ibuf a n p q ds)
    (hw : a + n ≤ size) (hs : size ≤ 2 ^ 30) {d : Desc} (hd : d ∈ ds) : d.Live size ∧ d.ChecksumHolds ibuf := by
  obtain ⟨ha, -, hin, hc⟩ := recordsTo_mem h (by omega) hd
  exact ⟨⟨ha, by simp only [Desc.inIbuf]; omega⟩, hc⟩

/-- An accepted record is the only record of its part of the window. -/
theorem recordsTo_of_chunkParse {ibuf : Memory} {a n k : Nat} {d : Desc} (h : chunkParse ibuf a n = .ok (d, k)) :
    RecordsTo ibuf a n 0 (recordLength d) [d] := by
  obtain ⟨rfl, hle⟩ := chunkParse_consumed h
  have := recordLength_pos d
  exact ⟨by omega, h, Nat.zero_add _⟩

theorem chunkParse_error_ne_none {ibuf : Memory} {p avail : Nat} {code : ErrCode}
    (h : chunkParse ibuf p avail = .error code) : code ≠ .none := by
  rcases chunkParse_error.1 h with ⟨-, rfl⟩ | ⟨-, -, rfl⟩ | ⟨-, -, -, rfl⟩ <;> exact ErrCode.noConfusion

theorem frameLoop_error_ne_none {ibuf : Memory} {maxChunks a n fuel p q : Nat} {ds : List Desc} {code : ErrCode}
    (h : frameLoop ibuf maxChunks a n fuel p ds = .error (code, q)) : code ≠ .none := by
  obtain ⟨_, _, -, -, -, hc | ⟨rfl, -⟩⟩ := frameLoop_error h
  · exact chunkParse_error_ne_none hc
  · exact ErrCode.noConfusion

/-! ### How a command can end -/

/-- Registers `r` that differ from `r₀` only in what a command computes: RESULT, DESC_*, CRC_STATE, MATCH and
FOUND. -/
def Regs.OnlyResultsDiffer (r r₀ : Regs) : Prop :=
  r = { r₀ with
    result := r.result
    desc := r.desc
    crcState := r.crcState
    status := { r₀.status with matched := r.status.matched, found := r.status.found } }

namespace Regs.OnlyResultsDiffer

variable {r r₀ : Regs} (h : r.OnlyResultsDiffer r₀)
include h

theorem irqEn : r.irqEn = r₀.irqEn := congrArg (·.irqEn) h
theorem errInfo : r.errInfo = r₀.errInfo := congrArg (·.errInfo) h
theorem err : r.status.err = r₀.status.err := congrArg (·.status.err) h
theorem errcode : r.status.errcode = r₀.status.errcode := congrArg (·.status.errcode) h

end Regs.OnlyResultsDiffer

/-- The commands that change DT (10_state.md R41). -/
def ChangesTable (i : Instr) : Prop :=
  i = .chunkNew ∨ i = .chunkParse ∨ i = .frameParse ∨ i = .frameClear ∨ i = .chunkRemove

/-- The commands that write OBUF (10_state.md R46). -/
def WritesOutput (i : Instr) : Prop := i = .frameSerialize ∨ ∃ idx, i = .chunkSerialize idx

/-- The five ways in which command `i` can end from state `s` (60_exceptions.md R231, R232; 43_container.md R173). -/
inductive CommandEnd (i : Instr) (s : State) : State → Prop
  /-- It completes, having changed result registers only. -/
  | registers {r : Regs} (hr : r.OnlyResultsDiffer s.regs) : CommandEnd i s (State.complete { s with regs := r })
  /-- It completes with another DT, whose new descriptors satisfy 10_state.md R41. -/
  | table {r : Regs} {ds : List Desc} (hi : ChangesTable i) (hr : r.OnlyResultsDiffer s.regs)
      (hlen : s.dt.length ≤ s.params.maxChunks → ds.length ≤ s.params.maxChunks)
      (hmem : s.params.wf → ∀ d ∈ ds, d ∈ s.dt ∨ (d.Live s.params.ibufBytes ∧ d.ChecksumHolds s.ibuf)) :
      CommandEnd i s (State.complete { s with regs := r, dt := ds })
  /-- It completes with its output in OBUF from offset 0. -/
  | output {r : Regs} {bytes : List Byte} (hi : WritesOutput i) (hr : r.OnlyResultsDiffer s.regs)
      (hlen : bytes.length ≤ s.params.obufBytes) :
      CommandEnd i s (State.complete { s with regs := r, obuf := s.obuf.writeBytes 0 bytes })
  /-- It raises an error. -/
  | failed {code : ErrCode} {info : Word} (hi : i ≠ .frameParse) (hc : code ≠ .none) :
      CommandEnd i s (s.raiseError code info)
  /-- It is FRAME_PARSE, and raises an error. -/
  | rejected {code : ErrCode} {info : Word} (hi : i = .frameParse) (hc : code ≠ .none) :
      CommandEnd i s (s.rejectFrame code info)

namespace CommandEnd

variable {s t : State}

theorem of_execCrcBuf (h : execCrcBuf s = .next t) : CommandEnd .crcBuf s t := by
  cases h
  split
  · exact .registers rfl
  · exact .failed Instr.noConfusion ErrCode.noConfusion

theorem of_execTypeCheck (h : execTypeCheck s = .next t) : CommandEnd .typeCheck s t := by
  cases h
  split
  · exact .registers rfl
  · exact .failed Instr.noConfusion ErrCode.noConfusion

theorem of_execDescRead {idx : BitVec 16} (h : execDescRead idx s = .next t) : CommandEnd (.descRead idx) s t := by
  cases h
  split
  · exact .failed Instr.noConfusion ErrCode.noConfusion
  · exact .registers rfl

theorem of_execChunkFind (h : execChunkFind s = .next t) : CommandEnd .chunkFind s t := by
  cases h
  split <;> exact .registers rfl

/-- Appending a sound descriptor to a table that is not full. -/
theorem of_appendDesc {i : Instr} {d : Desc} {v : Word} (hi : ChangesTable i)
    (hfull : s.dt.length ≠ s.params.maxChunks)
    (hd : s.params.wf → d.Live s.params.ibufBytes ∧ d.ChecksumHolds s.ibuf) :
    CommandEnd i s (s.appendDesc d v).complete := by
  refine .table (ds := s.dt ++ [d]) hi rfl (fun hle => ?_) fun hp e he => ?_
  · simp only [List.length_append, List.length_singleton]
    omega
  · rcases List.mem_append.1 he with he | he
    · exact .inl he
    · exact .inr (List.mem_singleton.1 he ▸ hd hp)

theorem of_execChunkNew (h : execChunkNew s = .next t) : CommandEnd .chunkNew s t := by
  cases h
  split
  · exact .failed Instr.noConfusion ErrCode.noConfusion
  · rename_i hw
    split
    · exact .failed Instr.noConfusion ErrCode.noConfusion
    · rename_i ha
      split
      · exact .failed Instr.noConfusion ErrCode.noConfusion
      · rename_i hfull
        exact of_appendDesc (.inl rfl) hfull fun _ => ⟨⟨by simpa [State.newDesc] using ha, not_not.1 hw⟩, rfl⟩

theorem of_execChunkParse (h : execChunkParse s = .next t) : CommandEnd .chunkParse s t := by
  cases h
  split
  · exact .failed Instr.noConfusion ErrCode.noConfusion
  · rename_i hw
    split
    · rename_i hc
      exact .failed Instr.noConfusion (chunkParse_error_ne_none hc)
    · rename_i d k hc
      split
      · exact .failed Instr.noConfusion ErrCode.noConfusion
      · rename_i hfull
        exact of_appendDesc (.inr (.inl rfl)) hfull fun ⟨⟨_, hs⟩, _⟩ =>
          (recordsTo_of_chunkParse hc).live (not_not.1 hw) hs (List.mem_singleton_self d)

theorem of_execChunkSerialize {idx : BitVec 16} (h : execChunkSerialize idx s = .next t) :
    CommandEnd (.chunkSerialize idx) s t := by
  unfold execChunkSerialize at h
  split at h
  · cases h
    exact .failed Instr.noConfusion ErrCode.noConfusion
  · rename_i d _
    split at h
    · cases h
      exact .failed Instr.noConfusion ErrCode.noConfusion
    · rename_i hfit
      split at h
      · cases h
        exact .output (bytes := chunkBytes s.ibuf d) (.inr ⟨idx, rfl⟩) rfl (by simpa using hfit)
      · cases h

theorem of_execFrameClear (h : execFrameClear s = .next t) : CommandEnd .frameClear s t := by
  cases h
  exact .table (ds := []) (.inr (.inr (.inr (.inl rfl)))) rfl (fun _ => Nat.zero_le _) fun _ _ hd =>
    absurd hd List.not_mem_nil

theorem of_execFrameParse (h : execFrameParse s = .next t) : CommandEnd .frameParse s t := by
  cases h
  dsimp only
  split
  · exact .rejected rfl ErrCode.noConfusion
  · rename_i hw
    split
    · exact .rejected rfl ErrCode.noConfusion
    · rename_i hpre
      have h8 : 8 ≤ s.regs.len.toNat := by
        by_contra hlt
        simp [preambleOk, hlt] at hpre
      split
      · rename_i hloop
        exact .rejected rfl (frameLoop_error_ne_none hloop)
      · rename_i ds hloop
        obtain ⟨_, rfl, hrec, hlen⟩ := (frameLoop_ok h8 (Nat.sub_le _ _) (Nat.zero_le _)).1 hloop
        exact .table (ds := ds) (.inr (.inr (.inl rfl))) rfl (fun _ => hlen) fun ⟨⟨_, hs⟩, _⟩ _ hd =>
          .inr (hrec.live (not_not.1 hw) hs hd)

theorem of_execFrameSerialize (h : execFrameSerialize s = .next t) : CommandEnd .frameSerialize s t := by
  unfold execFrameSerialize at h
  split at h
  · cases h
    exact .failed Instr.noConfusion ErrCode.noConfusion
  · rename_i hfit
    split at h
    · cases h
    · cases h
      refine .output (bytes := frameBytes s.preamble s.ibuf s.dt) (.inl rfl) rfl ?_
      rw [length_frameBytes (by simp [State.preamble])]
      exact not_lt.1 hfit

theorem of_execChunkRemove (h : execChunkRemove s = .next t) : CommandEnd .chunkRemove s t := by
  cases h
  split
  · exact .failed Instr.noConfusion ErrCode.noConfusion
  · rename_i i d _
    exact .table (ds := s.dt.eraseIdx i) (.inr (.inr (.inr (.inr rfl)))) rfl
      (Nat.le_trans (List.length_eraseIdx_le _ _)) fun _ _ hd => .inl (List.mem_of_mem_eraseIdx hd)

/-- Every command that answers a next state ends in one of the five ways. -/
theorem of_exec {i : Instr} (hi : Claims.isCommand i) (h : exec i s = .next t) : CommandEnd i s t := by
  cases i with
  | nop => cases h; exact .registers rfl
  | crcInit => cases h; exact .registers rfl
  | crcBuf => exact of_execCrcBuf h
  | crcCheck => cases h; exact .registers rfl
  | chunkNew => exact of_execChunkNew h
  | chunkParse => exact of_execChunkParse h
  | chunkSerialize idx => exact of_execChunkSerialize h
  | descRead idx => exact of_execDescRead h
  | typeCheck => exact of_execTypeCheck h
  | frameClear => exact of_execFrameClear h
  | frameParse => exact of_execFrameParse h
  | frameSerialize => exact of_execFrameSerialize h
  | chunkFind => exact of_execChunkFind h
  | chunkRemove => exact of_execChunkRemove h
  | crcDinWrite | statusW1c | ctrlWriteIrqEn | ctrlSoftReset | cmdIssue | regRead | regWrite | ibufWrite | bufRead
    | obufWrite => exact hi.elim

end CommandEnd

/-! ### What every command does -/

/-- Settles O45, by the five ways in which a command can end. -/
theorem everyCommandCompletesAndKeepsIbuf : Obligations.EveryCommandCompletesAndKeepsIbuf := by
  intro i s t hi h
  cases CommandEnd.of_exec hi h with
  | registers hr | table _ hr =>
    exact ⟨rfl, rfl, by simp [State.irq, hr.irqEn], rfl, rfl, rfl, rfl, rfl, fun ho => absurd rfl ho⟩
  | output hw hr => exact ⟨rfl, rfl, by simp [State.irq, hr.irqEn], rfl, rfl, rfl, rfl, rfl, fun _ => hw⟩
  | failed | rejected => exact ⟨rfl, rfl, Bool.and_true _, rfl, rfl, rfl, rfl, rfl, fun ho => absurd rfl ho⟩

/-! ### The invariant at reset -/

/-- Settles O10: every clause is a fact about the reset values (10_state.md R21, 00_scope.md R9). -/
theorem invariantHoldsAtReset : Obligations.InvariantHoldsAtReset :=
  Inv.resetRegisters (s := State.reset) (by decide) (Memory.InBounds.unspecified 0 _)
    (Memory.InBounds.unspecified 1 _) (by decide)

/-! ### The engine keeps the invariant -/

/-- Completion keeps the invariant when only result registers, DT and OBUF have changed, DT and OBUF to good
values. -/
theorem Inv.completeWith {s : State} {r : Regs} {ds : List Desc} {o : Memory} (h : Inv s) (hb : s.busy = true)
    (hr : r.OnlyResultsDiffer s.regs) (hlen : ds.length ≤ s.params.maxChunks)
    (hl : ∀ d ∈ ds, d.Live s.params.ibufBytes) (ho : o.InBounds s.params.obufBytes)
    (he : o.epoch = s.obuf.epoch) : Inv (State.complete { s with regs := r, dt := ds, obuf := o }) := by
  obtain ⟨hs, -, -⟩ := h.busyClear hb
  exact Inv.complete h hb rfl rfl ho he hlen hl (by simp [hr.err, hs, Status.clear])
    (by simp [hr.errcode, hs, Status.clear]) hr.errInfo rfl

theorem Inv.commandEnd {i : Instr} {s t : State} (h : Inv s) (hb : s.busy = true) (ht : CommandEnd i s t) :
    Inv t := by
  cases ht with
  | registers hr => exact h.completeWith hb hr h.table h.live h.obuf rfl
  | table _ hr hlen hmem =>
    exact h.completeWith hb hr (hlen h.table)
      (fun d hd => (hmem h.params d hd).elim (h.live d) And.left) h.obuf rfl
  | output _ hr hlen =>
    exact h.completeWith hb hr h.table h.live (h.obuf.writeBytes (by omega)) (Memory.epoch_writeBytes _ _ _)
  | failed _ hc => exact h.raiseError hb rfl h.table h.live hc _
  | rejected _ hc => exact h.raiseError hb rfl (Nat.zero_le _) (fun _ hd => absurd hd List.not_mem_nil) hc _

/-! ### The host keeps the invariant -/

/-- The answer to an access is no part of the invariant, and a draw only moves the count on. -/
theorem Inv.respond {s : State} (h : Inv s) (r : Option Response) {n : Nat} (hn : s.draws ≤ n) :
    Inv { s with resp := r, draws := n } :=
  h.congr rfl rfl rfl rfl rfl rfl rfl rfl hn

theorem Inv.hostWrite {s e : State} {legal : Bool} (h : Inv s) (he : legal = true → s.busy = false → Inv e) :
    Inv (s.hostWrite legal e) := by
  rcases s.hostWrite_cases legal e with ⟨-, ht⟩ | ⟨-, -, ht⟩ | ⟨hl, hb, ht⟩ <;> rw [ht]
  · exact h.respond _ le_rfl
  · exact h.respond _ le_rfl
  · exact (he hl hb).respond _ le_rfl

theorem Inv.writeCtrl {s : State} (h : Inv s) (v : Word) : Inv (s.writeCtrl v) := by
  rw [State.writeCtrl_eq]
  split
  · exact h.softReset
  · exact h.congr rfl rfl rfl rfl rfl rfl rfl rfl le_rfl

theorem Inv.hostWriteCtrl {s : State} (h : Inv s) (legal : Bool) (v : Word) :
    Inv (s.hostWriteAlways legal (s.writeCtrl v)) := by
  rcases s.hostWriteAlways_cases legal (s.writeCtrl v) with ⟨-, ht⟩ | ⟨-, ht⟩ <;> rw [ht]
  · exact h.respond _ le_rfl
  · exact (h.writeCtrl v).respond _ le_rfl

/-- Clearing DONE of an idle block keeps the invariant, which says nothing of DONE while BUSY = 0. -/
theorem Inv.clearDone {s : State} (h : Inv s) (hb : s.busy = false) (v : Word) : Inv (s.clearDone v) := by
  unfold State.clearDone
  split
  · exact { h with busyClear := fun hb' => absurd hb' (by simpa [State.busy] using hb) }
  · exact h

theorem Inv.writeRegister {s : State} (h : Inv s) (hb : s.busy = false) (v : Word) (r : Reg) :
    Inv (s.writeRegister v r) := by
  cases r
  case ctrl => exact h.writeCtrl v
  case status => exact h.clearDone hb v
  case cmd => exact h.issue v
  all_goals exact h.congr rfl rfl rfl rfl rfl rfl rfl rfl le_rfl

theorem Inv.writeOffset {s : State} (h : Inv s) (hb : s.busy = false) (off : RegOffset) (v : Word) :
    Inv (s.writeOffset off v) := by
  unfold State.writeOffset
  split
  · exact h
  · exact h.writeRegister hb v _

/-- The lanes of a legal access lie in its buffer (20_memory.md R61). -/
theorem Memory.InBounds.writeLanes {m : Memory} {size off : Nat} {w : Width} (h : m.InBounds size)
    (hl : bufAccessLegal size off w = true) (v : Word) : (m.writeBytes off (laneBytes w.bytes v)).InBounds size := by
  simp only [bufAccessLegal, Bool.and_eq_true, decide_eq_true_eq] at hl
  exact h.writeBytes (by simpa using hl.2)

theorem Inv.storeIbuf {s : State} {off : Nat} {w : Width} (h : Inv s)
    (hl : bufAccessLegal s.params.ibufBytes off w = true) (v : Word) : Inv (s.storeIbuf off w.bytes v) :=
  { h with
    ibuf := h.ibuf.writeLanes hl v
    epochs := by simpa using h.epochs }

theorem Inv.storeObuf {s : State} {off : Nat} {w : Width} (h : Inv s)
    (hl : bufAccessLegal s.params.obufBytes off w = true) (v : Word) : Inv (s.storeObuf off w.bytes v) :=
  { h with
    obuf := h.obuf.writeLanes hl v
    epochs := by simpa using h.epochs }

theorem Inv.execRegRead {s t : State} {off : RegOffset} {w : Width} (h : Inv s)
    (ht : execRegRead off w s = .next t) : Inv t := by
  cases ht
  split
  · split
    · exact h.respond _ (Nat.le_succ _)
    · exact h.respond _ le_rfl
  · exact h.respond _ le_rfl

theorem Inv.execBufRead {s t : State} {b : Buffer} {off : Nat} {w : Width} (h : Inv s)
    (ht : execBufRead b off w s = .next t) : Inv t := by
  cases ht
  split
  · split
    · exact h.respond _ (Nat.le_succ _)
    · exact h.respond _ le_rfl
  · exact h.respond _ le_rfl

theorem Inv.execRegWrite {s t : State} {off : RegOffset} {w : Width} {v : Word} (h : Inv s)
    (ht : execRegWrite off w v s = .next t) : Inv t := by
  cases ht
  split
  · exact h.hostWriteCtrl _ v
  · exact h.hostWrite fun _ hb => h.writeOffset hb off v

/-! ### Every step keeps the invariant -/

/-- The meaning of an operation keeps the invariant; a command is performed only while it is pending. -/
theorem Inv.exec {i : Instr} {s t : State} (h : Inv s) (hb : Claims.isCommand i → s.busy = true)
    (ht : exec i s = .next t) : Inv t := by
  cases i with
  | nop | crcInit | crcBuf | crcCheck | chunkNew | chunkParse | chunkSerialize | descRead | typeCheck | frameClear
    | frameParse | frameSerialize | chunkFind | chunkRemove =>
    exact h.commandEnd (hb trivial) (.of_exec (by trivial) ht)
  | crcDinWrite w v => cases ht; exact h.hostWrite fun _ hb => h.writeRegister hb v .crcDin
  | statusW1c w v => cases ht; exact h.hostWrite fun _ hb => h.clearDone hb v
  | ctrlWriteIrqEn w v | ctrlSoftReset w v => cases ht; exact h.hostWriteCtrl _ v
  | cmdIssue w v => cases ht; exact h.hostWrite fun _ _ => h.issue v
  | regRead off w => exact h.execRegRead ht
  | regWrite off w v => exact h.execRegWrite ht
  | ibufWrite off w v => cases ht; exact h.hostWrite fun hl _ => h.storeIbuf hl v
  | bufRead b off w => exact h.execBufRead ht
  | obufWrite off w v => cases ht; exact h.hostWrite fun hl _ => h.storeObuf hl v

/-- A host access is no command. -/
theorem not_isCommand_decodeAccess (a : Access) : ¬ Claims.isCommand (decodeAccess a) := by
  unfold decodeAccess
  repeat' split
  all_goals exact id

/-- The engine runs a command, or refuses a word, only while PEND holds it (60_exceptions.md R231). -/
theorem engineTurn_cases (p : Option Word) :
    engineTurn p = .idle ∨ (p ≠ none ∧ ((∃ w, engineTurn p = .illegal w) ∨ ∃ i, engineTurn p = .run i)) := by
  cases p with
  | none => exact .inl rfl
  | some w =>
    refine .inr ⟨Option.some_ne_none w, ?_⟩
    rw [engineTurn]
    split
    · exact .inr ⟨_, rfl⟩
    · exact .inl ⟨w, rfl⟩

/-- What comes next (20_memory.md R73): a reset, a host access or the engine's turn, and the queue moves on. -/
theorem State.fetch_cases (s : State) :
    ∃ turn rest, s.fetch = (turn, { s with inputs := rest }) ∧
      (turn = .hardwareReset ∨ (∃ a, turn = .run (decodeAccess a)) ∨ turn = engineTurn s.pend) := by
  unfold State.fetch
  split
  · exact ⟨_, s.inputs, rfl, .inr (.inr rfl)⟩
  · exact ⟨_, _, rfl, .inr (.inr rfl)⟩
  · exact ⟨_, _, rfl, .inr (.inl ⟨_, rfl⟩)⟩
  · exact ⟨_, _, rfl, .inl rfl⟩

/-- Taking an entry from the queue keeps the invariant. -/
theorem Inv.setInputs {s : State} (h : Inv s) (rest : List Event) : Inv { s with inputs := rest } :=
  h.congr rfl rfl rfl rfl rfl rfl rfl rfl le_rfl

/-- Settles O11: the queue moves on, and the reset, the host access or the engine's turn that it brings keeps the
invariant. -/
theorem everyStepKeepsTheInvariant : Obligations.EveryStepKeepsTheInvariant := by
  intro s t hs h
  obtain ⟨turn, rest, hf, hturn⟩ := s.fetch_cases
  have hs' := hs.setInputs rest
  rw [step, hf] at h
  rcases hturn with rfl | ⟨a, rfl⟩ | rfl
  · cases h
    exact hs'.hardwareReset
  · exact hs'.exec (fun hi => absurd hi (not_isCommand_decodeAccess a)) h
  · rcases engineTurn_cases s.pend with he | ⟨hp, ⟨w, he⟩ | ⟨i, he⟩⟩ <;> rw [he] at h
    · cases h
      exact hs'
    · cases h
      exact hs'.raiseError ((State.busy_iff _).2 hp) rfl hs'.table hs'.live ErrCode.noConfusion w
    · exact hs'.exec (fun _ => (State.busy_iff _).2 hp) h

end Sys2Proof.Machine
end

section
/-!
PROOFS. The family of 10_state.md: what changes DT and the result registers, the reads right after reset, and the
model's one fault.
-/

namespace Sys2Proof.Machine

/-! ### What changes the result registers -/

/-- The operations that change CRC_STATE (10_state.md R38). -/
def WritesCrcState (i : Instr) : Prop :=
  i = .crcInit ∨ i = .crcBuf ∨ (∃ w v, i = .crcDinWrite w v) ∨ (∃ w v, i = .regWrite 0x070 w v) ∨
    ∃ w v, i = .ctrlSoftReset w v

/-- The operations that load DESC_* (10_state.md R42), or reset it. -/
def LoadsDesc (i : Instr) : Prop :=
  i = .chunkNew ∨ i = .chunkParse ∨ (∃ idx, i = .descRead idx) ∨ i = .chunkFind ∨ i = .chunkRemove ∨
    ∃ w v, i = .ctrlSoftReset w v

/-- Registers `r` that operation `i` may leave from `r₀`: it changes CRC_STATE and DESC_* and sets MATCH and FOUND
only as 10_state.md R26, R38 and R42 say. -/
structure Regs.ChangedBy (i : Instr) (r r₀ : Regs) : Prop where
  crcState : r.crcState = r₀.crcState ∨ WritesCrcState i
  desc : r.desc = r₀.desc ∨ LoadsDesc i
  matched : r.status.matched = true → r₀.status.matched = true ∨ i = .crcCheck
  found : r.status.found = true → r₀.status.found = true ∨ i = .chunkFind

namespace Regs.ChangedBy

variable {i : Instr} {r r₀ : Regs}

/-- None of the result registers changes. -/
theorem of_kept (hc : r.crcState = r₀.crcState) (hd : r.desc = r₀.desc)
    (hm : r.status.matched = r₀.status.matched) (hf : r.status.found = r₀.status.found) : r.ChangedBy i r₀ :=
  ⟨.inl hc, .inl hd, fun h => .inl (hm ▸ h), fun h => .inl (hf ▸ h)⟩

/-- Of the result registers only DESC_* changes. -/
theorem of_loadsDesc (hi : LoadsDesc i) (hc : r.crcState = r₀.crcState)
    (hm : r.status.matched = r₀.status.matched) (hf : r.status.found = r₀.status.found) : r.ChangedBy i r₀ :=
  ⟨.inl hc, .inr hi, fun h => .inl (hm ▸ h), fun h => .inl (hf ▸ h)⟩

/-- Of the result registers only CRC_STATE changes. -/
theorem of_writesCrcState (hi : WritesCrcState i) (hd : r.desc = r₀.desc)
    (hm : r.status.matched = r₀.status.matched) (hf : r.status.found = r₀.status.found) : r.ChangedBy i r₀ :=
  ⟨.inr hi, .inl hd, fun h => .inl (hm ▸ h), fun h => .inl (hf ▸ h)⟩

/-- An error leaves the result registers as they are (60_exceptions.md R232). -/
theorem raiseError {s : State} {code : ErrCode} {info : Word} : (s.raiseError code info).regs.ChangedBy i s.regs :=
  of_kept rfl rfl rfl rfl

end Regs.ChangedBy

/-- A command changes its own result registers only. -/
theorem changedBy_of_command {i : Instr} {s t : State} (hi : Claims.isCommand i) (h : exec i s = .next t) :
    t.regs.ChangedBy i s.regs := by
  cases i with
  | nop | frameClear => cases h; exact .of_kept rfl rfl rfl rfl
  | crcInit => cases h; exact .of_writesCrcState (by simp [WritesCrcState]) rfl rfl rfl
  | crcBuf =>
    cases h
    split
    · exact .of_writesCrcState (by simp [WritesCrcState]) rfl rfl rfl
    · exact .raiseError
  | crcCheck => cases h; exact ⟨.inl rfl, .inl rfl, fun _ => .inr rfl, .inl⟩
  | chunkNew | chunkParse =>
    cases h
    repeat' split
    exacts [.raiseError, .raiseError, .raiseError, .of_loadsDesc (by simp [LoadsDesc]) rfl rfl rfl]
  | descRead | chunkRemove =>
    cases h
    split
    exacts [.raiseError, .of_loadsDesc (by simp [LoadsDesc]) rfl rfl rfl]
  | typeCheck =>
    cases h
    split
    exacts [.of_kept rfl rfl rfl rfl, .raiseError]
  | chunkFind =>
    cases h
    split
    · exact ⟨.inl rfl, .inl rfl, .inl, fun _ => .inr rfl⟩
    · exact ⟨.inl rfl, .inr (by simp [LoadsDesc]), .inl, fun _ => .inr rfl⟩
  | frameParse =>
    cases h
    dsimp only
    repeat' split
    all_goals exact .of_kept rfl rfl rfl rfl
  | chunkSerialize | frameSerialize =>
    simp only [exec, execChunkSerialize, execFrameSerialize] at h
    repeat' split at h
    all_goals cases h
    all_goals exact .of_kept rfl rfl rfl rfl
  | crcDinWrite | statusW1c | ctrlWriteIrqEn | ctrlSoftReset | cmdIssue | regRead | regWrite | ibufWrite | bufRead
    | obufWrite => exact hi.elim

/-! ### What a host access changes -/

/-- State `t` that host access `i` may leave from `s`: DT is kept, or a soft reset empties it, and the result registers
change as `Regs.ChangedBy` says. -/
structure AccessFrame (i : Instr) (s t : State) : Prop where
  dt : t.dt = s.dt ∨ (t.dt = [] ∧ ∃ w v, i = .ctrlSoftReset w v)
  regs : t.regs.ChangedBy i s.regs

namespace AccessFrame

variable {i : Instr} {s t e : State}

theorem of_kept (hd : t.dt = s.dt) (hr : t.regs = s.regs) : AccessFrame i s t :=
  ⟨.inl hd, hr ▸ .of_kept rfl rfl rfl rfl⟩

/-- A write that BUSY = 1 disables changes at most what its effect changes. -/
theorem hostWrite (legal : Bool) (he : AccessFrame i s e) : AccessFrame i s (s.hostWrite legal e) := by
  rcases s.hostWrite_cases legal e with ⟨-, ht⟩ | ⟨-, -, ht⟩ | ⟨-, -, ht⟩ <;> rw [ht]
  · exact .of_kept rfl rfl
  · exact .of_kept rfl rfl
  · exact ⟨he.dt, he.regs⟩

theorem hostWriteAlways (legal : Bool) (he : AccessFrame i s e) : AccessFrame i s (s.hostWriteAlways legal e) := by
  rcases s.hostWriteAlways_cases legal e with ⟨-, ht⟩ | ⟨-, ht⟩ <;> rw [ht]
  · exact .of_kept rfl rfl
  · exact ⟨he.dt, he.regs⟩

theorem clearDone (v : Word) : AccessFrame i s (s.clearDone v) := by
  unfold State.clearDone
  split
  · exact ⟨.inl rfl, .of_kept rfl rfl rfl rfl⟩
  · exact .of_kept rfl rfl

theorem issue (w : Word) : AccessFrame i s (s.issue w) :=
  ⟨.inl rfl, .inl rfl, .inl rfl, Bool.noConfusion, Bool.noConfusion⟩

/-- A CTRL write with SOFT_RESET clear (44_host_access.md R205). -/
theorem writeCtrl {v : Word} (hv : softResetBit v = false) : AccessFrame i s (s.writeCtrl v) := by
  rw [State.writeCtrl_eq, hv]
  exact ⟨.inl rfl, .of_kept rfl rfl rfl rfl⟩

/-- A CTRL write with SOFT_RESET set (44_host_access.md R207). -/
theorem writeCtrl_softReset {w : Width} {v : Word} (hv : softResetBit v = true) :
    AccessFrame (.ctrlSoftReset w v) s (s.writeCtrl v) := by
  rw [State.writeCtrl_eq, if_pos hv, State.softReset_eq]
  exact ⟨.inr ⟨rfl, w, v, rfl⟩, .inr (by simp [WritesCrcState]), .inr (by simp [LoadsDesc]), Bool.noConfusion,
    Bool.noConfusion⟩

/-- A write at an offset without a row of its own (44_host_access.md R201). -/
theorem writeOffset {off : RegOffset} (w : Width) (v : Word) (ho : hasOwnWriteRow off = false) :
    AccessFrame (.regWrite off w v) s (s.writeOffset off v) := by
  obtain ⟨r, ht, hstatus, -, -, -, hdesc, hcrc⟩ := s.writeOffset_eq off v ho
  rw [ht]
  exact ⟨.inl rfl, hcrc.imp_right fun ho => by simp [WritesCrcState, ho], .inl hdesc, fun h => .inl (hstatus ▸ h),
    fun h => .inl (hstatus ▸ h)⟩

theorem of_execRegWrite {off : RegOffset} {w : Width} {v : Word} (ho : hasOwnWriteRow off = false)
    (h : execRegWrite off w v s = .next t) : AccessFrame (.regWrite off w v) s t := by
  cases h
  split
  · rename_i hctrl
    subst hctrl
    cases ho
  · exact .hostWrite _ (.writeOffset w v ho)

theorem of_execRegRead {off : RegOffset} {w : Width} (h : execRegRead off w s = .next t) : AccessFrame i s t := by
  cases h
  repeat' split
  all_goals exact .of_kept rfl rfl

theorem of_execBufRead {b : Buffer} {off : Nat} {w : Width} (h : execBufRead b off w s = .next t) :
    AccessFrame i s t := by
  cases h
  repeat' split
  all_goals exact .of_kept rfl rfl

/-- Every well-formed host access keeps to the frame. -/
theorem of_exec (hi : ¬ Claims.isCommand i) (hw : wellFormed i = true) (h : exec i s = .next t) :
    AccessFrame i s t := by
  cases i with
  | nop | crcInit | crcBuf | crcCheck | chunkNew | chunkParse | chunkSerialize | descRead | typeCheck | frameClear
    | frameParse | frameSerialize | chunkFind | chunkRemove => exact absurd trivial hi
  | crcDinWrite w v =>
    cases h
    exact .hostWrite _ ⟨.inl rfl, .of_writesCrcState (by simp [WritesCrcState]) rfl rfl rfl⟩
  | statusW1c w v => cases h; exact .hostWrite _ (.clearDone v)
  | ctrlWriteIrqEn w v => cases h; exact .hostWriteAlways _ (.writeCtrl (by simpa [wellFormed] using hw))
  | ctrlSoftReset w v => cases h; exact .hostWriteAlways _ (.writeCtrl_softReset hw)
  | cmdIssue w v => cases h; exact .hostWrite _ (.issue v)
  | regRead off w => exact .of_execRegRead h
  | regWrite off w v => exact .of_execRegWrite (by simpa [wellFormed] using hw) h
  | ibufWrite off w v | obufWrite off w v => cases h; exact .hostWrite _ (.of_kept rfl rfl)
  | bufRead b off w => exact .of_execBufRead h

end AccessFrame

/-- Settles O48: a command and a host access each change their own result registers only. -/
theorem whatChangesResultRegisters : Obligations.WhatChangesResultRegisters := by
  intro i s t hw h
  have hr : t.regs.ChangedBy i s.regs := by
    by_cases hi : Claims.isCommand i
    · exact changedBy_of_command hi h
    · exact (AccessFrame.of_exec hi hw h).regs
  exact ⟨hr.crcState.resolve_left, hr.desc.resolve_left, hr.matched, hr.found⟩

/-! ### What changes DT -/

/-- The descriptors that a command adds satisfy 10_state.md R41, and only five commands change DT. -/
theorem CommandEnd.table_frame {i : Instr} {s t : State} (h : CommandEnd i s t) (hp : s.params.wf) :
    (t.dt = s.dt ∨ ChangesTable i) ∧
      ∀ d ∈ t.dt, d ∈ s.dt ∨ (d.Live s.params.ibufBytes ∧ d.ChecksumHolds s.ibuf) := by
  cases h with
  | registers | output | failed => exact ⟨.inl rfl, fun _ => .inl⟩
  | table hi _ _ hmem => exact ⟨.inr hi, hmem hp⟩
  | rejected hi => exact ⟨.inr (.inr (.inr (.inl hi))), fun _ hd => absurd hd List.not_mem_nil⟩

/-- Settles O47: a command by the ways in which it can end, a host access by its frame. -/
theorem onlyFiveCommandsChangeTheTable : Obligations.OnlyFiveCommandsChangeTheTable := by
  intro i s t hw hp h
  by_cases hi : Claims.isCommand i
  · obtain ⟨hdt, hmem⟩ := (CommandEnd.of_exec hi h).table_frame hp
    refine ⟨fun hne => ?_, fun d hd hnew => ?_⟩
    · rcases hdt.resolve_left hne with rfl | rfl | rfl | rfl | rfl <;> simp
    · obtain ⟨hlive, hsum⟩ := (hmem d hd).resolve_left hnew
      exact ⟨(Claims.letters_iff _).2 hlive.alphabetic, hlive.inIbuf, (Claims.checksumGood_iff _ _).2 hsum⟩
  · rcases (AccessFrame.of_exec hi hw h).dt with hdt | ⟨hdt, hreset⟩
    · exact ⟨fun hne => absurd hdt hne, fun d hd hnew => absurd (hdt ▸ hd) hnew⟩
    · exact ⟨fun _ => by simp [hdt, hreset], fun d hd _ => absurd (hdt ▸ hd) List.not_mem_nil⟩

/-! ### Reads right after reset -/

/-- A legal read of an idle block answers with the value at the offset (44_host_access.md R200). -/
theorem exec_regRead_idle {s : State} {off : RegOffset} (hp : s.pend = none) (ho : off.toNat % 4 = 0) :
    exec (.regRead off .word) s = .next (s.respondRead (s.readOffset off)) := by
  simp [exec, execRegRead, regAccessLegal, ho, s.not_busy_iff.2 hp]

/-- Settles O8, register by register; a reserved offset is none of those with a reset value other than 0. -/
theorem readsAfterReset : Obligations.ReadsAfterReset := by
  intro off ho
  rw [exec_regRead_idle rfl ho]
  refine congrArg (fun v => Host.Outcome.next (State.reset.respondRead v)) ?_
  rw [State.readOffset]
  cases hr : regAt off with
  | some r =>
    cases regAt_eq_some.1 hr
    cases r <;> decide +kernel
  | none =>
    have hne (r : Reg) : off ≠ offsetOf r := fun h => by simp [regAt_eq_some.2 h] at hr
    rw [if_neg (show off ≠ 0x000 from hne .id), if_neg (show off ≠ 0x004 from hne .version),
      if_neg (show off ≠ 0x008 from hne .capIbuf), if_neg (show off ≠ 0x00C from hne .capObuf),
      if_neg (show off ≠ 0x010 from hne .capChunks), if_neg (show off ≠ 0x014 from hne .preambleHi),
      if_neg (show off ≠ 0x018 from hne .preambleLo), if_neg (show off ≠ 0x060 from hne .crcPoly),
      if_neg (show off ≠ 0x064 from hne .crcInit), if_neg (show off ≠ 0x068 from hne .crcXorout),
      if_neg (show off ≠ 0x06C from hne .crcCfg), if_neg (show off ≠ 0x070 from hne .crcState)]

/-! ### The model's fault -/

/-- A serializer of a descriptor that fits in OBUF and leaves IBUF stops with its address (log 9). -/
theorem exec_chunkSerialize_outside {s : State} {idx : BitVec 16} {d : Desc} (hd : s.descAt idx = some d)
    (hfit : recordLength d ≤ s.params.obufBytes) (hout : ¬ d.inIbuf s.params.ibufBytes) :
    exec (.chunkSerialize idx) s = .fault (.engineReadOutsideIbuf d.paddr.toNat) := by
  simp only [exec, execChunkSerialize, hd]
  rw [if_neg (not_lt.2 hfit), if_neg hout]

/-- FRAME_SERIALIZE of a table that fits in OBUF stops with the address of the first descriptor that leaves IBUF
(log 9). -/
theorem exec_frameSerialize_outside {s : State} {d : Desc} (hfit : frameLength s.dt ≤ s.params.obufBytes)
    (hd : firstOutside s.params.ibufBytes s.dt = some d) :
    exec .frameSerialize s = .fault (.engineReadOutsideIbuf d.paddr.toNat) := by
  simp only [exec, execFrameSerialize, hd]
  rw [if_neg (not_lt.2 hfit)]

theorem firstOutside_some {n : Nat} {ds : List Desc} {d : Desc} (h : firstOutside n ds = some d) :
    d ∈ ds ∧ ¬ d.inIbuf n :=
  ⟨List.mem_of_find?_eq_some h, by simpa using List.find?_some h⟩

/-- Settles O42: both serializers check IBUF after OBUF, and FRAME_SERIALIZE reports the first descriptor outside. -/
theorem serializersStopOutsideIbuf : Obligations.SerializersStopOutsideIbuf := by
  intro s
  refine ⟨fun idx d hd hfit hout => exec_chunkSerialize_outside hd hfit (not_le.2 hout), ?_⟩
  rintro hfit ⟨e, he, hout⟩
  cases hf : firstOutside s.params.ibufBytes s.dt with
  | none => exact absurd (firstOutside_none.1 hf e he) (not_le.2 hout)
  | some d =>
    obtain ⟨hd, hd'⟩ := firstOutside_some hf
    exact ⟨d, hd, not_le.1 hd', exec_frameSerialize_outside hfit hf⟩

end Sys2Proof.Machine
end

section
/-!
PROOFS. The family of 20_memory.md: what the next step runs, what a host access can do, bus errors, reads without side
effect, mixed-width accesses, and the operands of a pending command.
-/

namespace Sys2Proof.Machine

open Sys2Proof.Claims

/-! ### What the next step runs -/

/-- The engine's turn takes its entry from the queue, if the queue has one (log 2). -/
theorem State.fetch_of_engineNext {s : State} {rest : List Event} (h : engineNext s rest) :
    s.fetch = (engineTurn s.pend, { s with inputs := rest }) := by
  rcases h with h | ⟨h, rfl⟩
  · simp only [State.fetch, h]
  · cases s
    cases h
    rfl

/-- When the engine moves and the pending word decodes, the step is the decoded command. -/
theorem step_of_engineNext {s : State} {rest : List Event} {w : Word} {i : Instr} (h : engineNext s rest)
    (hp : s.pend = some w) (hd : decodeCommand w = .ok i) : step s = exec i { s with inputs := rest } := by
  have hturn : engineTurn s.pend = .run i := by simp only [hp, engineTurn, hd]
  rw [step, State.fetch_of_engineNext h, hturn]

/-- When a host access arrives, the step is that access. -/
theorem step_of_access {s : State} {rest : List Event} {a : Access} (h : s.inputs = .access a :: rest) :
    step s = exec (decodeAccess a) { s with inputs := rest } := by
  simp only [step, State.fetch, h]

/-- Settles O5, by what is fetched in each of the two turns. -/
theorem stepPerformsWhatComesNext : Obligations.StepPerformsWhatComesNext := by
  refine ⟨fun s rest w i hn hp hd => step_of_engineNext hn hp hd, fun s rest a i hs hd => ?_⟩
  cases hd
  exact step_of_access hs

/-! ### What a host access can do -/

/-- The answer to a host read (44_host_access.md R200, R209): a bus error if illegal, a free value of `n` bytes if
BUSY = 1 makes it unspecified, and the value `v` otherwise. -/
def State.hostRead (s : State) (legal free : Bool) (n : Nat) (v : Word) : State :=
  if legal then (if s.busy && free then s.respondFree n else s.respondRead v) else s.busErrorRead

/-- The three things a host read can do (20_memory.md R63, 70_reset_and_hazards.md R261). -/
theorem State.hostRead_cases (s : State) (legal free : Bool) (n : Nat) (v : Word) :
    (legal = false ∧ s.hostRead legal free n v = s.busErrorRead) ∨
    (legal = true ∧ s.busy = true ∧ free = true ∧ s.hostRead legal free n v = s.respondFree n) ∨
    (legal = true ∧ (s.busy = true → free = false) ∧ s.hostRead legal free n v = s.respondRead v) := by
  cases legal <;> cases free <;> cases h : s.busy <;> simp [State.hostRead, h]

/-- Every host read is one of these, legal as 20_memory.md R61 and R62 say. -/
theorem exec_read (s : State) (p : Place) (w : Width) :
    ∃ legal free n v, (legal = true ↔ legalAt s p w) ∧
      exec (decodeAccess (.read p w)) s = .next (s.hostRead legal free n v) := by
  cases p with
  | reg off => exact ⟨_, _, _, _, (legalAt_reg s off w).symm, rfl⟩
  | buf b off => exact ⟨_, _, _, _, (legalAt_buf s b off w).symm, rfl⟩

/-- A CTRL write is the same operation whichever row its data selects (log 12). -/
theorem exec_write_ctrl (s : State) (w : Width) (v : Word) :
    exec (decodeAccess (.write (.reg offCtrl) w v)) s =
      .next (s.hostWriteAlways (regAccessLegal offCtrl w) (s.writeCtrl v)) := by
  rw [decodeAccess, if_pos rfl]
  split <;> rfl

/-- Any other register write, also one with a row of its own, writes the register at its offset. -/
theorem exec_write_reg (s : State) {off : RegOffset} (w : Width) (v : Word) (ho : off ≠ offCtrl) :
    exec (decodeAccess (.write (.reg off) w v)) s =
      .next (s.hostWrite (regAccessLegal off w) (s.writeOffset off v)) := by
  rw [decodeAccess, if_neg ho]
  split
  · subst off; rfl
  split
  · subst off; rfl
  split
  · subst off; rfl
  rw [exec, execRegWrite, if_neg ho]

/-- Every host write but one to CTRL is disabled by BUSY = 1, and legal as 20_memory.md R61 and R62 say. -/
theorem exec_write {p : Place} (s : State) (w : Width) (v : Word) (hp : p ≠ .reg offCtrl) :
    ∃ legal effect, (legal = true ↔ legalAt s p w) ∧
      exec (decodeAccess (.write p w v)) s = .next (s.hostWrite legal effect) := by
  cases p with
  | reg off => exact ⟨_, _, (legalAt_reg s off w).symm, exec_write_reg s w v fun h => hp (h ▸ rfl)⟩
  | buf b off => cases b <;> exact ⟨_, _, (legalAt_buf s _ off w).symm, rfl⟩

/-! ### Bus errors -/

/-- An illegal read changes the response only (20_memory.md R63). -/
theorem exec_read_illegal {s : State} {p : Place} {w : Width} (h : ¬ legalAt s p w) :
    exec (decodeAccess (.read p w)) s = .next s.busErrorRead := by
  obtain ⟨legal, free, n, v, hl, he⟩ := exec_read s p w
  rw [he, Bool.eq_false_iff.2 (mt hl.1 h)]
  rfl

/-- An illegal write changes the response only, whatever BUSY is (20_memory.md R63; log 7). -/
theorem exec_write_illegal {s : State} {p : Place} {w : Width} (v : Word) (h : ¬ legalAt s p w) :
    exec (decodeAccess (.write p w v)) s = .next s.busErrorWrite := by
  by_cases hp : p = .reg offCtrl
  · subst hp
    rw [exec_write_ctrl, Bool.eq_false_iff.2 (mt (legalAt_reg s offCtrl w).2 h)]
    rfl
  · obtain ⟨legal, effect, hl, he⟩ := exec_write s w v hp
    rw [he, Bool.eq_false_iff.2 (mt hl.1 h)]
    rfl

/-- Settles O18: neither bus error depends on what the access would have done. -/
theorem illegalAccessIsABusError : Obligations.IllegalAccessIsABusError :=
  fun _ _ _ h => ⟨exec_read_illegal h, fun _ v => exec_write_illegal v h⟩

/-- Settles O19: the legality of a write is checked before BUSY (log 7). -/
theorem illegalWriteWhileBusyIsABusError : Obligations.IllegalWriteWhileBusyIsABusError :=
  fun _ _ _ v h _ => exec_write_illegal v h

/-! ### Reads -/

/-- A host read changes the response and, while BUSY = 1, the count of draws (20_memory.md R70). -/
theorem exec_read_frame (s : State) (p : Place) (w : Width) :
    ∃ r n, exec (decodeAccess (.read p w)) s = .next { s with resp := some r, draws := n } ∧
      (s.pend = none → n = s.draws) := by
  obtain ⟨legal, free, n, v, -, he⟩ := exec_read s p w
  rw [he]
  rcases s.hostRead_cases legal free n v with ⟨-, h⟩ | ⟨-, hb, -, h⟩ | ⟨-, -, h⟩ <;> rw [h]
  · exact ⟨_, _, rfl, fun _ => rfl⟩
  · exact ⟨_, _, rfl, fun hp => absurd hp (s.busy_iff.1 hb)⟩
  · exact ⟨_, _, rfl, fun _ => rfl⟩

/-- Settles O20, by the frame of a host read. -/
theorem readsHaveNoSideEffect : Obligations.ReadsHaveNoSideEffect := by
  intro s p w
  obtain ⟨r, n, he, hn⟩ := exec_read_frame s p w
  exact ⟨_, r, he, rfl, hn⟩

/-! ### Mixed-width accesses -/

/-- A legal IBUF write of an idle block stores its lanes (44_host_access.md R208). -/
theorem exec_ibufWrite_idle {s : State} {off : Nat} {w : Width} (v : Word) (hp : s.pend = none)
    (hl : legalAt s (.buf .ibuf off) w) :
    exec (.ibufWrite off w v) s = .next (s.storeIbuf off w.bytes v).respondWrite := by
  have hlegal : bufAccessLegal s.params.ibufBytes off w = true := (legalAt_buf s .ibuf off w).1 hl
  simp [exec, execIbufWrite, State.hostWrite, hlegal, s.not_busy_iff.2 hp]

/-- A legal IBUF read answers with the bytes there, busy or not (44_host_access.md R209). -/
theorem exec_bufRead_ibuf {s : State} {off : Nat} {w : Width} (hl : legalAt s (.buf .ibuf off) w) :
    exec (.bufRead .ibuf off w) s = .next (s.respondRead (s.readLanes .ibuf off w.bytes)) := by
  simp [exec, execBufRead, (legalAt_buf s .ibuf off w).1 hl]

/-- An aligned access inside a legal word is legal (20_memory.md R61). -/
theorem legalAt_inside_word {s : State} {off i : Nat} {w : Width} (h : legalAt s (.buf .ibuf off) .word)
    (hin : i + w.bytes ≤ 4) (hi : i % w.bytes = 0) : legalAt s (.buf .ibuf (off + i)) w := by
  cases w <;> simp only [legalAt, Width.bytes] at h hin hi ⊢ <;> omega

/-- Bytes i to i+k−1 of the lanes just written have the value of those bytes of the word (20_memory.md R61). -/
theorem laneValue_readBytes_laneBytes (m : Memory) (off : Nat) (v : Word) {n i k : Nat} (h : i + k ≤ n) :
    laneValue ((m.writeBytes off (laneBytes n v)).readBytes (off + i) k) =
      BitVec.ofNat 32 (v.toNat / 2 ^ (8 * i) % 2 ^ (8 * k)) := by
  rw [laneValue, foldr_lanes fun j hj => ?_]
  rw [Nat.add_assoc]
  exact m.read_laneBytes off n v (i + j) (by omega)

/-- Settles O17: the word's lanes are the four bytes that the read finds. -/
theorem mixedWidthAccessesSeeTheSameBytes : Obligations.MixedWidthAccessesSeeTheSameBytes := by
  intro s t off i v w hp hl hin hi ht
  rw [exec_ibufWrite_idle v hp hl] at ht
  cases ht
  rw [← laneValue_readBytes_laneBytes s.ibuf off v hin]
  exact exec_bufRead_ibuf (legalAt_inside_word hl hin hi)

/-! ### The operands of a pending command -/

/-- A host access that does not ask for a soft reset (44_host_access.md R207). -/
def NoSoftReset (a : Access) : Prop := ∀ w v, a = .write (.reg offCtrl) w v → softResetBit v = false

/-- A host access while BUSY = 1 changes IRQ_EN, the response and the count of draws at most (44_host_access.md
R202). -/
theorem exec_access_busy {s : State} {a : Access} (hb : s.busy = true) (ha : NoSoftReset a) :
    ∃ r n e, exec (decodeAccess a) s =
      .next { s with resp := r, draws := n, regs := { s.regs with irqEn := e } } := by
  cases a with
  | read p w =>
    obtain ⟨r, n, he, -⟩ := exec_read_frame s p w
    exact ⟨some r, n, s.regs.irqEn, he⟩
  | write p w v =>
    by_cases hp : p = .reg offCtrl
    · subst hp
      rw [exec_write_ctrl, State.writeCtrl_eq, ha w v rfl]
      rcases s.hostWriteAlways_cases (regAccessLegal offCtrl w) _ with ⟨-, h⟩ | ⟨-, h⟩ <;> rw [h]
      · exact ⟨_, _, s.regs.irqEn, rfl⟩
      · exact ⟨_, _, _, rfl⟩
    · obtain ⟨legal, effect, -, he⟩ := exec_write s w v hp
      rw [he]
      rcases s.hostWrite_cases legal effect with ⟨-, h⟩ | ⟨-, -, h⟩ | ⟨-, hidle, -⟩
      · exact ⟨_, _, s.regs.irqEn, congrArg _ h⟩
      · exact ⟨_, _, s.regs.irqEn, congrArg _ h⟩
      · exact Bool.noConfusion (hb.symm.trans hidle)

/-- The same of any list of host accesses: every one of them finds the command still pending. -/
theorem run_access_busy {s : State} {as : List Access} (hb : s.busy = true) (ha : ∀ a ∈ as, NoSoftReset a) :
    ∃ r n e, core.run as.length { s with inputs := as.map .access } =
      .next { s with inputs := [], resp := r, draws := n, regs := { s.regs with irqEn := e } } := by
  induction as generalizing s with
  | nil => exact ⟨s.resp, s.draws, s.regs.irqEn, rfl⟩
  | cons a as ih =>
    obtain ⟨ha, has⟩ := List.forall_mem_cons.1 ha
    obtain ⟨r, n, e, he⟩ := exec_access_busy (s := { s with inputs := as.map .access }) hb ha
    have hstep := (step_of_access (s := { s with inputs := (a :: as).map .access }) rfl).trans he
    rw [List.length_cons, run_succ _ hstep]
    exact ih (s := { s with resp := r, draws := n, regs := { s.regs with irqEn := e } }) hb has

/-- Settles O50, by induction on the accesses. -/
theorem pendingOperandsAreFrozen : Obligations.PendingOperandsAreFrozen := by
  intro s t as hp ha h
  have has : ∀ a ∈ as, NoSoftReset a := fun a hmem w v hw => ha w v (hw ▸ hmem)
  obtain ⟨r, n, e, hrun⟩ := run_access_busy (s.busy_iff.2 hp) has
  cases hrun.symm.trans h
  rfl

end Sys2Proof.Machine
end

section
/-!
PROOFS. The family of 30_encoding.md: encoding and decoding undo each other, the illegal command words, and the frames
that FRAME_PARSE accepts.
-/

namespace Sys2Proof

/-! ### Command words -/

theorem usesIdx_iff {opc : BitVec 8} : usesIdx opc = true ↔ opc.toNat = 0x12 ∨ opc.toNat = 0x13 := by
  simp [usesIdx, ← BitVec.toNat_inj]

/-- The word of a mapped opcode decodes to its command, if its IDX is 0 where the opcode has none (30_encoding.md
R91, R92). -/
theorem decodeCommand_commandWord {opc : BitVec 8} {idx : BitVec 16} {i : Instr} (hm : opcodeMap opc idx = some i)
    (hx : usesIdx opc = true ∨ idx = 0) : decodeCommand (commandWord opc idx) = .ok i := by
  rw [decodeCommand_ok, opcField_commandWord, idxField_commandWord, rsvField_commandWord]
  exact ⟨hm, rfl, hx⟩

/-- A word that decodes is the encoding of its command, which is well-formed: OPC and IDX are in the command and RSV
is 0 (30_encoding.md R91). -/
theorem encode_of_decodeCommand {w : Word} {i : Instr} (h : decodeCommand w = .ok i) :
    encode i = .command w ∧ wellFormed i = true := by
  obtain ⟨hm, hr, hx⟩ := decodeCommand_ok.1 h
  obtain ⟨hwf, he⟩ := encode_opcodeMap hm
  have hidx : (if usesIdx (opcField w) then idxField w else 0) = idxField w := by
    rcases hx with hu | h0
    · rw [if_pos hu]
    · rw [h0]
      exact ite_self _
  rw [hidx, commandWord_fields hr] at he
  exact ⟨he, hwf⟩

/-! ### Host accesses -/

theorem hasOwnWriteRow_eq_false {off : RegOffset} :
    hasOwnWriteRow off = false ↔ off ≠ offCtrl ∧ off ≠ offStatus ∧ off ≠ offCmd ∧ off ≠ offCrcDin := by
  simp [hasOwnWriteRow, and_assoc]

/-- A CTRL write is the row that its data bit 1 selects (log 12). -/
theorem decodeAccess_write_ctrl (w : Width) (v : Word) :
    decodeAccess (.write (.reg offCtrl) w v) = if softResetBit v then .ctrlSoftReset w v else .ctrlWriteIrqEn w v :=
  rfl

/-- A write at an offset without a row of its own is a REG_WRITE (44_host_access.md R201). -/
theorem decodeAccess_write_reg {off : RegOffset} (h : hasOwnWriteRow off = false) (w : Width) (v : Word) :
    decodeAccess (.write (.reg off) w v) = .regWrite off w v := by
  obtain ⟨hctrl, hstatus, hcmd, hdin⟩ := hasOwnWriteRow_eq_false.1 h
  rw [decodeAccess, if_neg hctrl, if_neg hstatus, if_neg hcmd, if_neg hdin]

/-- What a REG write decodes to encodes to that write, in each of its rows (44_host_access.md R201, R205). -/
theorem encode_decodeAccess_write_reg (off : RegOffset) (w : Width) (v : Word) :
    encode (decodeAccess (.write (.reg off) w v)) = .access (.write (.reg off) w v) ∧
      wellFormed (decodeAccess (.write (.reg off) w v)) = true := by
  cases ho : hasOwnWriteRow off with
  | false =>
    rw [decodeAccess_write_reg ho]
    exact ⟨rfl, by simp [wellFormed, ho]⟩
  | true =>
    simp only [hasOwnWriteRow, Bool.or_eq_true, beq_iff_eq] at ho
    rcases ho with ((rfl | rfl) | rfl) | rfl
    · rw [decodeAccess_write_ctrl]
      cases hv : softResetBit v
      · exact ⟨rfl, by simp [wellFormed, hv]⟩
      · exact ⟨rfl, hv⟩
    all_goals exact ⟨rfl, rfl⟩

/-- What an access decodes to encodes to that access, and is well-formed (30_encoding.md R86). -/
theorem encode_decodeAccess (a : Access) :
    encode (decodeAccess a) = .access a ∧ wellFormed (decodeAccess a) = true := by
  cases a with
  | read p w => cases p <;> exact ⟨rfl, rfl⟩
  | write p w v =>
    cases p with
    | reg off => exact encode_decodeAccess_write_reg off w v
    | buf b off => cases b <;> exact ⟨rfl, rfl⟩

/-! ### Encoding and decoding undo each other -/

/-- Settles O1, row by row: a command without operand is one word, a command with IDX decodes by the fields of its word,
and a host access by its place and its data. -/
theorem decodeOfEncodeIsTheInstruction : Obligations.DecodeOfEncodeIsTheInstruction := by
  intro i hwf
  cases i with
  | nop | crcInit | crcBuf | crcCheck | chunkNew | chunkParse | typeCheck | frameClear | frameParse | frameSerialize
    | chunkFind | chunkRemove => rfl
  | chunkSerialize idx | descRead idx => exact decodeCommand_commandWord rfl (.inl rfl)
  | ctrlWriteIrqEn w v =>
    have hv : softResetBit v = false := by simpa [wellFormed] using hwf
    simp [encode, decode, decodeAccess_write_ctrl, hv]
  | ctrlSoftReset w v =>
    have hv : softResetBit v = true := hwf
    simp [encode, decode, decodeAccess_write_ctrl, hv]
  | regWrite off w v => exact congrArg Except.ok (decodeAccess_write_reg (by simpa [wellFormed] using hwf) w v)
  | crcDinWrite | statusW1c | cmdIssue | regRead | ibufWrite | bufRead | obufWrite => rfl

/-- Settles O2, for a command word by its three fields and for a host access by its place. -/
theorem encodeOfDecodeIsTheCode : Obligations.EncodeOfDecodeIsTheCode := by
  intro c i h
  cases c with
  | command w => exact encode_of_decodeCommand h
  | access a =>
    cases h
    exact encode_decodeAccess a

/-- Settles O3, by evaluating the decoder on each of the nine codes. -/
theorem specEncodingsDecode : Obligations.SpecEncodingsDecode := by
  refine ⟨?_, ?_, ?_, ?_, ?_, ?_, ?_, ?_, ?_⟩ <;> decide

end Sys2Proof

namespace Sys2Proof.Machine

open Sys2Proof.Claims

/-! ### Illegal command words -/

/-- The words that decode are those that 30_encoding.md R94 does not list. -/
theorem exists_decodeCommand_iff {w : Word} : (∃ i, decodeCommand w = .ok i) ↔ ¬ illegalWord w := by
  have hmap : (∃ i, opcodeMap (opcField w) (idxField w) = some i) ↔ opcodeMap (opcField w) (idxField w) ≠ none :=
    Option.ne_none_iff_exists'.symm
  simp only [decodeCommand_ok, exists_and_right, hmap, ne_eq, opcodeMap_eq_none, usesIdx_iff, ← BitVec.toNat_inj,
    toNat_opcField, toNat_rsvField, toNat_idxField, illegalWord, BitVec.toNat_ofNat, Nat.zero_mod]
  tauto

/-- What a command word decodes to is a command: no host access is encoded as a word. -/
theorem isCommand_of_decodeCommand {w : Word} {i : Instr} (h : decodeCommand w = .ok i) : isCommand i := by
  have he := (encode_of_decodeCommand h).1
  cases i with
  | nop | crcInit | crcBuf | crcCheck | chunkNew | chunkParse | chunkSerialize | descRead | typeCheck | frameClear
    | frameParse | frameSerialize | chunkFind | chunkRemove => trivial
  | crcDinWrite | statusW1c | ctrlWriteIrqEn | ctrlSoftReset | cmdIssue | regRead | regWrite | ibufWrite | bufRead
    | obufWrite => cases he

/-- When the engine moves and the pending word does not decode, the step raises IllegalCommand (60_exceptions.md
R228). -/
theorem step_of_engineNext_illegal {s : State} {rest : List Event} {w : Word} (h : engineNext s rest)
    (hp : s.pend = some w) (hw : illegalWord w) : step s = .next (State.raiseIllegal { s with inputs := rest } w) := by
  have hturn : engineTurn s.pend = .illegal w := by
    cases hd : decodeCommand w with
    | ok i => exact absurd hw (exists_decodeCommand_iff.1 ⟨i, hd⟩)
    | error e => simp only [hp, engineTurn, hd]
  rw [step, State.fetch_of_engineNext h, hturn]

/-- Settles O4: a word decodes unless R94 lists it, and the engine's turn at a word that does not decode raises the
error. -/
theorem illegalWordsRaiseIllegalCommand : Obligations.IllegalWordsRaiseIllegalCommand := by
  refine ⟨fun w s rest hw hp hn => step_of_engineNext_illegal hn hp hw, fun w hw => ?_⟩
  obtain ⟨i, hd⟩ := exists_decodeCommand_iff.2 hw
  exact ⟨i, isCommand_of_decodeCommand hd, hd⟩

/-! ### What FRAME_PARSE accepts -/

/-- FRAME_PARSE of a window outside IBUF (43_container.md R172). -/
theorem exec_frameParse_rangeError {s : State} (h : ¬ inRange s) :
    exec .frameParse s = .next (s.rejectFrame .rangeError 0) := by
  simp only [exec, execFrameParse]
  rw [if_pos ((inRange_iff s).not.1 h)]

/-- FRAME_PARSE of a window in IBUF that does not begin with PREAMBLE (43_container.md R171, R172). -/
theorem exec_frameParse_badPreamble {s : State} (h : inRange s) (hp : ¬ preambleThere s) :
    exec .frameParse s = .next (s.rejectFrame .badPreamble s.regs.addr) := by
  have hp' : preambleOk s.preamble s.ibuf s.regs.addr.toNat s.regs.len.toNat = false :=
    Bool.eq_false_iff.2 (mt (preambleThere_iff s).2 hp)
  simp only [exec, execFrameParse, hp']
  rw [if_neg (not_not.2 ((inRange_iff s).1 h))]
  rfl

/-- A FRAME_PARSE that completes with no error has passed its two checks and its loop (43_container.md R172). -/
theorem exec_frameParse_ok {s t : State} (h : exec .frameParse s = .next t) (he : t.regs.status.err = false) :
    inRange s ∧ preambleThere s ∧ ∃ ds, frameLoop s.ibuf s.params.maxChunks (addr s) (len s) (len s) 8 [] = .ok ds ∧
      t = ((s.setTable ds).setResult (BitVec.ofNat 32 ds.length)).complete := by
  by_cases hr : inRange s
  case neg =>
    cases (exec_frameParse_rangeError hr).symm.trans h
    cases he
  by_cases hp : preambleThere s
  case neg =>
    cases (exec_frameParse_badPreamble hr hp).symm.trans h
    cases he
  refine ⟨hr, hp, ?_⟩
  rw [exec_frameParse hr hp] at h
  cases hloop : frameLoop s.ibuf s.params.maxChunks (addr s) (len s) (len s) 8 [] with
  | error e =>
    rw [hloop] at h
    cases h
    cases he
  | ok ds =>
    rw [hloop] at h
    cases h
    exact ⟨ds, rfl, rfl⟩

/-- The bytes of a window that is PREAMBLE and then records to its end (30_encoding.md R87, R88). -/
theorem bytesAt_of_records {s : State} {ds : List Desc} (hp : preambleThere s)
    (hrec : RecordsTo s.ibuf (addr s) (len s) 8 (len s) ds) (hend : addr s + len s + 8 < 2 ^ 32) :
    bytesAt s.ibuf (addr s) (len s) = s.params.preamble.toList ++ ds.flatMap (recordBytes s.ibuf) := by
  obtain ⟨h8, hpre⟩ := hp
  have hrecords : recordBytes s.ibuf = chunkBytes s.ibuf := funext (recordBytes_eq s.ibuf)
  calc bytesAt s.ibuf (addr s) (len s)
      = s.ibuf.readBytes (addr s) (8 + (len s - 8)) := by rw [bytesAt_eq, Nat.add_sub_cancel' h8]
    _ = bytesAt s.ibuf (addr s) 8 ++ s.ibuf.readBytes (addr s + 8) (len s - 8) := by
        rw [Memory.readBytes_add, bytesAt_eq]
    _ = s.params.preamble.toList ++ ds.flatMap (recordBytes s.ibuf) := by
        rw [hpre, readBytes_of_recordsTo hrec hend, hrecords]

/-- Settles O39: past the two checks, the loop ends only at the end of the window, with its records as the table. -/
theorem frameParseAcceptsOnlyFrames : Obligations.FrameParseAcceptsOnlyFrames := by
  intro s t _ h he
  obtain ⟨hr, hp, ds, hloop, rfl⟩ := exec_frameParse_ok h he
  obtain ⟨es, rfl, hrec, -⟩ := (frameLoop_ok hp.1 (Nat.sub_le _ _) (Nat.zero_le _)).1 hloop
  refine ⟨hr, hp, (records_iff _ _ _ _ _ _).2 hrec, fun hwf => bytesAt_of_records hp hrec ?_, rfl⟩
  obtain ⟨⟨-, hsize⟩, -⟩ := hwf
  have hle : addr s + len s ≤ s.params.ibufBytes := hr
  omega

end Sys2Proof.Machine
end

section
/-!
PROOFS. The family of 40_crc_engine.md: the CRC functions, the CRC commands and CRC_DIN, feeding a message in parts, and
the commands that leave the programmable engine alone.
-/

namespace Sys2Proof.Machine

open Sys2Proof.Claims

/-! ### The CRC functions -/

theorem getLsbD_reflect8 (b : Byte) {i : Nat} (hi : i < 8) : (reflect8 b).getLsbD i = b.getLsbD (7 - i) := by
  rw [reflect8, BitVec.getLsbD_reverse, BitVec.getMsbD, decide_eq_true hi, Bool.true_and]

theorem getLsbD_reflect32 (v : Word) {i : Nat} (hi : i < 32) : (reflect32 v).getLsbD i = v.getLsbD (31 - i) := by
  rw [reflect32, BitVec.getLsbD_reverse, BitVec.getMsbD, decide_eq_true hi, Bool.true_and]

/-- The top bit decides on numbers, and the shift drops it modulo 2^32 (40_crc_engine.md R110). -/
theorem toNat_crcShift (poly s : Word) :
    (crcShift poly s).toNat =
      if 2 ^ 31 ≤ s.toNat then (2 * s.toNat % 2 ^ 32) ^^^ poly.toNat else 2 * s.toNat % 2 ^ 32 := by
  have hmsb : s.msb = true ↔ 2 ^ 31 ≤ s.toNat := by simp [BitVec.msb_eq_decide]
  have hshift : (s <<< 1).toNat = 2 * s.toNat % 2 ^ 32 := by
    rw [BitVec.toNat_shiftLeft, Nat.shiftLeft_eq, Nat.pow_one, Nat.mul_comm]
  simp only [crcShift, hmsb]
  split
  · rw [BitVec.toNat_xor, hshift]
  · exact hshift

/-- A byte in the top bits of the register, as a number. -/
theorem setWidth_shiftLeft_byte (b : Byte) : b.setWidth 32 <<< 24 = BitVec.ofNat 32 (b.toNat * 2 ^ 24) := by
  apply BitVec.eq_of_toNat_eq
  simp [Nat.shiftLeft_eq]

theorem crcStep_eq_iterate (s poly : Word) (b : Byte) (refin : Bool) :
    crcStep s b poly refin =
      (crcShift poly)^[8] (s ^^^ BitVec.ofNat 32 ((if refin then reflect8 b else b).toNat * 2 ^ 24)) := by
  rw [crcStep, crcShifts_eq_iterate, setWidth_shiftLeft_byte]

/-- Settles O52, by what each CRC function is on numbers and on bits. -/
theorem crcStepIsTheParameterisedModel : Obligations.CrcStepIsTheParameterisedModel :=
  ⟨toNat_crcShift, crcStep_eq_iterate, fun b _ => getLsbD_reflect8 b, fun v _ => getLsbD_reflect32 v,
    fun s poly bytes refin => (foldl_crcStep bytes s poly refin).symm, fun _ _ _ => rfl⟩

/-! ### The reflected register -/

theorem reflect32_xor (v w : Word) : reflect32 (v ^^^ w) = reflect32 v ^^^ reflect32 w := by
  apply BitVec.eq_of_getLsbD_eq
  intro i hi
  simp only [BitVec.getLsbD_xor, getLsbD_reflect32 _ hi]

theorem reflect32_shiftLeft_one (s : Word) : reflect32 (s <<< 1) = reflect32 s >>> 1 := by
  apply BitVec.eq_of_getLsbD_eq
  intro i hi
  rw [getLsbD_reflect32 _ hi, BitVec.getLsbD_shiftLeft, BitVec.getLsbD_ushiftRight]
  by_cases h : i = 31
  · subst h
    simp [reflect32]
  · rw [getLsbD_reflect32 _ (by omega)]
    simp [show 31 - i < 32 by omega, show ¬ 31 - i < 1 by omega, show 31 - i - 1 = 31 - (1 + i) by omega]

theorem getLsbD_zero_reflect32 (s : Word) : (reflect32 s).getLsbD 0 = s.msb := by
  rw [reflect32, BitVec.getLsbD_reverse, BitVec.msb_eq_getMsbD_zero]

/-- A reflected byte in the top bits of the register is the byte itself in the bottom bits of the reflected one. -/
theorem reflect32_reflect8 (b : Byte) : reflect32 ((reflect8 b).setWidth 32 <<< 24) = b.setWidth 32 := by
  apply BitVec.eq_of_getLsbD_eq
  intro i hi
  rw [getLsbD_reflect32 _ hi, BitVec.getLsbD_shiftLeft, BitVec.getLsbD_setWidth, BitVec.getLsbD_setWidth]
  by_cases h : i < 8
  · rw [getLsbD_reflect8 _ (by omega)]
    simp [hi, show 31 - i < 32 by omega, show ¬ 31 - i < 24 by omega, show 31 - i - 24 < 32 by omega,
      show 7 - (31 - i - 24) = i by omega]
  · simp [show 31 - i < 24 by omega, BitVec.getLsbD_of_ge b i (by omega)]

/-- One turn of the loop of the reflected implementation (40_crc_engine.md R115). -/
def reflectedShift (poly r : Word) : Word :=
  if r.getLsbD 0 then (r >>> 1) ^^^ reflect32 poly else r >>> 1

theorem reflectedStep_eq_iterate (poly r : Word) (b : Byte) :
    reflectedStep poly r b = (reflectedShift poly)^[8] (r ^^^ b.setWidth 32) :=
  rfl

/-- Reflecting the register turns a left shift of the model into a right shift. -/
theorem semiconj_reflect32 (poly : Word) : Function.Semiconj reflect32 (crcShift poly) (reflectedShift poly) := by
  intro s
  rw [crcShift, reflectedShift, getLsbD_zero_reflect32, ← reflect32_shiftLeft_one, ← reflect32_xor]
  split <;> rfl

theorem reflectedStep_reflect32 (poly s : Word) (b : Byte) :
    reflectedStep poly (reflect32 s) b = reflect32 (crcStep s b poly true) := by
  rw [reflectedStep_eq_iterate, crcStep, crcShifts_eq_iterate, (semiconj_reflect32 poly).iterate_right 8 _,
    reflect32_xor, if_pos rfl, reflect32_reflect8]

/-- Settles O54: reflection carries each step of the model to a step of the reflected register, hence the fold over the
bytes. -/
theorem reflectedImplementationAgrees : Obligations.ReflectedImplementationAgrees := by
  refine ⟨by decide +kernel, fun poly s xorout bytes => ?_⟩
  rw [List.foldl_hom reflect32 (reflectedStep_reflect32 poly), foldl_crcStep]
  rfl

/-! ### The CRC commands -/

theorem window_eq_bytesAt (s : State) : s.window = bytesAt s.ibuf (addr s) (len s) :=
  (bytesAt_eq _ _ _).symm

theorem exec_crcInit (s : State) : exec .crcInit s = .next (s.setCrcState s.regs.crcInit).complete := rfl

/-- CRC_BUF of a window in IBUF (40_crc_engine.md R114). -/
theorem exec_crcBuf {s : State} (h : inRange s) :
    exec .crcBuf s =
      .next (s.setCrcState (crcRun s.regs.crcState s.window s.regs.crcPoly s.regs.refin)).complete := by
  rw [exec, execCrcBuf, if_pos ((inRange_iff s).1 h)]

/-- CRC_BUF of a window outside IBUF (40_crc_engine.md R114). -/
theorem exec_crcBuf_rangeError {s : State} (h : ¬ inRange s) : exec .crcBuf s = .next (s.raiseError .rangeError 0) := by
  rw [exec, execCrcBuf, if_neg ((inRange_iff s).not.1 h)]

/-- Settles O31, in and outside IBUF. -/
theorem crcBufRunsOverTheWindow : Obligations.CrcBufRunsOverTheWindow := by
  refine ⟨rfl, fun s => ⟨fun h => ?_, exec_crcBuf_rangeError⟩⟩
  rw [exec_crcBuf h, foldl_crcStep, window_eq_bytesAt]
  rfl

/-- Settles O32: the comparison is the only effect. -/
theorem crcCheckComparesWithExpect : Obligations.CrcCheckComparesWithExpect := by
  refine ⟨rfl, fun s => ⟨_, rfl, rfl, ?_⟩⟩
  exact beq_iff_eq (a := s.crcResult) (b := s.regs.crcExpect)

/-- A word with OPC = 0 is legal only with RSV = 0 and IDX = 0 (30_encoding.md R94). -/
theorem illegalWord_of_opc_zero {w : Word} (h0 : w ≠ 0) (hopc : w.toNat % 2 ^ 8 = 0) : illegalWord w := by
  have hw : w.toNat ≠ 0 := fun h => h0 (BitVec.eq_of_toNat_eq h)
  simp only [illegalWord]
  omega

/-- Settles O30: the three commands have no branch, and a nonzero word with OPC = 0 does not decode. -/
theorem nopCrcInitAndFrameClearComplete : Obligations.NopCrcInitAndFrameClearComplete := by
  refine ⟨rfl, rfl, rfl, fun w h0 hopc => ?_, fun s => ⟨rfl, rfl, rfl⟩⟩
  show ∃ e, decodeCommand w = .error e
  cases hd : decodeCommand w with
  | error e => exact ⟨e, rfl⟩
  | ok i => exact absurd (illegalWord_of_opc_zero h0 hopc) (exists_decodeCommand_iff.1 ⟨i, hd⟩)

/-- Settles O55: CRC_RESULT finalises the state that CRC_BUF ran from CRC_INIT; the presets are evaluated. -/
theorem programmableEngineComputesEveryCrc : Obligations.ProgrammableEngineComputesEveryCrc := by
  refine ⟨fun s h => ⟨_, _, exec_crcInit s, exec_crcBuf h, ?_⟩, ?_⟩
  · rw [exec_regRead_idle rfl (by decide), ← window_eq_bytesAt]
    rfl
  · refine ⟨?_, ?_, ?_, ?_, ?_, ?_, ?_, ?_⟩ <;> decide +kernel

/-! ### CRC_DIN -/

/-- A CRC_DIN write of an idle block feeds v[7:0] (40_crc_engine.md R112). -/
theorem exec_crcDinWrite_idle {s : State} (v : Word) (hp : s.pend = none) :
    exec (.crcDinWrite .word v) s = .next (s.feedByte v).respondWrite := by
  simp [exec, execCrcDinWrite, State.hostWrite, s.not_busy_iff.2 hp,
    show regAccessLegal offCrcDin .word = true from rfl]

/-- While BUSY = 1 the write is ignored (44_host_access.md R202). -/
theorem exec_crcDinWrite_busy {s : State} (v : Word) (hp : s.pend ≠ none) :
    exec (.crcDinWrite .word v) s = .next s.respondWrite := by
  simp [exec, execCrcDinWrite, State.hostWrite, s.busy_iff.2 hp, show regAccessLegal offCrcDin .word = true from rfl]

theorem feedByte_eq (s : State) (v : Word) :
    s.feedByte v = s.setCrcState (crcStep s.regs.crcState (BitVec.ofNat 8 v.toNat) s.regs.crcPoly s.regs.refin) := by
  have hbyte : v.extractLsb' 0 8 = BitVec.ofNat 8 v.toNat := by
    apply BitVec.eq_of_toNat_eq
    simp [BitVec.extractLsb'_toNat]
  rw [State.feedByte, hbyte]

/-- Settles O21: idle, busy, and at another width. -/
theorem crcDinWriteFeedsOneByte : Obligations.CrcDinWriteFeedsOneByte := by
  refine fun s v => ⟨fun _ => rfl, fun hp => ?_, exec_crcDinWrite_busy v, fun w hw _ => ?_⟩
  · rw [exec_crcDinWrite_idle v hp, feedByte_eq]
    rfl
  · exact exec_write_illegal (p := .reg offCrcDin) v fun hl => hw hl.1

/-! ### Feeding a message in parts -/

/-- State `t` after the bytes `bytes` have been fed to the programmable engine of an idle block `s`, as far as later
parts of the message can tell. -/
structure Fed (bytes : List Byte) (s t : State) : Prop where
  pend : t.pend = none
  ibuf : t.ibuf = s.ibuf
  params : t.params = s.params
  crcPoly : t.regs.crcPoly = s.regs.crcPoly
  refin : t.regs.refin = s.regs.refin
  err : t.regs.status.err = s.regs.status.err
  crcState : t.regs.crcState = crcRun s.regs.crcState bytes s.regs.crcPoly s.regs.refin

theorem Fed.nil {s : State} (hp : s.pend = none) : Fed [] s s := ⟨hp, rfl, rfl, rfl, rfl, rfl, rfl⟩

theorem Fed.append {a b : List Byte} {s t u : State} (h : Fed a s t) (h' : Fed b t u) : Fed (a ++ b) s u where
  pend := h'.pend
  ibuf := h'.ibuf.trans h.ibuf
  params := h'.params.trans h.params
  crcPoly := h'.crcPoly.trans h.crcPoly
  refin := h'.refin.trans h.refin
  err := h'.err.trans h.err
  crcState := by rw [h'.crcState, h.crcState, h.crcPoly, h.refin, crcRun_append]

/-- The step of a CRC_DIN write is the write (40_crc_engine.md R112). -/
theorem step_dinWrite {s : State} (b : Byte) (rest : List Event) (hp : s.pend = none) :
    step { s with inputs := dinWrite b :: rest } =
      .next { (s.feedByte (BitVec.ofNat 32 b.toNat)).respondWrite with inputs := rest } := by
  rw [step_of_access (s := { s with inputs := dinWrite b :: rest }) rfl]
  exact exec_crcDinWrite_idle (s := { s with inputs := rest }) (BitVec.ofNat 32 b.toNat) hp

theorem fed_feedByte {s : State} (b : Byte) (hp : s.pend = none) :
    Fed [b] s (s.feedByte (BitVec.ofNat 32 b.toNat)).respondWrite := by
  have hb : BitVec.ofNat 8 (BitVec.ofNat 32 b.toNat).toNat = b := by
    have := b.isLt
    apply BitVec.eq_of_toNat_eq
    simp only [BitVec.toNat_ofNat]
    omega
  refine ⟨hp, rfl, rfl, rfl, rfl, rfl, ?_⟩
  rw [feedByte_eq, hb]
  rfl

/-- A part fed through CRC_DIN, one write for each byte. -/
theorem run_dinWrites {s : State} (bytes : List Byte) (hp : s.pend = none) :
    ∃ t, core.run bytes.length { s with inputs := bytes.map dinWrite } = .next t ∧ Fed bytes s t := by
  induction bytes generalizing s with
  | nil => exact ⟨_, rfl, hp, rfl, rfl, rfl, rfl, rfl, rfl⟩
  | cons b bytes ih =>
    have hb := fed_feedByte b hp
    obtain ⟨t, hrun, ht⟩ := ih hb.pend
    exact ⟨t, (run_succ _ (step_dinWrite b _ hp)).trans hrun, hb.append ht⟩

/-- A part fed through CRC_BUF; its address and length fit in ADDR and LEN. -/
theorem exec_crcBuf_part {s : State} {p n : Nat} (hin : p + n ≤ s.params.ibufBytes)
    (hsize : s.params.ibufBytes ≤ 2 ^ 30) :
    ∃ t, exec .crcBuf { s with regs := { s.regs with addr := BitVec.ofNat 32 p, len := BitVec.ofNat 32 n } } =
        .next t ∧ Fed (s.ibuf.readBytes p n) s t := by
  have hp : (BitVec.ofNat 32 p).toNat = p := Nat.mod_eq_of_lt (by omega)
  have hn : (BitVec.ofNat 32 n).toNat = n := Nat.mod_eq_of_lt (by omega)
  refine ⟨_, exec_crcBuf ?_, rfl, rfl, rfl, rfl, rfl, rfl, ?_⟩
  · simpa [inRange, addr, len, hp, hn] using hin
  · simp [State.window, hp, hn]

/-- Any parts of a window in IBUF, each in either way (40_crc_engine.md R117). -/
theorem feed_parts (parts : List (Feed × Nat)) {s : State} {p : Nat} (hpend : s.pend = none)
    (hin : p + (parts.map Prod.snd).sum ≤ s.params.ibufBytes) (hsize : s.params.ibufBytes ≤ 2 ^ 30) :
    ∃ t, feed p parts s = .next t ∧ Fed (s.ibuf.readBytes p (parts.map Prod.snd).sum) s t := by
  induction parts generalizing s p with
  | nil => exact ⟨s, rfl, .nil hpend⟩
  | cons part parts ih =>
    obtain ⟨way, n⟩ := part
    simp only [List.map_cons, List.sum_cons] at hin ⊢
    rw [Memory.readBytes_add]
    have feed_rest {t : State} (ht : Fed (s.ibuf.readBytes p n) s t) :
        ∃ u, feed (p + n) parts t = .next u ∧
          Fed (s.ibuf.readBytes p n ++ s.ibuf.readBytes (p + n) (parts.map Prod.snd).sum) s u := by
      obtain ⟨u, hu, hfed⟩ := ih (p := p + n) ht.pend (by rw [ht.params]; omega) (ht.params ▸ hsize)
      exact ⟨u, hu, ht.append (ht.ibuf ▸ hfed)⟩
    cases way with
    | din =>
      obtain ⟨t, hrun, ht⟩ := run_dinWrites (s.ibuf.readBytes p n) hpend
      rw [Memory.length_readBytes, ← bytesAt_eq] at hrun
      simpa only [feed, hrun] using feed_rest ht
    | buf =>
      obtain ⟨t, hexec, ht⟩ := exec_crcBuf_part (p := p) (n := n) (by omega) hsize
      simpa only [feed, hexec] using feed_rest ht

/-- Settles O53: the parts and the one CRC_BUF run over the same bytes of IBUF. -/
theorem splitFeedingLeavesTheSameCrcState : Obligations.SplitFeedingLeavesTheSameCrcState := by
  refine ⟨fun s poly a b f => ⟨crcRun_append s a b poly f, rfl⟩, fun s parts hp hwf hin hsum => ?_⟩
  obtain ⟨-, hsize⟩ := hwf.1
  obtain ⟨t, hfeed, ht⟩ := feed_parts parts (p := addr s) hp (hsum ▸ hin) hsize
  rw [hsum] at ht
  exact ⟨t, _, hfeed, exec_crcBuf hin, ht.crcState, ht.err⟩

/-! ### The commands that leave the programmable engine alone -/

section
variable (c : CrcRegs) (s : State)

@[simp] theorem ibuf_withCrc : (withCrc c s).ibuf = s.ibuf := rfl
@[simp] theorem dt_withCrc : (withCrc c s).dt = s.dt := rfl
@[simp] theorem params_withCrc : (withCrc c s).params = s.params := rfl
@[simp] theorem addr_withCrc : (withCrc c s).regs.addr = s.regs.addr := rfl
@[simp] theorem len_withCrc : (withCrc c s).regs.len = s.regs.len := rfl
@[simp] theorem type_withCrc : (withCrc c s).regs.type = s.regs.type := rfl
@[simp] theorem descAt_withCrc (idx : BitVec 16) : (withCrc c s).descAt idx = s.descAt idx := rfl

/-- No branch of these commands reads a CRC register: `withCrc` moves past every check, and what the commands look up
is the same with it. -/
theorem exec_withCrc {i : Instr} (hi : isCommand i) (h1 : i ≠ .crcInit) (h2 : i ≠ .crcBuf) (h3 : i ≠ .crcCheck) :
    exec i (withCrc c s) = outWithCrc c (exec i s) := by
  cases i with
  | crcInit => exact absurd rfl h1
  | crcBuf => exact absurd rfl h2
  | crcCheck => exact absurd rfl h3
  | nop | frameClear => rfl
  | typeCheck | chunkNew =>
    simp only [exec, execTypeCheck, execChunkNew, outWithCrc, apply_ite (withCrc c)]
    rfl
  | chunkParse =>
    simp only [exec, execChunkParse, ibuf_withCrc, addr_withCrc, len_withCrc]
    cases chunkParse s.ibuf s.regs.addr.toNat s.regs.len.toNat <;>
      (simp only [outWithCrc, apply_ite (withCrc c)]; rfl)
  | frameParse =>
    simp only [exec, execFrameParse, ibuf_withCrc, addr_withCrc, len_withCrc, params_withCrc]
    cases frameLoop s.ibuf s.params.maxChunks s.regs.addr.toNat s.regs.len.toNat s.regs.len.toNat 8 [] <;>
      (simp only [outWithCrc, apply_ite (withCrc c)]; rfl)
  | chunkSerialize idx =>
    simp only [exec, execChunkSerialize, descAt_withCrc]
    cases s.descAt idx with
    | none => rfl
    | some d =>
      simp only [apply_ite (outWithCrc c)]
      rfl
  | frameSerialize =>
    simp only [exec, execFrameSerialize, dt_withCrc, params_withCrc]
    cases firstOutside s.params.ibufBytes s.dt <;> (simp only [apply_ite (outWithCrc c)]; rfl)
  | descRead idx =>
    simp only [exec, execDescRead, descAt_withCrc]
    cases s.descAt idx <;> rfl
  | chunkFind =>
    simp only [exec, execChunkFind, type_withCrc, dt_withCrc]
    cases findFirst s.regs.type s.dt <;> rfl
  | chunkRemove =>
    simp only [exec, execChunkRemove, type_withCrc, dt_withCrc]
    cases findFirst s.regs.type s.dt <;> rfl
  | crcDinWrite | statusW1c | ctrlWriteIrqEn | ctrlSoftReset | cmdIssue | regRead | regWrite | ibufWrite | bufRead
    | obufWrite => exact hi.elim

end

/-- Settles O49: the fixed function is evaluated on the check string, and no branch of a chunk or frame command reads a
CRC register. -/
theorem frameCommandsIgnoreTheCrcEngine : Obligations.FrameCommandsIgnoreTheCrcEngine :=
  ⟨fun bytes => ⟨rfl, (crc32_eq bytes).symm⟩, by decide +kernel, fun _ s c => exec_withCrc c s⟩

end Sys2Proof.Machine
end

section
/-!
PROOFS. The family of 41_typecode.md: letter case, the bits of TYPE_FLAGS, and TYPE_CHECK.
-/

namespace Sys2Proof.Machine

open Sys2Proof.Claims

/-! ### Letter case -/

/-- Bit 5 of a byte, as a digit of its number. -/
theorem getLsbD_five_iff (b : Byte) : b.getLsbD 5 = true ↔ b.toNat / 32 % 2 = 1 := by
  simp [BitVec.getLsbD, Nat.testBit_eq_decide_div_mod_eq]

/-- A letter is uppercase when it is at most 'Z': bit 5 is clear in 0x41 to 0x5A and set in 0x61 to 0x7A
(41_typecode.md R131). -/
theorem upper_iff (b : Byte) : upper b = true ↔ letter b ∧ b.toNat ≤ 0x5A := by
  rw [upper, Bool.and_eq_true, ← letter_iff, Bool.not_eq_true', ← Bool.not_eq_true, getLsbD_five_iff, letter]
  omega

/-- A letter is lowercase when it is at least 'a' (41_typecode.md R131). -/
theorem lower_iff (b : Byte) : lower b = true ↔ letter b ∧ 0x61 ≤ b.toNat := by
  rw [lower, Bool.and_eq_true, ← letter_iff, getLsbD_five_iff, letter]
  omega

/-- In an alphabetic code a byte is uppercase when it is at most 'Z': that it is a letter is known. -/
theorem alphabetic_and_upper_iff {t : Word} {b : Byte} (hb : b ∈ be t) :
    (alphabetic t && upper b) = true ↔ letters t ∧ b.toNat ≤ 0x5A := by
  rw [Bool.and_eq_true, ← letters_iff, upper_iff]
  exact and_congr_right fun h => and_iff_right (h b hb)

/-- In an alphabetic code a byte is lowercase when it is at least 'a'. -/
theorem alphabetic_and_lower_iff {t : Word} {b : Byte} (hb : b ∈ be t) :
    (alphabetic t && lower b) = true ↔ letters t ∧ 0x61 ≤ b.toNat := by
  rw [Bool.and_eq_true, ← letters_iff, lower_iff]
  exact and_congr_right fun h => and_iff_right (h b hb)

/-! ### The bits of TYPE_FLAGS -/

theorem flagBit_true (n : Nat) : flagBit n true = BitVec.twoPow 32 n := rfl

theorem flagBit_false (n : Nat) : flagBit n false = 0#32 := rfl

theorem getElem_flagBit (n : Nat) (b : Bool) {i : Nat} (hi : i < 32) :
    (flagBit n b)[i] = (b && decide (i = n)) := by
  cases b
  · simp [flagBit_false]
  · rw [flagBit_true, BitVec.getElem_twoPow, Bool.true_and]

theorem toNat_flagBit_lt {n k : Nat} (b : Bool) (h : n < k) : (flagBit n b).toNat < 2 ^ k := by
  cases b
  · exact Nat.two_pow_pos k
  · rw [flagBit_true, BitVec.toNat_twoPow]
    exact (Nat.mod_le _ _).trans_lt (Nat.pow_lt_pow_right Nat.one_lt_two h)

/-- TYPE_FLAGS, in the bytes of TYPE (41_typecode.md R132). -/
theorem typeFlags_eq (t : Word) :
    typeFlags t =
      flagBit 0 (alphabetic t) ||| flagBit 1 (alphabetic t && upper (beByte t 0)) |||
        flagBit 2 (alphabetic t && upper (beByte t 1)) ||| flagBit 3 (alphabetic t && upper (beByte t 2)) |||
        flagBit 4 (alphabetic t && lower (beByte t 3)) ||| flagBit 5 (alphabetic t && upper (beByte t 2)) := by
  have hbytes := be_eq t
  simp only [be, beBytes, List.cons.injEq, and_true] at hbytes
  obtain ⟨h0, h1, h2, h3⟩ := hbytes
  simp only [typeFlags, typeFlagsOf, alphabetic, typeBytes, beBytes, List.all_cons, List.all_nil, Bool.and_true,
    Bool.and_assoc, h0, h1, h2, h3]

theorem getLsbD_typeFlags (t : Word) :
    (typeFlags t).getLsbD 0 = alphabetic t ∧
    (typeFlags t).getLsbD 1 = (alphabetic t && upper (beByte t 0)) ∧
    (typeFlags t).getLsbD 2 = (alphabetic t && upper (beByte t 1)) ∧
    (typeFlags t).getLsbD 3 = (alphabetic t && upper (beByte t 2)) ∧
    (typeFlags t).getLsbD 4 = (alphabetic t && lower (beByte t 3)) ∧
    (typeFlags t).getLsbD 5 = (alphabetic t && upper (beByte t 2)) := by
  simp [typeFlags_eq, getElem_flagBit]

theorem toNat_typeFlags_lt (t : Word) : (typeFlags t).toNat < 2 ^ 6 := by
  simp only [typeFlags_eq, BitVec.toNat_or]
  iterate 5 refine Nat.or_lt_two_pow ?_ (toNat_flagBit_lt _ (by decide))
  exact toNat_flagBit_lt _ (by decide)

/-- A legal read whose value is specified while BUSY = 1 answers with the value at the offset, busy or not
(44_host_access.md R200, 70_reset_and_hazards.md R261). -/
theorem exec_regRead_specified {s : State} {off : RegOffset} (ho : off.toNat % 4 = 0)
    (hf : offsetFreeWhileBusy off = false) :
    exec (.regRead off .word) s = .next (s.respondRead (s.readOffset off)) := by
  simp [exec, execRegRead, regAccessLegal, ho, hf]

/-- Settles O29: the read is the same at any time, and each bit of its value is one flag of R132. -/
theorem typeFlagsFollowLetterCase : Obligations.TypeFlagsFollowLetterCase := by
  intro s
  obtain ⟨h0, h1, h2, h3, h4, h5⟩ := getLsbD_typeFlags s.regs.type
  refine ⟨typeFlags s.regs.type, exec_regRead_specified (by decide) rfl, ?_, ?_, ?_, ?_, ?_, h5.trans h3.symm,
    toNat_typeFlags_lt _⟩
  · rw [h0, letters_iff]
  · rw [h1, alphabetic_and_upper_iff (by simp [be])]
  · rw [h2, alphabetic_and_upper_iff (by simp [be])]
  · rw [h3, alphabetic_and_upper_iff (by simp [be])]
  · rw [h4, alphabetic_and_lower_iff (by simp [be])]

/-! ### TYPE_CHECK -/

/-- TYPE_CHECK of an alphabetic code (41_typecode.md R138). -/
theorem exec_typeCheck_letters {s : State} (h : letters s.regs.type) : exec .typeCheck s = .next s.complete := by
  rw [exec, execTypeCheck, if_pos ((letters_iff _).1 h)]

/-- TYPE_CHECK of any other code (41_typecode.md R138). -/
theorem exec_typeCheck_invalidTypeCode {s : State} (h : ¬ letters s.regs.type) :
    exec .typeCheck s = .next (s.raiseError .invalidTypeCode s.regs.type) := by
  rw [exec, execTypeCheck, if_neg ((letters_iff _).not.1 h)]

/-- Settles O33: a code is alphabetic or it is not. -/
theorem typeCheckAcceptsLettersOnly : Obligations.TypeCheckAcceptsLettersOnly :=
  ⟨rfl, fun _ => ⟨exec_typeCheck_letters, exec_typeCheck_invalidTypeCode⟩⟩

end Sys2Proof.Machine
end

section
/-!
PROOFS. The family of 42_chunk.md: CHUNK_NEW, CHUNK_PARSE, CHUNK_SERIALIZE and DESC_READ, each with its errors, and what
CHUNK_PARSE answers for a record, a corrupted record and a truncated one.
-/

namespace Sys2Proof.Machine

open Sys2Proof.Claims

/-! ### The commands with an index -/

/-- The word of an opcode that uses IDX decodes to its command, for every IDX (30_encoding.md R91, R92). -/
theorem decode_indexed {opc : BitVec 8} {idx : BitVec 16} {i : Instr} (hm : opcodeMap opc idx = some i)
    (hu : usesIdx opc = true) : decode (.command (BitVec.ofNat 32 (idx.toNat * 2 ^ 8 + opc.toNat))) = .ok i := by
  rw [← commandWord_eq_ofNat]
  exact decodeCommand_commandWord hm (.inl hu)

theorem descAt_eq_none {s : State} {idx : BitVec 16} : s.descAt idx = none ↔ s.dt.length ≤ idx.toNat :=
  List.getElem?_eq_none_iff

/-- DESC_READ of an index outside DT (42_chunk.md R145). -/
theorem exec_descRead_rangeError {s : State} {idx : BitVec 16} (h : s.dt.length ≤ idx.toNat) :
    exec (.descRead idx) s = .next (s.raiseError .rangeError (BitVec.ofNat 32 idx.toNat)) := by
  simp only [exec, execDescRead, descAt_eq_none.2 h, BitVec.ofNat_toNat]

/-- DESC_READ of a descriptor (42_chunk.md R145). -/
theorem exec_descRead {s : State} {idx : BitVec 16} {d : Desc} (h : s.descAt idx = some d) :
    exec (.descRead idx) s = .next ((s.loadDesc d).setResult (BitVec.ofNat 32 idx.toNat)).complete := by
  simp only [exec, execDescRead, h, BitVec.ofNat_toNat]

/-- Settles O37, in and outside DT. -/
theorem descReadLoadsTheDescriptor : Obligations.DescReadLoadsTheDescriptor :=
  fun _ _ => ⟨decode_indexed (opc := 0x13) rfl rfl, exec_descRead_rangeError, fun _ => exec_descRead⟩

/-! ### What CHUNK_NEW and CHUNK_PARSE share -/

/-- The window check of a command passes, in the claims' words. -/
theorem not_not_windowOk {s : State} (h : inRange s) : ¬ ¬ s.windowOk :=
  not_not.2 ((inRange_iff s).1 h)

theorem not_alphabetic_iff {t : Word} : (!alphabetic t) = true ↔ ¬ letters t := by
  rw [letters_iff, Bool.not_eq_true', Bool.not_eq_true]

/-- The completion that appends a descriptor, in the claims' words (42_chunk.md R141, R143). -/
theorem complete_appendDesc (s : State) (d : Desc) (v : Word) :
    (s.appendDesc d v).complete =
      completed { s with dt := s.dt ++ [d], regs := { s.regs with desc := d, result := v } } :=
  rfl

/-! ### CHUNK_NEW -/

/-- CHUNK_NEW of a window outside IBUF (42_chunk.md R141). -/
theorem exec_chunkNew_rangeError {s : State} (h : ¬ inRange s) :
    exec .chunkNew s = .next (s.raiseError .rangeError 0) := by
  rw [exec, execChunkNew, if_pos ((inRange_iff s).not.1 h)]

section
variable {s : State} (h : inRange s)
include h

/-- CHUNK_NEW with a TYPE that is not alphabetic (42_chunk.md R141). -/
theorem exec_chunkNew_invalidTypeCode (ht : ¬ letters s.regs.type) :
    exec .chunkNew s = .next (s.raiseError .invalidTypeCode s.regs.type) := by
  rw [exec, execChunkNew, if_neg (not_not_windowOk h), if_pos (not_alphabetic_iff.2 ht)]

/-- CHUNK_NEW with a full table (42_chunk.md R141). -/
theorem exec_chunkNew_tableFull (ht : letters s.regs.type) (hfull : s.dt.length = s.params.maxChunks) :
    exec .chunkNew s = .next (s.raiseError .tableFull 0) := by
  rw [exec, execChunkNew, if_neg (not_not_windowOk h), if_neg (mt not_alphabetic_iff.1 (not_not.2 ht)),
    if_pos hfull]

/-- CHUNK_NEW past its three checks (42_chunk.md R141). -/
theorem exec_chunkNew (ht : letters s.regs.type) (hroom : s.dt.length ≠ s.params.maxChunks) :
    exec .chunkNew s = .next (completed { s with
      dt := s.dt ++ [s.newDesc]
      regs := { s.regs with desc := s.newDesc, result := BitVec.ofNat 32 s.dt.length } }) := by
  rw [← complete_appendDesc, exec, execChunkNew, if_neg (not_not_windowOk h),
    if_neg (mt not_alphabetic_iff.1 (not_not.2 ht)), if_neg hroom]

end

/-- The descriptor that CHUNK_NEW builds has the CRC of its type and payload (42_chunk.md R141). -/
theorem checksumGood_newDesc (s : State) : checksumGood s.ibuf s.newDesc :=
  (checksumGood_iff _ _).2 rfl

/-- Settles O34, by the three checks in their order. -/
theorem chunkNewAppendsADescriptor : Obligations.ChunkNewAppendsADescriptor :=
  ⟨rfl, fun s => ⟨exec_chunkNew_rangeError, exec_chunkNew_invalidTypeCode, exec_chunkNew_tableFull,
    fun h ht hroom => ⟨s.newDesc, rfl, rfl, rfl, checksumGood_newDesc s, exec_chunkNew h ht hroom⟩⟩⟩

/-! ### CHUNK_PARSE -/

/-- CHUNK_PARSE of a window outside IBUF (42_chunk.md R143). -/
theorem exec_chunkParse_rangeError {s : State} (h : ¬ inRange s) :
    exec .chunkParse s = .next (s.raiseError .rangeError 0) := by
  rw [exec, execChunkParse, if_pos ((inRange_iff s).not.1 h)]

section
variable {s : State} (h : inRange s)
include h

/-- CHUNK_PARSE reports an error of the record parser with ERR_INFO = ADDR (42_chunk.md R143). -/
theorem exec_chunkParse_error {code : ErrCode} (hc : chunkParse s.ibuf (addr s) (len s) = .error code) :
    exec .chunkParse s = .next (s.raiseError code s.regs.addr) := by
  rw [addr, len] at hc
  simp only [exec, execChunkParse, hc]
  rw [if_neg (not_not_windowOk h)]

section
variable {d : Desc} {k : Nat} (hc : chunkParse s.ibuf (addr s) (len s) = .ok (d, k))
include hc

/-- CHUNK_PARSE of an accepted record with a full table (42_chunk.md R143). -/
theorem exec_chunkParse_tableFull (hfull : s.dt.length = s.params.maxChunks) :
    exec .chunkParse s = .next (s.raiseError .tableFull s.regs.addr) := by
  rw [addr, len] at hc
  simp only [exec, execChunkParse, hc]
  rw [if_neg (not_not_windowOk h), if_pos hfull]

/-- CHUNK_PARSE of an accepted record with room in the table (42_chunk.md R143). -/
theorem exec_chunkParse (hroom : s.dt.length ≠ s.params.maxChunks) :
    exec .chunkParse s = .next (completed { s with
      dt := s.dt ++ [d]
      regs := { s.regs with desc := d, result := BitVec.ofNat 32 k } }) := by
  rw [addr, len] at hc
  rw [← complete_appendDesc]
  simp only [exec, execChunkParse, hc]
  rw [if_neg (not_not_windowOk h), if_neg hroom]

end

end

/-- What the record parser answers for a good record (42_chunk.md R142). -/
theorem chunkParse_of_recordGood {m : Memory} {q avail : Nat} (h : recordGood m q avail) :
    chunkParse m q avail = .ok (descAt m q, 12 + field m q) := by
  refine (chunkParse_iff m q avail _ _).2 ⟨h, rfl, ?_⟩
  rw [descAt_eq, field_eq, recordLength]

/-- Settles O35, by the three answers of the record parser. -/
theorem chunkParseParsesOneRecord : Obligations.ChunkParseParsesOneRecord :=
  ⟨rfl, fun _ => ⟨exec_chunkParse_rangeError,
    fun h code he => exec_chunkParse_error h ((recordError_iff _ _ _ code).1 he),
    fun h hgood => exec_chunkParse_tableFull h (chunkParse_of_recordGood hgood),
    fun h hgood => exec_chunkParse h (chunkParse_of_recordGood hgood)⟩⟩

/-! ### CHUNK_SERIALIZE -/

/-- CHUNK_SERIALIZE of an index outside DT (42_chunk.md R144). -/
theorem exec_chunkSerialize_rangeError {s : State} {idx : BitVec 16} (h : s.dt.length ≤ idx.toNat) :
    exec (.chunkSerialize idx) s = .next (s.raiseError .rangeError (BitVec.ofNat 32 idx.toNat)) := by
  simp only [exec, execChunkSerialize, descAt_eq_none.2 h, BitVec.ofNat_toNat]

section
variable {s : State} {idx : BitVec 16} {d : Desc} (h : s.descAt idx = some d)
include h

/-- CHUNK_SERIALIZE of a record that does not fit in OBUF (42_chunk.md R144). -/
theorem exec_chunkSerialize_outputOverflow (hbig : s.params.obufBytes < recordLength d) :
    exec (.chunkSerialize idx) s = .next (s.raiseError .outputOverflow (overflowInfo (recordLength d))) := by
  simp only [exec, execChunkSerialize, h]
  rw [if_pos hbig]

/-- CHUNK_SERIALIZE of a record that fits in OBUF, with its payload in IBUF (42_chunk.md R144). -/
theorem exec_chunkSerialize (hfit : recordLength d ≤ s.params.obufBytes) (hin : d.inIbuf s.params.ibufBytes) :
    exec (.chunkSerialize idx) s =
      .next ((s.writeOutput (chunkBytes s.ibuf d)).setResult (BitVec.ofNat 32 (recordLength d))).complete := by
  simp only [exec, execChunkSerialize, h]
  rw [if_neg (not_lt.2 hfit), if_pos hin]

end

/-- The length of a record whose payload is in IBUF fits in ERR_INFO (00_scope.md R9). -/
theorem overflowInfo_recordLength {d : Desc} {size : Nat} (hin : d.inIbuf size) (hs : size ≤ 2 ^ 30) :
    overflowInfo (recordLength d) = BitVec.ofNat 32 (recordLength d) := by
  rw [overflowInfo, Nat.min_eq_left]
  simp only [recordLength, Desc.inIbuf] at hin ⊢
  omega

section
variable (m : Memory) (d : Desc) {i : Nat}

theorem getElem?_chunkBytes_len (hi : i < 4) : (chunkBytes m d)[i]? = some (beByte d.len i) := by
  rw [getElem?_chunkBytes m d i (by rw [recordLength]; omega), if_pos hi]

theorem getElem?_chunkBytes_type (hi : i < 4) : (chunkBytes m d)[4 + i]? = some (beByte d.type i) := by
  rw [getElem?_chunkBytes m d _ (by rw [recordLength]; omega), if_neg (by omega), if_pos (by omega),
    Nat.add_sub_cancel_left]

theorem getElem?_chunkBytes_payload (hi : i < d.len.toNat) :
    (chunkBytes m d)[8 + i]? = some (m.read (d.paddr.toNat + i)) := by
  rw [getElem?_chunkBytes m d _ (by rw [recordLength]; omega), if_neg (by omega), if_neg (by omega),
    if_pos (by omega), Nat.add_sub_cancel_left]

theorem getElem?_chunkBytes_crc (hi : i < 4) :
    (chunkBytes m d)[8 + d.len.toNat + i]? = some (beByte d.crc i) := by
  rw [getElem?_chunkBytes m d _ (by rw [recordLength]; omega), if_neg (by omega), if_neg (by omega),
    if_neg (by omega), Nat.add_sub_cancel_left]

end

/-- A byte of a serializer's output in OBUF. -/
theorem read_writeOutput_of_getElem? {s : State} {bs : List Byte} {x : Nat} {b : Byte} (h : bs[x]? = some b) :
    (s.writeOutput bs).obuf.read x = b := by
  rw [State.read_writeOutput, h, Option.getD_some]

/-- The bytes of OBUF past a serializer's output. -/
theorem read_writeOutput_past {s : State} {bs : List Byte} {x : Nat} (h : bs.length ≤ x) :
    (s.writeOutput bs).obuf.read x = s.obuf.read x := by
  rw [State.read_writeOutput, List.getElem?_eq_none h, Option.getD_none]

/-- Settles O36, by the two checks and then the four parts of the record. -/
theorem chunkSerializeWritesTheRecord : Obligations.ChunkSerializeWritesTheRecord := by
  refine fun s idx => ⟨decode_indexed (opc := 0x12) rfl rfl, exec_chunkSerialize_rangeError,
    fun d hd hwf hlive => ⟨fun hbig => ?_, fun hfit => ?_⟩⟩
  · obtain ⟨-, hsize⟩ := hwf.1
    rw [exec_chunkSerialize_outputOverflow hd hbig, overflowInfo_recordLength hlive.inIbuf hsize]
    rfl
  · refine ⟨_, exec_chunkSerialize hd hfit hlive.inIbuf, rfl, fun i hi => ⟨?_, ?_, ?_⟩, fun i hi => ?_,
      fun x hx => ?_⟩
    · exact read_writeOutput_of_getElem? (getElem?_chunkBytes_len _ d hi)
    · exact read_writeOutput_of_getElem? (getElem?_chunkBytes_type _ d hi)
    · exact read_writeOutput_of_getElem? (getElem?_chunkBytes_crc _ d hi)
    · exact read_writeOutput_of_getElem? (getElem?_chunkBytes_payload _ d hi)
    · exact read_writeOutput_past ((length_chunkBytes _ d).trans_le hx)

/-! ### The round trip -/

/-- A CHUNK_SERIALIZE of a live descriptor that completes with no error leaves the record in OBUF (42_chunk.md
R144). -/
theorem getElem?_chunkBytes_of_serialized {s t : State} {idx : BitVec 16} {d : Desc} (hd : s.descAt idx = some d)
    (hin : d.inIbuf s.params.ibufBytes) (h : exec (.chunkSerialize idx) s = .next t)
    (he : t.regs.status.err = false) {i : Nat} (hi : i < recordLength d) :
    some (t.obuf.read i) = (chunkBytes s.ibuf d)[i]? := by
  by_cases hfit : recordLength d ≤ s.params.obufBytes
  · cases (exec_chunkSerialize hd hfit hin).symm.trans h
    have hget := List.getElem?_eq_getElem ((length_chunkBytes s.ibuf d).symm ▸ hi)
    exact (congrArg some (read_writeOutput_of_getElem? hget)).trans hget.symm
  · cases (exec_chunkSerialize_outputOverflow hd (not_le.1 hfit)).symm.trans h
    cases he

/-- Settles O56: OBUF holds the record, and the copy of a record parses back. -/
theorem chunkRoundTrip : Obligations.ChunkRoundTrip := by
  rintro s t u idx d b hwf hd hlive hgood - hser he hparams hroom rfl hlen hin hcopy
  obtain ⟨-, hsize⟩ := hwf.1
  have hrecord : ∀ i < recordLength d, some (u.ibuf.read (addr u + i)) = (chunkBytes s.ibuf d)[i]? :=
    fun i hi => (congrArg some (hcopy i hi)).trans (getElem?_chunkBytes_of_serialized hd hlive.inIbuf hser he hi)
  obtain ⟨hparse, hpayload⟩ :=
    chunkParse_of_copy hrecord hlive.alphabetic ((checksumGood_iff _ _).1 hgood).symm hlen.ge
  have hpaddr : (BitVec.ofNat 32 (addr u + 8)).toNat = addr u + 8 := by
    simp only [inRange, hparams] at hin
    exact Nat.mod_eq_of_lt (by omega)
  refine ⟨_, rfl, ?_, exec_chunkParse hin hparse hroom.ne⟩
  rw [bytesAt_eq, bytesAt_eq, hpaddr, hpayload]

/-! ### Corrupted and truncated records -/

section
variable {m m' : Memory} {d : Desc} {b n : Nat} (h : ∀ i < n, some (m'.read (b + i)) = (chunkBytes m d)[i]?)
  (hn : n ≤ recordLength d)
include h hn

/-- The length field of a copy of the first bytes of a record. -/
theorem readBe32_len_of_copy (h4 : 4 ≤ n) : m'.readBe32 b = d.len := by
  obtain ⟨hlen, -⟩ := chunkBytes_parts m d
  exact Memory.readBe32_of_readBytes ((readBytes_of_copy h 0 4 h4 hn).trans hlen)

/-- The type field of a copy of the first bytes of a record. -/
theorem readBe32_type_of_copy (h8 : 8 ≤ n) : m'.readBe32 (b + 4) = d.type := by
  obtain ⟨-, htype, -⟩ := chunkBytes_parts m d
  exact Memory.readBe32_of_readBytes ((readBytes_of_copy h 4 4 h8 hn).trans htype)

/-- The payload of a copy of the first bytes of a record. -/
theorem readBytes_payload_of_copy (hp : 8 + d.len.toNat ≤ n) :
    m'.readBytes (b + 8) d.len.toNat = m.readBytes d.paddr.toNat d.len.toNat := by
  obtain ⟨-, -, hpayload, -⟩ := chunkBytes_parts m d
  exact (readBytes_of_copy h 8 d.len.toNat hp hn).trans hpayload

end

/-- A checksum field that reads as the record's checksum has the record's bytes. -/
theorem getElem?_chunkBytes_of_crc {m m' : Memory} {d : Desc} {b k : Nat}
    (hcrc : m'.readBe32 (b + 8 + d.len.toNat) = d.crc) (hk : 8 + d.len.toNat ≤ k) (hk' : k < recordLength d) :
    some (m'.read (b + k)) = (chunkBytes m d)[k]? := by
  obtain ⟨i, rfl⟩ := Nat.exists_eq_add_of_le hk
  have hi : i < 4 := by
    rw [recordLength] at hk'
    omega
  obtain ⟨-, -, -, hfield⟩ := chunkBytes_parts m d
  calc some (m'.read (b + (8 + d.len.toNat + i)))
      = (m'.readBytes (b + 8 + d.len.toNat) 4)[i]? := by
        rw [List.getElem?_eq_getElem (by simpa using hi), Memory.getElem_readBytes]
        simp only [Nat.add_assoc]
    _ = (beBytes d.crc)[i]? := by rw [Memory.readBytes_four, hcrc]
    _ = (((chunkBytes m d).drop (8 + d.len.toNat)).take 4)[i]? := by rw [hfield]
    _ = (chunkBytes m d)[8 + d.len.toNat + i]? := by rw [List.getElem?_take_of_lt hi, List.getElem?_drop]

/-- A copy of a checksum-good record with another checksum field does not parse (42_chunk.md R142, R148). -/
theorem chunkParse_corrupted {m m' : Memory} {d : Desc} {b avail : Nat} (hgood : d.ChecksumHolds m)
    (h : ∀ i < 8 + d.len.toNat, some (m'.read (b + i)) = (chunkBytes m d)[i]?)
    (hcrc : m'.readBe32 (b + 8 + d.len.toNat) ≠ d.crc) (hav : recordLength d ≤ avail) :
    chunkParse m' b avail = .error .checksumMismatch := by
  have hn : 8 + d.len.toNat ≤ recordLength d := by
    rw [recordLength]
    omega
  have hlen := readBe32_len_of_copy h hn (by omega)
  have htype := readBe32_type_of_copy h hn (by omega)
  have hpayload := readBytes_payload_of_copy h hn le_rfl
  refine chunkParse_error.2 (.inr (.inl ⟨hlen ▸ hav, ?_, rfl⟩))
  rw [hlen, htype, hpayload, ← hgood]
  exact hcrc.symm

/-- Settles O57: all but the checksum field is the record's, and the field differs in one byte. -/
theorem corruptedChecksumFails : Obligations.CorruptedChecksumFails := by
  intro m d u k hgood hin hlen hk hk' hcopy hne
  rw [recordBytes_eq] at hcopy hne
  refine exec_chunkParse_error hin (chunkParse_corrupted ((checksumGood_iff _ _).1 hgood) (fun i hi => ?_)
    (fun hcrc => hne (getElem?_chunkBytes_of_crc hcrc hk hk')) hlen.ge)
  exact hcopy i (by omega) (by omega)

/-- Too few bytes for the declared length (42_chunk.md R142). -/
theorem chunkParse_truncated {m : Memory} {b avail : Nat} (h : avail < 4 ∨ avail < 12 + (m.readBe32 b).toNat) :
    chunkParse m b avail = .error .truncatedInput :=
  chunkParse_error.2 (.inl ⟨h, rfl⟩)

/-- A copy of fewer bytes than the record has does not parse: with four bytes or more, its length field is the record's
(42_chunk.md R149). -/
theorem chunkParse_shortCopy {m m' : Memory} {d : Desc} {b n : Nat} (hn : n < recordLength d)
    (h : ∀ i < n, some (m'.read (b + i)) = (chunkBytes m d)[i]?) :
    chunkParse m' b n = .error .truncatedInput := by
  refine chunkParse_truncated (or_iff_not_imp_left.2 fun h4 => ?_)
  rw [readBe32_len_of_copy h hn.le (not_lt.1 h4)]
  exact hn

/-- Settles O58: a cut record is shorter than its declared length, and so is any window in IBUF when that length is
2^31 or more. -/
theorem truncatedRecordFails : Obligations.TruncatedRecordFails := by
  refine ⟨fun m d u hin hlen hcopy => ?_, fun u hwf hin hbig => ?_⟩
  · rw [recordBytes_eq] at hcopy
    exact exec_chunkParse_error hin (chunkParse_shortCopy hlen hcopy)
  · obtain ⟨-, hsize⟩ := hwf.1
    refine exec_chunkParse_error hin (chunkParse_truncated (.inr ?_))
    rw [← field_eq]
    simp only [inRange] at hin
    omega

end Sys2Proof.Machine
end

section
/-!
PROOFS. The family of 43_container.md: FRAME_PARSE and its errors, FRAME_SERIALIZE, CHUNK_FIND and CHUNK_REMOVE, the
round trip of a frame, and the scenario of append, find and remove.
-/

namespace Sys2Proof.Machine

open Sys2Proof.Claims

/-! ### FRAME_PARSE -/

section
variable {m : Memory} {maxChunks a n p : Nat} {ds : List Desc}
  (hrec : RecordsTo m a n 8 p ds) (hlen : ds.length ≤ maxChunks) (hp : p < n)
include hrec hlen hp

/-- After the records before p the loop is at p, with turns left (43_container.md R172). -/
theorem frameLoop_at : ∃ g, frameLoop m maxChunks a n n 8 [] = frameLoop m maxChunks a n (g + 1) p ds := by
  obtain ⟨g, hg, hloop⟩ := frameLoop_recordsTo (ds := []) hrec (Nat.sub_le n 8) (by simpa using hlen)
  obtain ⟨k, rfl⟩ := Nat.exists_eq_add_of_lt (show 0 < g by omega)
  exact ⟨k, by simpa using hloop⟩

/-- The first bad record stops the loop with its error (43_container.md R172, R174). -/
theorem frameLoop_badRecord {code : ErrCode} (hbad : chunkParse m (a + p) (n - p) = .error code) :
    frameLoop m maxChunks a n n 8 [] = .error (code, a + p) := by
  obtain ⟨g, hg⟩ := frameLoop_at hrec hlen hp
  simp only [hg, frameLoop, hp, hbad, if_true]

/-- A good record that finds a full table stops the loop with TableFull (43_container.md R172). -/
theorem frameLoop_tableFull {d : Desc} {k : Nat} (hgood : chunkParse m (a + p) (n - p) = .ok (d, k))
    (hfull : ds.length = maxChunks) : frameLoop m maxChunks a n n 8 [] = .error (.tableFull, a + p) := by
  obtain ⟨g, hg⟩ := frameLoop_at hrec hlen hp
  simp only [hg, frameLoop, hp, hgood, hfull, if_true]

end

section
variable {s : State} (hin : inRange s) (hpre : preambleThere s)
include hin hpre

/-- FRAME_PARSE of a window that is PREAMBLE and then records to its end (43_container.md R172). -/
theorem exec_frameParse_frame {ds : List Desc} (hrec : RecordsTo s.ibuf (addr s) (len s) 8 (len s) ds)
    (hlen : ds.length ≤ s.params.maxChunks) :
    exec .frameParse s =
      .next (completed { s with dt := ds, regs := { s.regs with result := BitVec.ofNat 32 ds.length } }) := by
  have hloop : frameLoop s.ibuf s.params.maxChunks (addr s) (len s) (len s) 8 [] = .ok ds :=
    (frameLoop_ok hpre.1 (Nat.sub_le _ _) (Nat.zero_le _)).2 ⟨ds, rfl, hrec, hlen⟩
  rw [exec_frameParse hin hpre, hloop]
  rfl

/-- FRAME_PARSE when its loop fails at an IBUF address (43_container.md R172, R173). -/
theorem exec_frameParse_error {code : ErrCode} {q : Nat}
    (hloop : frameLoop s.ibuf s.params.maxChunks (addr s) (len s) (len s) 8 [] = .error (code, q)) :
    exec .frameParse s = .next (failed { s with dt := [] } code (BitVec.ofNat 32 q)) := by
  rw [exec_frameParse hin hpre, hloop]
  rfl

end

/-- Settles O38, by the two checks and then the loop: it ends at the end of the window, at a bad record, or at a good
one that finds the table full. -/
theorem frameParseParsesInStreamOrder : Obligations.FrameParseParsesInStreamOrder := by
  refine ⟨rfl, fun s _ => ⟨exec_frameParse_rangeError, exec_frameParse_badPreamble,
    fun hin hpre ds hlen => ⟨fun hrec => ?_, fun p hp hrec => ?_⟩⟩⟩
  · exact exec_frameParse_frame hin hpre ((records_iff _ _ _ _ _ _).1 hrec) hlen
  · have hrec := (records_iff _ _ _ _ _ _).1 hrec
    refine ⟨fun code hbad => ?_, fun hgood hfull => ?_⟩
    · exact exec_frameParse_error hin hpre (frameLoop_badRecord hrec hlen hp ((recordError_iff _ _ _ _).1 hbad))
    · exact exec_frameParse_error hin hpre
        (frameLoop_tableFull hrec hlen hp (chunkParse_of_recordGood hgood) hfull)

/-- Settles O40: of the five ways in which a command can end, only the one with an error of FRAME_PARSE sets ERR. -/
theorem frameParseErrorsEmptyTheTable : Obligations.FrameParseErrorsEmptyTheTable := by
  intro s t hok hresult h herr
  cases CommandEnd.of_exec (i := .frameParse) trivial h with
  | registers hr | table _ hr | output _ hr => exact Bool.noConfusion ((hr.err.trans hok).symm.trans herr)
  | failed hi => exact absurd rfl hi
  | rejected => exact ⟨rfl, hresult, rfl, rfl, rfl, rfl⟩

/-! ### FRAME_SERIALIZE -/

/-- FRAME_SERIALIZE of a frame that does not fit in OBUF (43_container.md R175). -/
theorem exec_frameSerialize_outputOverflow {s : State} (hbig : s.params.obufBytes < frameLength s.dt) :
    exec .frameSerialize s = .next (s.raiseError .outputOverflow (overflowInfo (frameLength s.dt))) := by
  rw [exec, execFrameSerialize, if_pos hbig]

/-- FRAME_SERIALIZE of a frame that fits in OBUF, with every payload in IBUF (43_container.md R175). -/
theorem exec_frameSerialize {s : State} (hfit : frameLength s.dt ≤ s.params.obufBytes)
    (hin : ∀ d ∈ s.dt, d.inIbuf s.params.ibufBytes) :
    exec .frameSerialize s =
      .next ((s.writeOutput (frameBytes s.preamble s.ibuf s.dt)).setResult
        (BitVec.ofNat 32 (frameLength s.dt))).complete := by
  simp only [exec, execFrameSerialize, firstOutside_none.2 hin]
  rw [if_neg (not_lt.2 hfit)]

theorem length_frameBytes_state (s : State) : (frameBytes s.preamble s.ibuf s.dt).length = frameLength s.dt :=
  length_frameBytes (by simp [State.preamble]) s.ibuf s.dt

/-- What a serializer wrote is read back from OBUF. -/
theorem readBytes_writeOutput (s : State) (bs : List Byte) : (s.writeOutput bs).obuf.readBytes 0 bs.length = bs :=
  Memory.readBytes_writeBytes _ _ _

/-- The bytes of a frame, in the claims' words (43_container.md R175). -/
theorem frameBytes_eq (s : State) :
    frameBytes s.preamble s.ibuf s.dt = s.params.preamble.toList ++ s.dt.flatMap (recordBytes s.ibuf) := by
  rw [frameBytes, State.preamble, funext (recordBytes_eq s.ibuf)]

/-- Settles O41, by the one check and then the bytes of OBUF inside and past the frame. -/
theorem frameSerializeWritesTheFrame : Obligations.FrameSerializeWritesTheFrame := by
  refine ⟨rfl, fun s => ⟨exec_frameSerialize_outputOverflow, fun hfit hlive => ?_⟩⟩
  refine ⟨_, exec_frameSerialize hfit fun d hd => (hlive d hd).inIbuf, rfl, ?_, fun x hx => ?_⟩
  · rw [bytesAt_eq, ← frameBytes_eq, frameSize_eq, ← length_frameBytes_state]
    exact readBytes_writeOutput _ _
  · exact read_writeOutput_past ((length_frameBytes_state s).trans_le hx)

/-! ### CHUNK_FIND and CHUNK_REMOVE -/

/-- The first descriptor of a type, by its index (43_container.md R177). -/
theorem findFirst_of_getElem? {t : Word} {ds : List Desc} {i : Nat} {d : Desc} (hd : ds[i]? = some d)
    (ht : d.type = t) (hfirst : ∀ j < i, ∀ e, ds[j]? = some e → e.type ≠ t) : findFirst t ds = some (i, d) := by
  obtain ⟨hi, rfl⟩ := List.getElem?_eq_some_iff.1 hd
  refine findFirst_some.2 ⟨ds.take i, ds.drop (i + 1), ?_, List.length_take_of_le hi.le, ht, fun e he => ?_⟩
  · rw [← List.drop_eq_getElem_cons hi, List.take_append_drop]
  · obtain ⟨j, hj, rfl⟩ := List.mem_take_iff_getElem.1 he
    exact hfirst j (by omega) _ (List.getElem?_eq_getElem _)

/-- A live descriptor has an alphabetic type (10_state.md R41 (a)), so it is of no other. -/
theorem findFirst_none_of_miss {s : State}
    (h : (∀ d ∈ s.dt, d.type ≠ s.regs.type) ∨
      (¬ letters s.regs.type ∧ ∀ d ∈ s.dt, d.Live s.params.ibufBytes)) : findFirst s.regs.type s.dt = none := by
  rcases h with h | ⟨ht, hlive⟩
  · exact findFirst_none.2 h
  · exact findFirst_none.2 fun d hd heq => ht ((letters_iff _).2 (heq ▸ (hlive d hd).alphabetic))

section
variable {s : State}

/-- CHUNK_FIND of a type in DT (43_container.md R177). -/
theorem exec_chunkFind_found {i : Nat} {d : Desc} (h : findFirst s.regs.type s.dt = some (i, d)) :
    exec .chunkFind s = .next (((s.setFound true).setResult (BitVec.ofNat 32 i)).loadDesc d).complete := by
  simp only [exec, execChunkFind, h]

/-- CHUNK_FIND of a type that is not in DT (43_container.md R177). -/
theorem exec_chunkFind_miss (h : findFirst s.regs.type s.dt = none) :
    exec .chunkFind s = .next (s.setFound false).complete := by
  simp only [exec, execChunkFind, h]

/-- CHUNK_REMOVE of a type in DT (43_container.md R178). -/
theorem exec_chunkRemove_found {before after : List Desc} {d : Desc} (hdt : s.dt = before ++ d :: after)
    (ht : d.type = s.regs.type) (hfirst : ∀ e ∈ before, e.type ≠ s.regs.type) :
    exec .chunkRemove s = .next (completed { s with
      dt := before ++ after
      regs := { s.regs with desc := d, result := BitVec.ofNat 32 before.length } }) := by
  have hfind : findFirst s.regs.type s.dt = some (before.length, d) :=
    findFirst_some.2 ⟨before, after, hdt, rfl, ht, hfirst⟩
  have herase : s.dt.eraseIdx before.length = before ++ after := by
    rw [hdt, List.eraseIdx_append_of_length_le le_rfl, Nat.sub_self, List.eraseIdx_cons_zero]
  simp only [exec, execChunkRemove, hfind, herase]
  rfl

/-- CHUNK_REMOVE of a type that is not in DT (43_container.md R178). -/
theorem exec_chunkRemove_miss (h : findFirst s.regs.type s.dt = none) :
    exec .chunkRemove s = .next (s.raiseError .chunkNotFound s.regs.type) := by
  simp only [exec, execChunkRemove, h]

end

/-- Settles O43, by the first match and by the miss. -/
theorem chunkFindFindsTheFirstMatch : Obligations.ChunkFindFindsTheFirstMatch :=
  ⟨rfl, fun _ => ⟨fun _ _ hd ht hfirst => exec_chunkFind_found (findFirst_of_getElem? hd ht hfirst),
    fun h => exec_chunkFind_miss (findFirst_none_of_miss h)⟩⟩

/-- Settles O44, by the first match and by the miss. -/
theorem chunkRemoveRemovesTheFirstMatch : Obligations.ChunkRemoveRemovesTheFirstMatch :=
  ⟨rfl, fun _ => ⟨fun _ _ _ => exec_chunkRemove_found,
    fun h => exec_chunkRemove_miss (findFirst_none_of_miss h)⟩⟩

/-! ### The round trip of a frame -/

/-- What a frame keeps of a descriptor whose payload is in `m` (43_container.md R176): all but the place of the
payload. -/
def Desc.content (m : Memory) (d : Desc) : Word × Word × Word × List Byte :=
  (d.len, d.type, d.crc, bytesAt m d.paddr.toNat d.len.toNat)

/-- A copy of the serialized forms of alphabetic, checksum-good descriptors, one after the other, is records with the
same content (42_chunk.md R142, 43_container.md R176). -/
theorem recordsTo_of_copy {m m' : Memory} {a n p q : Nat} {ds : List Desc} (hq : q = p + (ds.map recordLength).sum)
    (hqn : q ≤ n) (hn : a + n < 2 ^ 32)
    (hgood : ∀ d ∈ ds, alphabetic d.type = true ∧ d.ChecksumHolds m)
    (hcopy : m'.readBytes (a + p) (q - p) = ds.flatMap (chunkBytes m)) :
    ∃ es, RecordsTo m' a n p q es ∧ es.map (Desc.content m') = ds.map (Desc.content m) := by
  induction ds generalizing p with
  | nil => exact ⟨[], hq.symm, rfl⟩
  | cons d ds ih =>
    obtain ⟨⟨halpha, hcrc⟩, hgood⟩ := List.forall_mem_cons.1 hgood
    have hpos := recordLength_pos d
    rw [List.map_cons, List.sum_cons] at hq
    rw [List.flatMap_cons, show q - p = recordLength d + (q - (p + recordLength d)) by omega,
      Memory.readBytes_add] at hcopy
    obtain ⟨hhead, htail⟩ := List.append_inj hcopy (by simp)
    have hbytes : ∀ i < recordLength d, some (m'.read (a + p + i)) = (chunkBytes m d)[i]? := fun i hi => by
      rw [← hhead, List.getElem?_eq_getElem (by simpa using hi), Memory.getElem_readBytes]
    obtain ⟨hparse, hpayload⟩ := chunkParse_of_copy hbytes halpha hcrc.symm (avail := n - p) (by omega)
    obtain ⟨es, hes, hcontent⟩ := ih (p := p + recordLength d) (by omega) hgood (by rwa [← Nat.add_assoc])
    have hpaddr : (BitVec.ofNat 32 (a + p + 8)).toNat = a + p + 8 := Nat.mod_eq_of_lt (by omega)
    refine ⟨_ :: es, ⟨by omega, hparse, hes⟩, ?_⟩
    rw [List.map_cons, List.map_cons, hcontent]
    simp only [Desc.content, bytesAt_eq, hpaddr, hpayload]

/-- A FRAME_SERIALIZE of live descriptors that completes with no error leaves the frame in OBUF (43_container.md
R175). -/
theorem readBytes_obuf_of_frameSerialize {s t : State} (hin : ∀ d ∈ s.dt, d.inIbuf s.params.ibufBytes)
    (h : exec .frameSerialize s = .next t) (he : t.regs.status.err = false) :
    t.obuf.readBytes 0 (frameLength s.dt) = frameBytes s.preamble s.ibuf s.dt := by
  by_cases hfit : frameLength s.dt ≤ s.params.obufBytes
  · cases (exec_frameSerialize hfit hin).symm.trans h
    rw [← length_frameBytes_state]
    exact readBytes_writeOutput _ _
  · cases (exec_frameSerialize_outputOverflow (not_le.1 hfit)).symm.trans h
    cases he

/-- A window that begins with the bytes of PREAMBLE and goes on with the records of a table (43_container.md
R175). -/
theorem readBytes_eq_frameBytes {pre : List Byte} {m m' : Memory} {ds : List Desc} {a : Nat} (hpre : pre.length = 8)
    (h : m'.readBytes a (frameLength ds) = frameBytes pre m ds) :
    m'.readBytes a 8 = pre ∧ m'.readBytes (a + 8) (frameLength ds - 8) = ds.flatMap (chunkBytes m) := by
  rw [frameLength, Memory.readBytes_add, frameBytes] at h
  rw [frameLength, Nat.add_sub_cancel_left]
  exact List.append_inj h (by simp [hpre])

/-- Settles O59: OBUF holds the frame, its copy is PREAMBLE and then records with the content of the table, and
FRAME_PARSE accepts them. -/
theorem frameRoundTrip : Obligations.FrameRoundTrip := by
  intro s t u hwf hgood htable _ hser hterr hparams hlen hin huerr hcopy
  obtain ⟨⟨-, hsize⟩, -⟩ := hwf
  have hend : addr u + len u ≤ s.params.ibufBytes := hparams ▸ hin
  have hframe : u.ibuf.readBytes (addr u) (frameLength s.dt) = frameBytes s.preamble s.ibuf s.dt := by
    rw [← readBytes_obuf_of_frameSerialize (fun d hd => (hgood d hd).1.inIbuf) hser hterr]
    exact Memory.readBytes_congr fun i hi => by rw [Nat.zero_add]; exact hcopy i hi
  obtain ⟨hpre, hrest⟩ := readBytes_eq_frameBytes (by simp [State.preamble]) hframe
  rw [frameSize_eq] at hlen
  obtain ⟨es, hes, hcontent⟩ := recordsTo_of_copy (n := len u) (q := len u) (hlen.trans rfl) le_rfl
    (by omega) (fun d hd => ⟨(hgood d hd).1.alphabetic, (checksumGood_iff _ _).1 (hgood d hd).2⟩) (hlen ▸ hrest)
  have hcount : es.length = s.dt.length := by simpa using congrArg List.length hcontent
  have hpreamble : preambleThere u :=
    ⟨hlen ▸ Nat.le_add_right 8 _, by rw [bytesAt_eq, hpre, State.preamble, hparams]⟩
  exact ⟨_, exec_frameParse_frame hin hpreamble hes (by rw [hcount, hparams]; exact htable), huerr,
    congrArg (BitVec.ofNat 32) hcount, hcontent⟩

/-! ### Append, find, remove -/

/-- The state in which the engine performs a command that the host has just issued (44_host_access.md R203). -/
def State.issued (s : State) (w : Word) : State := { (s.issue w).respondWrite with inputs := [] }

/-- A command issued to an idle block: the completion step of the command, from the issued state (44_host_access.md
R203, 60_exceptions.md R231). -/
theorem issueAndRun_eq {s t : State} {w : Word} {i : Instr} (hidle : s.pend = none) (hd : decodeCommand w = .ok i)
    (h : exec i (s.issued w) = .next t) : issueAndRun w s = .next t := by
  have hissue : step { s with inputs := [.access (.write (.reg offCmd) .word w), .engine] } =
      .next { (s.issue w).respondWrite with inputs := [.engine] } :=
    (step_of_access (a := .write (.reg offCmd) .word w) rfl).trans
      (exec_cmdIssue (s := { s with inputs := [.engine] }) w hidle)
  have hrun : step { (s.issue w).respondWrite with inputs := [.engine] } = .next t :=
    (step_of_engineNext (.inl rfl) rfl hd).trans h
  exact (run_succ 1 hissue).trans (run_succ 0 hrun)

/-- An idle block with this TYPE and this DT. -/
structure State.IdleWith (s : State) (type : Word) (ds : List Desc) : Prop where
  pend : s.pend = none
  type : s.regs.type = type
  dt : s.dt = ds

/-- CHUNK_NEW issued to an idle block (42_chunk.md R141). -/
theorem issueAndRun_chunkNew {s : State} (hidle : s.pend = none) (hin : inRange s) (ht : letters s.regs.type)
    (hroom : s.dt.length ≠ s.params.maxChunks) :
    ∃ t, issueAndRun 0x10 s = .next t ∧ t.IdleWith s.regs.type (s.dt ++ [s.newDesc]) ∧
      t.regs.result = BitVec.ofNat 32 s.dt.length ∧ t.regs.desc = s.newDesc ∧ t.regs.status.err = false :=
  ⟨_, issueAndRun_eq hidle rfl (exec_chunkNew (s := s.issued 0x10) hin ht hroom), ⟨rfl, rfl, rfl⟩, rfl, rfl, rfl⟩

section
variable {s : State} {type : Word} {ds : List Desc}

/-- CHUNK_FIND issued to an idle block, of a type in DT (43_container.md R177). -/
theorem issueAndRun_chunkFind_found (hs : s.IdleWith type ds) {i : Nat} {d : Desc}
    (h : findFirst type ds = some (i, d)) :
    ∃ t, issueAndRun 0x23 s = .next t ∧ t.IdleWith type ds ∧ t.regs.status.found = true ∧
      t.regs.result = BitVec.ofNat 32 i ∧ t.regs.desc = d := by
  obtain ⟨hidle, rfl, rfl⟩ := hs
  exact ⟨_, issueAndRun_eq hidle rfl (exec_chunkFind_found (s := s.issued 0x23) h), ⟨rfl, rfl, rfl⟩, rfl, rfl, rfl⟩

/-- CHUNK_FIND issued to an idle block, of a type that is not in DT (43_container.md R177). -/
theorem issueAndRun_chunkFind_miss (hs : s.IdleWith type ds) (h : findFirst type ds = none) :
    ∃ t, issueAndRun 0x23 s = .next t ∧ t.IdleWith type ds ∧ t.regs.status.found = false := by
  obtain ⟨hidle, rfl, rfl⟩ := hs
  exact ⟨_, issueAndRun_eq hidle rfl (exec_chunkFind_miss (s := s.issued 0x23) h), ⟨rfl, rfl, rfl⟩, rfl⟩

/-- CHUNK_REMOVE issued to an idle block, of a type in DT (43_container.md R178). -/
theorem issueAndRun_chunkRemove_found {before after : List Desc} {d : Desc}
    (hs : s.IdleWith type (before ++ d :: after)) (ht : d.type = type) (hfirst : ∀ e ∈ before, e.type ≠ type) :
    ∃ t, issueAndRun 0x24 s = .next t ∧ t.IdleWith type (before ++ after) ∧
      t.regs.result = BitVec.ofNat 32 before.length := by
  obtain ⟨hidle, rfl, hdt⟩ := hs
  exact ⟨_, issueAndRun_eq hidle rfl (exec_chunkRemove_found (s := s.issued 0x24) hdt ht hfirst), ⟨rfl, rfl, rfl⟩,
    rfl⟩

/-- CHUNK_REMOVE issued to an idle block, of a type that is not in DT (43_container.md R178). -/
theorem issueAndRun_chunkRemove_miss (hs : s.IdleWith type ds) (h : findFirst type ds = none) :
    ∃ t, issueAndRun 0x24 s = .next t ∧ t.regs.status.errcode = .chunkNotFound ∧ t.regs.errInfo = type := by
  obtain ⟨hidle, rfl, rfl⟩ := hs
  exact ⟨_, issueAndRun_eq hidle rfl (exec_chunkRemove_miss (s := s.issued 0x24) h), rfl, rfl⟩

end

/-- Settles O60: each command is issued to the idle block that the one before it left, and finds DT with the new
descriptor at its end, or without it. -/
theorem appendFindRemoveScenario : Obligations.AppendFindRemoveScenario := by
  intro s hidle hin ht hroom hwf hnew
  obtain ⟨-, -, -, hmax⟩ := hwf
  have hlast : findFirst s.regs.type (s.dt ++ [s.newDesc]) = some (s.dt.length, s.newDesc) :=
    findFirst_some.2 ⟨s.dt, [], rfl, rfl, rfl, hnew⟩
  have hgone : findFirst s.regs.type (s.dt ++ []) = none :=
    findFirst_none.2 ((List.append_nil s.dt).symm ▸ hnew)
  have hindex : (BitVec.ofNat 32 s.dt.length).toNat = s.dt.length := Nat.mod_eq_of_lt (by omega)
  obtain ⟨s1, hrun1, hs1, hresult1, hdesc1, herr1⟩ := issueAndRun_chunkNew hidle hin ht hroom.ne
  obtain ⟨s2, hrun2, hs2, hfound2, hresult2, hdesc2⟩ := issueAndRun_chunkFind_found hs1 hlast
  obtain ⟨s3, hrun3, hs3, hresult3⟩ := issueAndRun_chunkRemove_found hs2 rfl hnew
  obtain ⟨s4, hrun4, hs4, hfound4⟩ := issueAndRun_chunkFind_miss hs3 hgone
  obtain ⟨s5, hrun5, herrcode5, herrInfo5⟩ := issueAndRun_chunkRemove_miss hs4 hgone
  exact ⟨s1, s2, s3, s4, s5, hrun1, hrun2, hrun3, hrun4, hrun5, hresult1 ▸ hindex, herr1, hfound2,
    hresult2.trans hresult1.symm, hdesc2.trans hdesc1.symm, hresult3.trans hresult1.symm,
    hs3.dt.trans (List.append_nil s.dt), hfound4, herrcode5, herrInfo5⟩

end Sys2Proof.Machine
end

section
/-!
PROOFS. The family of 44_host_access.md: the soft reset, the buffers, the registers, and what a write does while
BUSY = 1.
-/

namespace Sys2Proof.Machine

open Sys2Proof.Claims

/-! ### What a legal write does, idle and busy -/

/-- A register access that is not 32 bits wide is illegal (20_memory.md R62). -/
theorem not_legalAt_reg_of_ne_word {s : State} {off : RegOffset} {w : Width} (h : w ≠ .word) : ¬ legalAt s (.reg off) w :=
  fun hl => h hl.1

/-- While BUSY = 1 a legal write to any place but CTRL changes the response only (44_host_access.md R202). -/
theorem exec_write_busy {s : State} {p : Place} {w : Width} (v : Word) (hb : s.pend ≠ none) (hl : legalAt s p w)
    (hp : p ≠ .reg offCtrl) : exec (decodeAccess (.write p w v)) s = .next s.respondWrite := by
  obtain ⟨legal, effect, hlegal, he⟩ := exec_write s w v hp
  rw [he, hlegal.2 hl, State.hostWrite, if_pos rfl, if_pos (s.busy_iff.2 hb)]

/-- An idle block performs a legal write to any register but CTRL (44_host_access.md R201). -/
theorem exec_write_reg_idle {s : State} {off : RegOffset} (v : Word) (hp : s.pend = none) (ha : off.toNat % 4 = 0)
    (ho : off ≠ offCtrl) :
    exec (decodeAccess (.write (.reg off) .word v)) s = .next (s.writeOffset off v).respondWrite := by
  have hlegal : regAccessLegal off .word = true := (legalAt_reg s off .word).1 ⟨rfl, ha⟩
  rw [exec_write_reg s .word v ho, hlegal, State.hostWrite, if_pos rfl, s.not_busy_iff.2 hp]
  rfl

theorem offsetOf_aligned (r : Reg) : (offsetOf r).toNat % 4 = 0 := by
  cases r <;> rfl

/-- A write at the offset of a register writes that register. -/
theorem State.writeOffset_offsetOf (s : State) (v : Word) (r : Reg) :
    s.writeOffset (offsetOf r) v = s.writeRegister v r := by
  rw [State.writeOffset, regAt_eq_some.2 rfl]

/-! ### CTRL and the soft reset -/

/-- A legal CTRL write is performed at any time (44_host_access.md R202, R205). -/
theorem exec_write_ctrl_word (s : State) (v : Word) :
    exec (decodeAccess (.write (.reg offCtrl) .word v)) s = .next (s.writeCtrl v).respondWrite :=
  exec_write_ctrl s .word v

theorem decodeAccess_write_ctrl_irqEn {v : Word} (hv : softResetBit v = false) (w : Width) :
    decodeAccess (.write (.reg offCtrl) w v) = .ctrlWriteIrqEn w v := by
  rw [decodeAccess_write_ctrl, hv]
  rfl

theorem decodeAccess_write_ctrl_softReset {v : Word} (hv : softResetBit v = true) (w : Width) :
    decodeAccess (.write (.reg offCtrl) w v) = .ctrlSoftReset w v := by
  rw [decodeAccess_write_ctrl, if_pos hv]

/-- With SOFT_RESET clear a CTRL write sets IRQ_EN only (44_host_access.md R205). -/
theorem State.writeCtrl_irqEn (s : State) {v : Word} (hv : softResetBit v = false) :
    s.writeCtrl v = { s with regs := { s.regs with irqEn := v.getLsbD 0 } } := by
  rw [State.writeCtrl_eq, hv]
  rfl

/-- With SOFT_RESET set the reset undoes what the write did to IRQ_EN (44_host_access.md R207). -/
theorem State.writeCtrl_softReset (s : State) {v : Word} (hv : softResetBit v = true) :
    s.writeCtrl v = s.softReset := by
  rw [State.writeCtrl_eq, if_pos hv]

theorem decodeCommand_frameSerialize_iff {w : Word} : decodeCommand w = .ok .frameSerialize ↔ w = 0x22 := by
  constructor
  · intro h
    exact (Code.command.inj (encode_of_decodeCommand h).1).symm
  · rintro rfl
    rfl

theorem decodeCommand_chunkSerialize_iff {w : Word} :
    (∃ idx, decodeCommand w = .ok (.chunkSerialize idx)) ↔ opcField w = 0x12 ∧ rsvField w = 0 := by
  constructor
  · rintro ⟨idx, h⟩
    rw [← Code.command.inj (encode_of_decodeCommand h).1]
    exact ⟨opcField_commandWord _ _, rsvField_commandWord _ _⟩
  · rintro ⟨ho, hr⟩
    exact ⟨idxField w, decodeCommand_ok.2 (by rw [ho]; exact ⟨rfl, hr, .inl rfl⟩)⟩

/-- The words that decode to a serializer (44_host_access.md R207). -/
theorem isSerializer_iff {w : Word} :
    isSerializer w = true ↔
      decodeCommand w = .ok .frameSerialize ∨ ∃ idx, decodeCommand w = .ok (.chunkSerialize idx) := by
  unfold isSerializer
  cases decodeCommand w with
  | error e => simp
  | ok i => cases i <;> simp

/-- The model's test for a pending serializer is that of the statements, by the fields of the word. -/
theorem serializerPending_iff (s : State) : serializerPending s ↔ s.serializerPending = true := by
  have hword (w : Word) :
      isSerializer w = true ↔ w = 0x22 ∨ (w.toNat % 2 ^ 8 = 0x12 ∧ w.toNat / 2 ^ 24 = 0) := by
    rw [isSerializer_iff, decodeCommand_frameSerialize_iff, decodeCommand_chunkSerialize_iff, ← BitVec.toNat_inj,
      ← BitVec.toNat_inj, ← BitVec.toNat_inj, toNat_opcField, toNat_rsvField]
    rfl
  cases hp : s.pend with
  | none => simp [serializerPending, State.serializerPending, hp]
  | some w => simp only [serializerPending, State.serializerPending, hp, Option.some.injEq, exists_eq_left', hword]

/-- Settles O9: the write is the soft reset, and it draws new bytes for OBUF exactly when it aborts a serializer. -/
theorem softResetSetsRegistersAndKeepsIbuf : Obligations.SoftResetSetsRegistersAndKeepsIbuf := by
  intro s v hv
  refine ⟨s.softReset.respondWrite, ?_, ?_, fun hs => ?_, fun hs => ?_⟩
  · rw [← decodeAccess_write_ctrl_softReset hv, exec_write_ctrl_word, s.writeCtrl_softReset hv]
  · rw [State.softReset_eq]
    rfl
  · have hs' : s.serializerPending = false := Bool.eq_false_iff.2 (mt (serializerPending_iff s).2 hs)
    rw [State.softReset_eq, hs']
    exact ⟨rfl, rfl⟩
  · rw [State.softReset_eq, (serializerPending_iff s).1 hs]
    exact ⟨fun _ => rfl, rfl⟩

/-! ### The buffers -/

/-- A legal OBUF write of an idle block stores its lanes (44_host_access.md R210). -/
theorem exec_obufWrite_idle {s : State} {off : Nat} {w : Width} (v : Word) (hp : s.pend = none)
    (hl : legalAt s (.buf .obuf off) w) :
    exec (.obufWrite off w v) s = .next (s.storeObuf off w.bytes v).respondWrite := by
  have hlegal : bufAccessLegal s.params.obufBytes off w = true := (legalAt_buf s .obuf off w).1 hl
  simp [exec, execObufWrite, State.hostWrite, hlegal, s.not_busy_iff.2 hp]

/-- The bytes around the lanes of a write are kept (20_memory.md R61). -/
theorem Memory.read_laneBytes_outside (m : Memory) {off n x : Nat} (v : Word) (h : x < off ∨ off + n ≤ x) :
    (m.writeBytes off (laneBytes n v)).read x = m.read x :=
  m.read_writeBytes_outside off x _ (by rwa [length_laneBytes])

/-- Settles O14: the lanes are read back, and the bytes around them are kept. -/
theorem ibufWriteStoresItsLanes : Obligations.IbufWriteStoresItsLanes := by
  refine fun s off w v => ⟨fun hl hp => ?_, fun hl hb => ?_, fun hl _ => ?_⟩
  · exact ⟨_, exec_ibufWrite_idle v hp hl, rfl, s.ibuf.read_laneBytes off w.bytes v,
      fun _ => s.ibuf.read_laneBytes_outside v⟩
  · exact exec_write_busy (p := .buf .ibuf off) v hb hl Place.noConfusion
  · exact exec_write_illegal (p := .buf .ibuf off) v hl

/-- Settles O15: the lanes are read back, and the bytes around them are kept. -/
theorem obufWriteStoresItsLanes : Obligations.ObufWriteStoresItsLanes := by
  refine fun s off w v => ⟨fun hl hp => ?_, fun hl hb => ?_, fun hl _ => ?_⟩
  · exact ⟨_, exec_obufWrite_idle v hp hl, rfl, s.obuf.read_laneBytes off w.bytes v,
      fun _ => s.obuf.read_laneBytes_outside v⟩
  · exact exec_write_busy (p := .buf .obuf off) v hb hl Place.noConfusion
  · exact exec_write_illegal (p := .buf .obuf off) v hl

/-- A legal buffer read of an idle block answers with the bytes there (44_host_access.md R209). -/
theorem exec_bufRead_idle {s : State} {b : Buffer} {off : Nat} {w : Width} (hp : s.pend = none)
    (hl : legalAt s (.buf b off) w) :
    exec (.bufRead b off w) s = .next (s.respondRead (s.readLanes b off w.bytes)) := by
  simp [exec, execBufRead, (legalAt_buf s b off w).1 hl, s.not_busy_iff.2 hp]

/-- A legal OBUF read while BUSY = 1 answers with a fresh draw (70_reset_and_hazards.md R261). -/
theorem exec_bufRead_obuf_busy {s : State} {off : Nat} {w : Width} (hb : s.pend ≠ none)
    (hl : legalAt s (.buf .obuf off) w) : exec (.bufRead .obuf off w) s = .next (s.respondFree w.bytes) := by
  simp [exec, execBufRead, (legalAt_buf s .obuf off w).1 hl, s.busy_iff.2 hb]

/-- Settles O16: an idle read and an IBUF read find the bytes there, an OBUF read while BUSY = 1 a draw. -/
theorem bufferReadReturnsItsLanes : Obligations.BufferReadReturnsItsLanes := by
  refine fun s b off w => ⟨fun hl => ?_, fun hl => exec_read_illegal (p := .buf b off) hl⟩
  by_cases hp : s.pend = none
  · exact ⟨_, _, exec_bufRead_idle hp hl, rfl, fun _ => ⟨rfl, toNat_laneValue _ off w⟩⟩
  · cases b with
    | ibuf => exact ⟨_, _, exec_bufRead_ibuf hl, rfl, fun _ => ⟨rfl, toNat_laneValue _ off w⟩⟩
    | obuf => exact ⟨_, _, exec_bufRead_obuf_busy hp hl, rfl, fun h => by simp [hp] at h⟩

/-! ### Register writes -/

/-- The offsets with a write row of their own, in the claims' words. -/
theorem not_mem_ownWriteRows {off : RegOffset} : off ∉ ownWriteRows ↔ hasOwnWriteRow off = false := by
  simp [ownWriteRows, hasOwnWriteRow_eq_false, offCtrl, offStatus, offCmd, offCrcDin]

/-- Each RW register of 44_host_access.md R201 is at its offset, which has no write row of its own. -/
theorem plainWrites_register : ∀ p ∈ plainWrites, ∃ r, p.1 = offsetOf r ∧ hasOwnWriteRow (offsetOf r) = false ∧
    ∀ (s : State) (v : Word), s.writeRegister v r = { s with regs := p.2 v s.regs } := by
  simp only [plainWrites, List.forall_mem_cons]
  exact ⟨⟨.addr, rfl, rfl, fun _ _ => rfl⟩, ⟨.len, rfl, rfl, fun _ _ => rfl⟩, ⟨.type, rfl, rfl, fun _ _ => rfl⟩,
    ⟨.crcPoly, rfl, rfl, fun _ _ => rfl⟩, ⟨.crcInit, rfl, rfl, fun _ _ => rfl⟩,
    ⟨.crcXorout, rfl, rfl, fun _ _ => rfl⟩, ⟨.crcCfg, rfl, rfl, fun _ _ => rfl⟩,
    ⟨.crcState, rfl, rfl, fun _ _ => rfl⟩, ⟨.crcExpect, rfl, rfl, fun _ _ => rfl⟩, nofun⟩

/-- The other registers are read-only, and a reserved offset has none (44_host_access.md R201). -/
theorem writeOffset_ignored (s : State) {off : RegOffset} (v : Word) (hrw : off ∉ plainWrites.map Prod.fst)
    (hrow : hasOwnWriteRow off = false) : s.writeOffset off v = s := by
  cases hr : regAt off with
  | none => rw [State.writeOffset, hr]
  | some r =>
    cases regAt_eq_some.1 hr
    rw [s.writeOffset_offsetOf]
    cases r with
    | ctrl | status | cmd | crcDin => cases hrow
    | addr | len | type | crcPoly | crcInit | crcXorout | crcCfg | crcState | crcExpect => exact absurd (by decide) hrw
    | id | version | capIbuf | capObuf | capChunks | preambleHi | preambleLo | errInfo | result | count | typeFlags
      | crcResult | descLen | descType | descCrc | descPaddr => rfl

/-- REG_WRITE of an idle block (44_host_access.md R201). -/
theorem exec_regWrite_idle {s : State} {off : RegOffset} (v : Word) (hp : s.pend = none) (ha : off.toNat % 4 = 0)
    (hrow : hasOwnWriteRow off = false) : exec (.regWrite off .word v) s = .next (s.writeOffset off v).respondWrite := by
  rw [← decodeAccess_write_reg hrow]
  exact exec_write_reg_idle v hp ha (hasOwnWriteRow_eq_false.1 hrow).1

/-- REG_WRITE while BUSY = 1 (44_host_access.md R202). -/
theorem exec_regWrite_busy {s : State} {off : RegOffset} (v : Word) (hb : s.pend ≠ none) (ha : off.toNat % 4 = 0)
    (hrow : hasOwnWriteRow off = false) : exec (.regWrite off .word v) s = .next s.respondWrite := by
  rw [← decodeAccess_write_reg hrow]
  exact exec_write_busy v hb ⟨rfl, ha⟩ fun h => (hasOwnWriteRow_eq_false.1 hrow).1 (Place.reg.inj h)

/-- An illegal REG_WRITE is a bus error, also at an offset where no access decodes to it (20_memory.md R63). -/
theorem exec_regWrite_illegal {s : State} {off : RegOffset} {w : Width} (v : Word) (h : ¬ legalAt s (.reg off) w) :
    exec (.regWrite off w v) s = .next s.busErrorWrite := by
  rw [exec, execRegWrite, Bool.eq_false_iff.2 (mt (legalAt_reg s off w).2 h)]
  split <;> rfl

/-- Settles O25: the nine RW registers, the offsets that ignore the write, the busy block and the bus error. -/
theorem registerWriteSetsRwRegisters : Obligations.RegisterWriteSetsRwRegisters := by
  refine fun s v => ⟨fun _ _ => rfl, fun hp p hmem => ?_, fun hp off ha hrw hrow => ?_,
    fun hb off ha hrow => exec_regWrite_busy v hb ha (not_mem_ownWriteRows.1 hrow),
    fun off w hl _ => exec_regWrite_illegal v hl⟩
  · obtain ⟨r, ho, hrow, hwrite⟩ := plainWrites_register p hmem
    rw [ho, exec_regWrite_idle v hp (offsetOf_aligned r) hrow, s.writeOffset_offsetOf, hwrite]
    rfl
  · have hrow := not_mem_ownWriteRows.1 hrow
    rw [exec_regWrite_idle v hp ha hrow, writeOffset_ignored s v hrw hrow]
    rfl

/-! ### Register reads -/

/-- A read at the offset of a register reads that register. -/
theorem State.readOffset_offsetOf (s : State) (r : Reg) : s.readOffset (offsetOf r) = s.readRegister r := by
  rw [State.readOffset, regAt_eq_some.2 rfl]

theorem offsetFreeWhileBusy_offsetOf (r : Reg) : offsetFreeWhileBusy (offsetOf r) = regFreeWhileBusy r := by
  rw [offsetFreeWhileBusy, regAt_eq_some.2 rfl]

theorem flagBit_zero (b : Bool) : flagBit 0 b = BitVec.ofNat 32 b.toNat := by
  cases b <;> rfl

theorem flagBit_zero_or_one (b c : Bool) : flagBit 0 b ||| flagBit 1 c = BitVec.ofNat 32 (b.toNat + 2 * c.toNat) := by
  cases b <;> cases c <;> rfl

/-- PREAMBLE as its eight bytes (00_scope.md R9). -/
theorem toList_preamble (p : Vector Byte 8) : p.toList = [p[0], p[1], p[2], p[3], p[4], p[5], p[6], p[7]] :=
  List.ext_getElem (by simp) fun i h _ => by
    have hi : i < 8 := by simpa using h
    interval_cases i <;> rfl

theorem preambleWord_zero (s : State) : preambleWord s 0 = s.readRegister .preambleHi :=
  preambleWord_eq (by rw [toList_preamble]; rfl)

theorem preambleWord_four (s : State) : preambleWord s 4 = s.readRegister .preambleLo :=
  preambleWord_eq (by rw [toList_preamble]; rfl)

/-- The registers of 10_state.md R21 that R261 does not name are at their offsets, with the values that R21 to R44
say. -/
theorem plainReads_register : ∀ p ∈ plainReads, ∃ r, p.1 = offsetOf r ∧ regFreeWhileBusy r = false ∧
    ∀ s : State, s.readRegister r = p.2 s := by
  simp only [plainReads, List.forall_mem_cons]
  exact ⟨⟨.id, rfl, rfl, fun _ => rfl⟩, ⟨.version, rfl, rfl, fun _ => rfl⟩, ⟨.capIbuf, rfl, rfl, fun _ => rfl⟩,
    ⟨.capObuf, rfl, rfl, fun _ => rfl⟩, ⟨.capChunks, rfl, rfl, fun _ => rfl⟩,
    ⟨.preambleHi, rfl, rfl, fun s => (preambleWord_zero s).symm⟩,
    ⟨.preambleLo, rfl, rfl, fun s => (preambleWord_four s).symm⟩, ⟨.ctrl, rfl, rfl, fun _ => flagBit_zero _⟩,
    ⟨.status, rfl, rfl, toWord_status⟩, ⟨.cmd, rfl, rfl, fun _ => rfl⟩, ⟨.addr, rfl, rfl, fun _ => rfl⟩,
    ⟨.len, rfl, rfl, fun _ => rfl⟩, ⟨.type, rfl, rfl, fun _ => rfl⟩, ⟨.crcPoly, rfl, rfl, fun _ => rfl⟩,
    ⟨.crcInit, rfl, rfl, fun _ => rfl⟩, ⟨.crcXorout, rfl, rfl, fun _ => rfl⟩,
    ⟨.crcCfg, rfl, rfl, fun _ => flagBit_zero_or_one _ _⟩, ⟨.crcDin, rfl, rfl, fun _ => rfl⟩,
    ⟨.crcExpect, rfl, rfl, fun _ => rfl⟩, nofun⟩

/-- The registers that 70_reset_and_hazards.md R261 names are at their offsets, with their values while BUSY = 0. -/
theorem busyFreeReads_register : ∀ p ∈ busyFreeReads, ∃ r, p.1 = offsetOf r ∧
    ∀ s : State, s.readRegister r = p.2 s := by
  simp only [busyFreeReads, List.forall_mem_cons]
  exact ⟨⟨.errInfo, rfl, fun _ => rfl⟩, ⟨.result, rfl, fun _ => rfl⟩, ⟨.count, rfl, fun _ => rfl⟩,
    ⟨.crcState, rfl, fun _ => rfl⟩, ⟨.crcResult, rfl, fun _ => rfl⟩, ⟨.descLen, rfl, fun _ => rfl⟩,
    ⟨.descType, rfl, fun _ => rfl⟩, ⟨.descCrc, rfl, fun _ => rfl⟩, ⟨.descPaddr, rfl, fun _ => rfl⟩, nofun⟩

/-- The two lists and TYPE_FLAGS are all the registers of 10_state.md R21. -/
theorem regAt_eq_none_of_unlisted {off : RegOffset} (hplain : off ∉ plainReads.map Prod.fst)
    (hfree : off ∉ busyFreeReads.map Prod.fst) (hflags : off ≠ 0x04C) : regAt off = none := by
  refine regAt_eq_none fun r => ?_
  rintro rfl
  cases r with
  | typeFlags => exact hflags rfl
  | errInfo | result | count | crcState | crcResult | descLen | descType | descCrc | descPaddr =>
    exact hfree (by decide)
  | id | version | capIbuf | capObuf | capChunks | preambleHi | preambleLo | ctrl | status | cmd | addr | len | type
    | crcPoly | crcInit | crcXorout | crcCfg | crcDin | crcExpect => exact hplain (by decide)

/-- A reserved offset reads 0, busy or not (10_state.md R21). -/
theorem exec_regRead_reserved {s : State} {off : RegOffset} (ha : off.toNat % 4 = 0) (h : regAt off = none) :
    exec (.regRead off .word) s = .next (s.respondRead 0) := by
  rw [exec_regRead_specified ha (by rw [offsetFreeWhileBusy, h]), State.readOffset, h]

/-- Settles O26: both lists of registers, the offsets in neither, and the bus error. -/
theorem registerReadReturnsTheValue : Obligations.RegisterReadReturnsTheValue := by
  refine fun s => ⟨fun p hmem => ?_, fun hp p hmem => ?_, fun off ha hplain hfree hflags => ?_,
    fun off w hl => exec_read_illegal (p := .reg off) hl⟩
  · obtain ⟨r, ho, hfree, hread⟩ := plainReads_register p hmem
    rw [ho, exec_regRead_specified (offsetOf_aligned r) ((offsetFreeWhileBusy_offsetOf r).trans hfree),
      s.readOffset_offsetOf, hread]
    rfl
  · obtain ⟨r, ho, hread⟩ := busyFreeReads_register p hmem
    rw [ho, exec_regRead_idle hp (offsetOf_aligned r), s.readOffset_offsetOf, hread]
    rfl
  · exact exec_regRead_reserved ha (regAt_eq_none_of_unlisted hplain hfree hflags)

/-! ### Writes while busy -/

/-- Settles O28: a CTRL write is the one that BUSY = 1 does not disable. -/
theorem writesWhileBusyAreIgnored : Obligations.WritesWhileBusyAreIgnored := by
  refine fun s v hb => ⟨fun p w hl hp => exec_write_busy v hb hl hp, _, exec_write_ctrl_word s v, fun hv => ?_,
    fun hv => ?_⟩
  · rw [s.writeCtrl_irqEn hv]
    rfl
  · rw [s.writeCtrl_softReset hv, State.softReset_eq]
    exact ⟨rfl, rfl, rfl⟩

/-! ### STATUS, CTRL and CMD -/

/-- DONE is kept unless data bit 1 is set (44_host_access.md R206). -/
theorem State.clearDone_eq (s : State) (v : Word) :
    s.clearDone v =
      { s with
        regs := { s.regs with status := { s.regs.status with done := s.regs.status.done && !v.getLsbD 1 } } } := by
  rw [State.clearDone]
  cases v.getLsbD 1 <;> simp

/-- A STATUS write of an idle block (44_host_access.md R206). -/
theorem exec_statusW1c_idle {s : State} (v : Word) (hp : s.pend = none) :
    exec (.statusW1c .word v) s = .next (s.clearDone v).respondWrite :=
  (exec_write_reg_idle (off := offStatus) v hp rfl (by decide)).trans
    (congrArg (Host.Outcome.next ∘ State.respondWrite) (s.writeOffset_offsetOf v .status))

/-- Settles O22: idle, busy, and at another width. -/
theorem statusWriteClearsDoneOnly : Obligations.StatusWriteClearsDoneOnly := by
  refine fun s v => ⟨fun _ => rfl, fun hp => ?_, fun hb => ?_, fun w hw _ => ?_⟩
  · rw [exec_statusW1c_idle v hp, State.clearDone_eq]
    rfl
  · exact exec_write_busy (p := .reg offStatus) v hb ⟨rfl, rfl⟩ (by decide)
  · exact exec_write_illegal (p := .reg offStatus) v (not_legalAt_reg_of_ne_word hw)

/-- Settles O23, for each row of a CTRL write: performed, and at another width. -/
theorem ctrlWriteSetsIrqEnable : Obligations.CtrlWriteSetsIrqEnable := by
  refine fun s v => ⟨fun _ => rfl, fun hv => ⟨⟨(s.writeCtrl v).respondWrite, ?_, ?_, ?_⟩, fun w hw _ => ?_⟩,
    fun hv => ⟨⟨(s.writeCtrl v).respondWrite, ?_, ?_, ?_, rfl⟩, fun w hw _ => ?_⟩⟩
  · rw [← decodeAccess_write_ctrl_irqEn hv, exec_write_ctrl_word]
  · rw [s.writeCtrl_irqEn hv]
    rfl
  · rw [s.writeCtrl_irqEn hv]
    rfl
  · rw [← decodeAccess_write_ctrl_irqEn hv]
    exact exec_write_illegal v (not_legalAt_reg_of_ne_word hw)
  · rw [← decodeAccess_write_ctrl_softReset hv, exec_write_ctrl_word]
  · rw [s.writeCtrl_softReset hv, State.softReset_eq]
    rfl
  · rw [s.writeCtrl_softReset hv, State.softReset_eq]
    rfl
  · rw [← decodeAccess_write_ctrl_softReset hv]
    exact exec_write_illegal v (not_legalAt_reg_of_ne_word hw)

/-- Settles O24: idle, busy, and at another width; every word is issued, legal or not. -/
theorem cmdWriteIssuesTheCommand : Obligations.CmdWriteIssuesTheCommand := by
  refine fun s w => ⟨fun _ => rfl, fun hp => ?_, fun hb => ?_, fun x hx _ => ?_⟩
  · exact ⟨_, exec_cmdIssue w hp, Bool.and_false _, rfl⟩
  · exact exec_write_busy (p := .reg offCmd) w hb ⟨rfl, rfl⟩ (by decide)
  · exact exec_write_illegal (p := .reg offCmd) w (not_legalAt_reg_of_ne_word hx)

end Sys2Proof.Machine
end

section
/-!
PROOFS. The family of 60_exceptions.md: the idle engine, what every step answers, and what a failing command changes.
-/

namespace Sys2Proof.Machine

open Sys2Proof.Claims

/-! ### The idle engine -/

/-- Settles O6: with PEND = none the engine's turn takes its entry from the queue and idles. -/
theorem idleEngineKeepsState : Obligations.IdleEngineKeepsState := by
  intro s rest hn hp
  rw [step, State.fetch_of_engineNext hn, hp]
  rfl

/-! ### Every step answers a next state -/

section
variable {s : State} (hin : ∀ d ∈ s.dt, d.inIbuf s.params.ibufBytes)
include hin

/-- CHUNK_SERIALIZE has a next state in each of its cases: no descriptor at IDX, OBUF too small, the record written
(42_chunk.md R144). -/
theorem chunkSerialize_answers (idx : BitVec 16) : ∃ t, exec (.chunkSerialize idx) s = .next t := by
  cases hd : s.descAt idx with
  | none => exact ⟨_, exec_chunkSerialize_rangeError (descAt_eq_none.1 hd)⟩
  | some d =>
    rcases Nat.lt_or_ge s.params.obufBytes (recordLength d) with hbig | hfit
    · exact ⟨_, exec_chunkSerialize_outputOverflow hd hbig⟩
    · exact ⟨_, exec_chunkSerialize hd hfit (hin d (List.mem_of_getElem? hd))⟩

/-- FRAME_SERIALIZE has a next state whether or not the frame fits in OBUF (43_container.md R175). -/
theorem frameSerialize_answers : ∃ t, exec .frameSerialize s = .next t := by
  rcases Nat.lt_or_ge s.params.obufBytes (frameLength s.dt) with hbig | hfit
  · exact ⟨_, exec_frameSerialize_outputOverflow hbig⟩
  · exact ⟨_, exec_frameSerialize hfit hin⟩

/-- Every operation has a next state while the payloads of the live descriptors lie in IBUF (10_state.md R41 (b)):
only the serializers could leave it. -/
theorem exec_answers (i : Instr) : ∃ t, exec i s = .next t := by
  cases i with
  | chunkSerialize idx => exact chunkSerialize_answers hin idx
  | frameSerialize => exact frameSerialize_answers hin
  | nop | crcInit | crcBuf | crcCheck | chunkNew | chunkParse | descRead | typeCheck | frameClear | frameParse
    | chunkFind | chunkRemove | crcDinWrite | statusW1c | ctrlWriteIrqEn | ctrlSoftReset | cmdIssue | regRead | regWrite
    | ibufWrite | bufRead | obufWrite => exact ⟨_, rfl⟩

end

/-- Settles O12, by what comes next: idling, an illegal word and a reset have a next state always, an operation because
the invariant keeps every payload in IBUF. -/
theorem noStepStopsTheBlock : Obligations.NoStepStopsTheBlock := by
  intro s hs
  obtain ⟨turn, rest, hf, -⟩ := s.fetch_cases
  rw [step, hf]
  cases turn with
  | run i => exact exec_answers (s := { s with inputs := rest }) (fun d hd => (hs.live d hd).inIbuf) i
  | idle | illegal | hardwareReset => exact ⟨_, rfl⟩

/-! ### Errors are precise -/

/-- Settles O46: a command that completes leaves ERR as it was, and of the two ways to raise an error only that of
FRAME_PARSE touches DT. -/
theorem errorsArePrecise : Obligations.ErrorsArePrecise := by
  intro i s t hi hok h herr
  cases CommandEnd.of_exec hi h with
  | registers hr | table _ hr | output _ hr => exact Bool.noConfusion ((hr.err.trans hok).symm.trans herr)
  | failed hne => rw [if_neg hne]; rfl
  | rejected heq => rw [if_pos heq]; rfl

end Sys2Proof.Machine
end

section
/-!
PROOFS. The family of 70_reset_and_hazards.md: the hardware reset, the reads while BUSY = 1, the completion of a pending
command, and two commands with no poll between.
-/

namespace Sys2Proof.Machine

open Sys2Proof.Claims

/-! ### The hardware reset -/

/-- When the reset input is asserted, the step is the hardware reset (70_reset_and_hazards.md R255). -/
theorem step_of_hardwareReset {s : State} {rest : List Event} (h : s.inputs = .hardwareReset :: rest) :
    step s = .next (State.hardwareReset { s with inputs := rest }) := by
  simp only [step, State.fetch, h]

/-- Settles O7: the step is the hardware reset, and each field is as it leaves it. -/
theorem hardwareResetSetsEverything : Obligations.HardwareResetSetsEverything :=
  fun s _ h => ⟨_, step_of_hardwareReset h, rfl, rfl, rfl, rfl, Memory.read_unspecified s.draws,
    Memory.read_unspecified (s.draws + 1), rfl, rfl, rfl, rfl⟩

/-! ### Reads while busy -/

/-- A read of a register that R261 names answers with the whole free word of the next draw. -/
theorem exec_regRead_free {s : State} {off : RegOffset} (hb : s.pend ≠ none) (ho : off.toNat % 4 = 0)
    (hf : offsetFreeWhileBusy off = true) : exec (.regRead off .word) s = .next (s.respondFree 4) := by
  simp [exec, execRegRead, regAccessLegal, ho, hf, s.busy_iff.2 hb]

/-- The answer of a free read, in the claims' words (log 5). -/
theorem State.respondFree_eq (s : State) (n : Nat) :
    s.respondFree n = answered { s with draws := s.draws + 1 } .okay
      (some (BitVec.ofNat 32 ((Config.unspecifiedWord s.draws).toNat % 2 ^ (8 * n)))) := by
  rw [Nat.pow_mul]
  rfl

/-- A four-byte free read is the free word itself. -/
theorem State.respondFree_four (s : State) :
    s.respondFree 4 =
      answered { s with draws := s.draws + 1 } .okay (some (Config.unspecifiedWord s.draws)) := by
  rw [State.respondFree_eq, Nat.mod_eq_of_lt (Config.unspecifiedWord s.draws).isLt, BitVec.ofNat_toNat,
    BitVec.setWidth_eq]

/-- The registers that 70_reset_and_hazards.md R261 names are those that the model reads as free while BUSY = 1. -/
theorem busyFreeReads_free : ∀ off ∈ busyFreeReads.map Prod.fst,
    off.toNat % 4 = 0 ∧ offsetFreeWhileBusy off = true := by
  decide

/-- While BUSY = 1 the other fields of STATUS are 0 (70_reset_and_hazards.md R261). -/
theorem Inv.readRegister_status_busy {s : State} (h : Inv s) (hb : s.pend ≠ none) : s.readRegister .status = 1 := by
  have hbusy := s.busy_iff.2 hb
  obtain ⟨hstatus, -, -⟩ := h.busyClear hbusy
  rw [State.readRegister, hstatus, hbusy]
  rfl

/-- A one-byte read returns the byte, zero-extended (20_memory.md R61). -/
theorem readLanes_ibuf_byte (s : State) (off : Nat) :
    s.readLanes .ibuf off Width.byte.bytes = BitVec.ofNat 32 (s.ibuf.read off).toNat :=
  rfl

/-- Settles O27: the named registers and OBUF answer with the next draw, STATUS and IBUF with what they hold. -/
theorem readsWhileBusyAreFreshDraws : Obligations.ReadsWhileBusyAreFreshDraws := by
  refine fun s hs hb => ⟨fun p hmem => ?_, fun off w hl => ?_, ?_, fun off hoff => ?_⟩
  · obtain ⟨ho, hf⟩ := busyFreeReads_free p.1 (List.mem_map_of_mem hmem)
    rw [exec_regRead_free hb ho hf, State.respondFree_four]
  · rw [exec_bufRead_obuf_busy hb hl, State.respondFree_eq]
  · rw [exec_regRead_specified rfl rfl, ← hs.readRegister_status_busy hb]
    rfl
  · have hl : legalAt s (.buf .ibuf off) .byte := ⟨Nat.mod_one off, hoff⟩
    rw [exec_bufRead_ibuf hl, readLanes_ibuf_byte]
    rfl

/-! ### The queue moves on -/

theorem State.inputs_hostWrite {s e : State} (legal : Bool) (he : e.inputs = s.inputs) :
    (s.hostWrite legal e).inputs = s.inputs := by
  rcases s.hostWrite_cases legal e with ⟨-, h⟩ | ⟨-, -, h⟩ | ⟨-, -, h⟩ <;> rw [h]
  · rfl
  · rfl
  · exact he

theorem State.inputs_hostWriteAlways {s e : State} (legal : Bool) (he : e.inputs = s.inputs) :
    (s.hostWriteAlways legal e).inputs = s.inputs := by
  rcases s.hostWriteAlways_cases legal e with ⟨-, h⟩ | ⟨-, h⟩ <;> rw [h]
  · rfl
  · exact he

@[simp] theorem State.inputs_writeCtrl (s : State) (v : Word) : (s.writeCtrl v).inputs = s.inputs := by
  rw [State.writeCtrl_eq, State.softReset_eq]
  split <;> rfl

@[simp] theorem State.inputs_writeOffset (s : State) (off : RegOffset) (v : Word) :
    (s.writeOffset off v).inputs = s.inputs := by
  rw [State.writeOffset]
  cases regAt off with
  | none => rfl
  | some r =>
    cases r with
    | ctrl => exact s.inputs_writeCtrl v
    | status =>
      show (s.clearDone v).inputs = s.inputs
      rw [State.clearDone_eq]
    | _ => rfl

/-- A host access leaves what comes after it in the queue (log 2). -/
theorem inputs_of_exec_access {s t : State} {a : Access} (h : exec (decodeAccess a) s = .next t) :
    t.inputs = s.inputs := by
  cases a with
  | read p w =>
    obtain ⟨r, n, he, -⟩ := exec_read_frame s p w
    cases he.symm.trans h
    rfl
  | write p w v =>
    cases p with
    | reg off =>
      by_cases ho : off = offCtrl
      · subst ho
        cases (exec_write_ctrl s w v).symm.trans h
        exact State.inputs_hostWriteAlways _ (s.inputs_writeCtrl v)
      · cases (exec_write_reg s w v ho).symm.trans h
        exact State.inputs_hostWrite _ (s.inputs_writeOffset off v)
    | buf b off =>
      cases b with
      | ibuf | obuf =>
        cases h
        exact State.inputs_hostWrite _ rfl

/-- After the engine's turn nothing is pending: it completes the command that was, or raises IllegalCommand
(60_exceptions.md R228, R231). -/
theorem step_of_engineNext_completes {s t : State} {rest : List Event} (hn : engineNext s rest)
    (h : step s = .next t) : t.pend = none ∧ t.inputs = rest := by
  cases hp : s.pend with
  | none =>
    cases (idleEngineKeepsState s rest hn hp).symm.trans h
    exact ⟨hp, rfl⟩
  | some w =>
    by_cases hw : illegalWord w
    · cases (step_of_engineNext_illegal hn hp hw).symm.trans h
      exact ⟨rfl, rfl⟩
    · obtain ⟨i, hd⟩ := exists_decodeCommand_iff.2 hw
      obtain ⟨hpend, -, -, -, -, hinputs, -⟩ := everyCommandCompletesAndKeepsIbuf i _ t
        (isCommand_of_decodeCommand hd) ((step_of_engineNext hn hp hd).symm.trans h)
      exact ⟨hpend, hinputs⟩

/-- A step takes one entry from the queue (log 2). -/
theorem inputs_of_step {s t : State} {e : Event} {rest : List Event} (hin : s.inputs = e :: rest)
    (h : step s = .next t) : t.inputs = rest := by
  cases e with
  | access a => exact inputs_of_exec_access ((step_of_access hin).symm.trans h)
  | engine => exact (step_of_engineNext_completes (.inl hin) h).2
  | hardwareReset =>
    cases (step_of_hardwareReset hin).symm.trans h
    rfl

/-- From a state with the invariant, the steps for the whole queue and one more leave the block idle
(70_reset_and_hazards.md R267). -/
theorem run_queue_completes {s : State} {queue : List Event} (hs : Inv s) (hin : s.inputs = queue) :
    ∃ t, core.run (queue.length + 1) s = .next t ∧ t.pend = none ∧ t.inputs = [] := by
  obtain ⟨t, ht⟩ := noStepStopsTheBlock s hs
  induction queue generalizing s t with
  | nil => exact ⟨t, run_succ 0 ht, step_of_engineNext_completes (.inr ⟨hin, rfl⟩) ht⟩
  | cons e rest ih =>
    have hinv := everyStepKeepsTheInvariant s t hs ht
    obtain ⟨u, hu⟩ := noStepStopsTheBlock t hinv
    obtain ⟨v, hrun, hv⟩ := ih hinv (inputs_of_step hin ht) u hu
    exact ⟨v, (run_succ _ ht).trans hrun, hv⟩

/-- Settles O13, by induction on the queue. -/
theorem pendingCommandCompletes : Obligations.PendingCommandCompletes :=
  fun _ hs => run_queue_completes hs rfl

/-! ### Two commands with no poll between -/

/-- A CMD write to an idle block issues its command (44_host_access.md R203). -/
theorem step_cmdWrite_idle {s : State} (hp : s.pend = none) (w : Word) (queue : List Event) :
    step { s with inputs := .access (.write (.reg offCmd) .word w) :: queue } =
      .next { s.issued w with inputs := queue } :=
  (step_of_access (a := .write (.reg offCmd) .word w) (rest := queue) rfl).trans
    (exec_cmdIssue (s := { s with inputs := queue }) w hp)

/-- A CMD write right after another one is lost (70_reset_and_hazards.md R263). -/
theorem step_cmdWrite_issued (s : State) (w v : Word) (queue : List Event) :
    step { s.issued w with inputs := .access (.write (.reg offCmd) .word v) :: queue } =
      .next { s.issued w with inputs := queue } :=
  (step_of_access (a := .write (.reg offCmd) .word v) (rest := queue) rfl).trans
    (exec_write_busy (s := { s.issued w with inputs := queue }) (p := .reg offCmd) v (Option.some_ne_none w)
      ⟨rfl, rfl⟩ (by decide))

section
variable {s t : State} {w : Word} {i : Instr} (hp : s.pend = none) (hd : decodeCommand w = .ok i)
include hp hd

/-- The second of two command words written with no poll between is lost when the engine has not moved: only the first
command completes (70_reset_and_hazards.md R263). -/
theorem run_command_lost (v : Word) (h : exec i (s.issued w) = .next t) :
    core.run 3 { s with inputs := [.access (.write (.reg offCmd) .word w), .access (.write (.reg offCmd) .word v),
      .engine] } = .next t := by
  have hcomplete : step { s.issued w with inputs := [.engine] } = .next t :=
    (step_of_engineNext (.inl rfl) rfl hd).trans h
  exact (run_succ 2 (step_cmdWrite_idle hp w _)).trans
    ((run_succ 1 (step_cmdWrite_issued s w v _)).trans (run_succ 0 hcomplete))

/-- The second of two command words is issued when the engine has completed the first command, which leaves the queue
(44_host_access.md R203). -/
theorem run_command_taken (v : Word)
    (h : ∀ queue, exec i { s.issued w with inputs := queue } = .next { t with inputs := queue }) :
    core.run 4 { s with inputs := [.access (.write (.reg offCmd) .word w), .engine,
      .access (.write (.reg offCmd) .word v), .engine] } = issueAndRun v t := by
  have hcomplete (queue : List Event) :
      step { s.issued w with inputs := .engine :: queue } = .next { t with inputs := queue } :=
    (step_of_engineNext (.inl rfl) rfl hd).trans (h queue)
  exact (run_succ 3 (step_cmdWrite_idle hp w _)).trans (run_succ 2 (hcomplete _))

end

/-- The descriptor that CHUNK_NEW builds of an empty IEND chunk, with the CRC of its type alone (95_test_vectors.md
V-HAZ-1). -/
theorem newDesc_iend {s : State} (ht : s.regs.type = 0x49454E44) (ha : s.regs.addr = 0) (hl : s.regs.len = 0) :
    s.newDesc = { len := 0, type := 0x49454E44, crc := 0xAE426082, paddr := 0 } := by
  have hwindow : s.window = [] := by
    rw [State.window, hl]
    rfl
  have hcrc : crcHdlc (typeBytes 0x49454E44 ++ []) = 0xAE426082 := by decide +kernel
  rw [State.newDesc, hwindow, ht, ha, hl, hcrc]

/-- Settles O51: the second CMD write finds FRAME_CLEAR pending and is lost, or finds the block idle with DT empty and
its CHUNK_NEW is performed. -/
theorem secondCommandIsTakenOrLost : Obligations.SecondCommandIsTakenOrLost := by
  intro s hs hp ht ha hl
  obtain ⟨-, -, hmax, -⟩ := hs.params
  have hin : inRange s := by
    simp [inRange, addr, len, ha, hl]
  have hletters : letters s.regs.type := by
    rw [ht, letters_iff]
    decide
  obtain ⟨t, hrun, ⟨hpend, -, hdt⟩, hresult, -⟩ :=
    issueAndRun_chunkNew (s := ((s.issued 0x20).setTable []).complete) rfl hin hletters (Nat.ne_of_lt hmax)
  refine ⟨⟨_, run_command_lost hp (i := .frameClear) rfl _ rfl, rfl, rfl, rfl, rfl⟩,
    t, Eq.trans (run_command_taken hp (i := .frameClear) rfl _ fun _ => rfl) hrun, hpend, hresult, ?_⟩
  rw [hdt]
  exact congrArg (fun d => [d]) (newDesc_iend ht ha hl)

end Sys2Proof.Machine
end
